-- ==== Sys2Proof/Word.lean ====
section
/-! DEFINITION. The word types of the PSRE (00_scope.md R11, R12). -/

namespace Sys2Proof

/-- A byte of host memory, and a U8 lane. -/
abbrev Byte := BitVec 8

/-- A 32-bit register or record field (u32). -/
abbrev Word := BitVec 32

/-- A 64-bit register, accumulator or record field (u64). -/
abbrev DWord := BitVec 64

/-- The encoding of a binary32 value (R12, R13). -/
abbrev F32 := BitVec 32

/-- The encoding of a binary64 value (R12, R13). -/
abbrev F64 := BitVec 64

/-- The number of bytes of the data address space, `2^ADDR_W` (R9, R60). -/
abbrev addressSpace : Nat := 2 ^ 64

end Sys2Proof
end

