-- ==== Sys2Proof/Machine/Float.lean ====
section
/-! DEFINITION. The floating-point primitives (00_scope.md R12, R13; 41_scalar_kernels.md R133). A binary
format has `fw` fraction bits and `ew` exponent bits; an encoding is the natural number of its bits. Finite
values are computed exactly as integers, in units of the format's least subnormal, and rounded once. -/

namespace Sys2Proof.Machine

/-- The weight of the sign bit. -/
def signBit (fw ew : Nat) : Nat := 2 ^ (fw + ew)

/-- The encoding of +infinity: exponent all ones, fraction 0 (R13). -/
def infEnc (fw ew : Nat) : Nat := (2 ^ ew - 1) * 2 ^ fw

/-- The encoding without its sign bit. -/
def magEnc (fw ew x : Nat) : Nat := x % signBit fw ew

/-- `sign(x)` (R13). -/
def signOf (fw ew x : Nat) : Bool := signBit fw ew ≤ x

/-- `isNaN(x)`: exponent all ones, fraction non-zero (R13). -/
def isNaNEnc (fw ew x : Nat) : Bool := infEnc fw ew < magEnc fw ew x

/-- Exponent all ones, fraction 0. -/
def isInfEnc (fw ew x : Nat) : Bool := magEnc fw ew x = infEnc fw ew

/-- The magnitude of a sign-free encoding, in units of the least subnormal. An infinity counts as the first
power of two past the largest finite magnitude, which keeps the numeric order. -/
def magValue (fw m : Nat) : Nat :=
  if m / 2 ^ fw = 0 then m else (2 ^ fw + m % 2 ^ fw) * 2 ^ (m / 2 ^ fw - 1)

/-- The signed value of an encoding that is no NaN, in units of the least subnormal. -/
def valueOf (fw ew x : Nat) : Int :=
  if signOf fw ew x then -(magValue fw (magEnc fw ew x) : Int) else (magValue fw (magEnc fw ew x) : Int)

/-- `n / 2^k` rounded to nearest, ties to even (R13). -/
def roundShift (n k : Nat) : Nat :=
  let q := n / 2 ^ k
  let r := n % 2 ^ k
  if 2 ^ k < 2 * r ∨ (2 * r = 2 ^ k ∧ q % 2 = 1) then q + 1 else q

/-- The sign-free encoding of the magnitude nearest to `n` units, ties to even, infinity when it overflows
(R13). A carry out of the fraction moves into the exponent field by itself. -/
def roundEnc (fw ew n : Nat) : Nat :=
  if n < 2 ^ (fw + 1) then n
  else
    let k := n.log2 - fw
    min (k * 2 ^ fw + roundShift n k) (infEnc fw ew)

/-- A sign put on a sign-free encoding. -/
def withSign (fw ew : Nat) (neg : Bool) (m : Nat) : Nat := if neg then signBit fw ew + m else m

/-- The NaN the datapath carries: which one is unobservable (log 8). -/
def quietNaN (fw ew : Nat) : Nat := infEnc fw ew + 2 ^ (fw - 1)

/-- IEEE addition, round to nearest, ties to even, no flush to zero (R13, D21). An exact zero sum of operands
of different sign is +0. -/
def addEnc (fw ew x y : Nat) : Nat :=
  if isNaNEnc fw ew x || isNaNEnc fw ew y then quietNaN fw ew
  else if isInfEnc fw ew x then
    if isInfEnc fw ew y && signOf fw ew x != signOf fw ew y then quietNaN fw ew else x
  else if isInfEnc fw ew y then y
  else
    let n := valueOf fw ew x + valueOf fw ew y
    if n = 0 then withSign fw ew (signOf fw ew x && signOf fw ew y) 0
    else withSign fw ew (decide (n < 0)) (roundEnc fw ew n.natAbs)

/-- The encoding with its sign bit flipped. -/
def negEnc (fw ew x : Nat) : Nat := withSign fw ew (!signOf fw ew x) (magEnc fw ew x)

/-- `add_f64(a, b)` (R13). -/
def addF64 (a b : F64) : F64 := BitVec.ofNat 64 (addEnc 52 11 a.toNat b.toNat)

/-- `sub_f32(a, b)` (R13): the sum of `a` and `b` negated. -/
def subF32 (a b : F32) : F32 := BitVec.ofNat 32 (addEnc 23 8 a.toNat (negEnc 23 8 b.toNat))

/-- `abs_f32(x)`: bit 31 cleared (R13). -/
def absF32 (x : F32) : F32 := x &&& 0x7FFFFFFF

/-- `isNaN` of a binary32 encoding (R13). -/
def isNaN32 (x : F32) : Bool := isNaNEnc 23 8 x.toNat

/-- `isNaN` of a binary64 encoding (R13). -/
def isNaN64 (x : F64) : Bool := isNaNEnc 52 11 x.toNat

/-- `f32_to_f64(x)`: exact widening; the least binary32 subnormal is 2^925 least binary64 subnormals; a NaN
stays a NaN (R13). -/
def f32ToF64 (x : F32) : F64 :=
  let neg := signOf 23 8 x.toNat
  let m := magEnc 23 8 x.toNat
  if isNaN32 x then BitVec.ofNat 64 (quietNaN 52 11)
  else if isInfEnc 23 8 x.toNat then BitVec.ofNat 64 (withSign 52 11 neg (infEnc 52 11))
  else BitVec.ofNat 64 (withSign 52 11 neg (roundEnc 52 11 (magValue 23 m * 2 ^ 925)))

/-- `flt(x, y)`: numeric less-than on values that are no NaN, with -0.0 before +0.0 (R133). -/
def flt (x y : F32) : Bool :=
  !isNaN32 x && !isNaN32 y &&
    (decide (valueOf 23 8 x.toNat < valueOf 23 8 y.toNat) ||
      (decide (valueOf 23 8 x.toNat = 0) && decide (valueOf 23 8 y.toNat = 0) &&
        signOf 23 8 x.toNat && !signOf 23 8 y.toNat))

/-- `fgt(x, y) = flt(y, x)` (R133). -/
def fgt (x y : F32) : Bool := flt y x

/-- `fmin_upd(acc, x)`: a NaN never replaces the accumulator (R133). -/
def fminUpd (acc x : F32) : F32 := if flt x acc then x else acc

/-- `fmax_upd(acc, x)` (R133). -/
def fmaxUpd (acc x : F32) : F32 := if fgt x acc then x else acc

/-- The encodings of +inf and -inf (R13). -/
def posInf32 : F32 := 0x7F800000
/-- See `posInf32`. -/
def negInf32 : F32 := 0xFF800000

end Sys2Proof.Machine
end

