-- ==== Sys2Proof/Machine/Reduction.lean ====
section
/-! DEFINITION. The reduction primitives: the horizontal-reduction tree (45_reduction_primitives.md R280 to R292)
and the lane operations it folds. They are pure functions of one register's lanes (R291). -/

namespace Sys2Proof.Machine

/-- One level of the tree: the upper half of the lanes folded onto the lower half (R280). -/
def foldHalf {α : Type} (op : α → α → α) (v : List α) : List α :=
  List.zipWith op (v.take (v.length / 2)) (v.drop (v.length / 2))

/-- The levels of the tree, at most `fuel` of them, until one lane is left (R280). -/
def halveLanes {α : Type} (op : α → α → α) : Nat → List α → List α
  | 0, v => v
  | fuel + 1, v => if v.length ≤ 1 then v else halveLanes op fuel (foldHalf op v)

/-- `HTREE(op, v, n)`, n the number of lanes (R280). -/
def htree {α : Type} (op : α → α → α) (none : α) (v : List α) : α := (halveLanes op v.length v).headD none

/-- `min_u8` (R179). -/
def minU8 (a b : BitVec 8) : BitVec 8 := if b < a then b else a
/-- `max_u8` (R179). -/
def maxU8 (a b : BitVec 8) : BitVec 8 := if a < b then b else a
/-- `min_u16` (R179). -/
def minU16 (a b : BitVec 16) : BitVec 16 := if b < a then b else a
/-- `max_u16` (R179). -/
def maxU16 (a b : BitVec 16) : BitVec 16 := if a < b then b else a
/-- `min_i16`, two's complement (R179). -/
def minI16 (a b : BitVec 16) : BitVec 16 := if b.slt a then b else a
/-- `max_i16`, two's complement (R179). -/
def maxI16 (a b : BitVec 16) : BitVec 16 := if a.slt b then b else a

/-- hmin_u8 (R281). -/
def hminU8 (v : List (BitVec 8)) : BitVec 8 := htree minU8 0 v
/-- hmax_u8 (R282). -/
def hmaxU8 (v : List (BitVec 8)) : BitVec 8 := htree maxU8 0 v
/-- hmin_i16 (R283). -/
def hminI16 (v : List (BitVec 16)) : BitVec 16 := htree minI16 0 v
/-- hmax_i16 (R284). -/
def hmaxI16 (v : List (BitVec 16)) : BitVec 16 := htree maxI16 0 v
/-- hmin_u16 (R285). -/
def hminU16 (v : List (BitVec 16)) : BitVec 16 := htree minU16 0 v
/-- hmax_u16 (R286). -/
def hmaxU16 (v : List (BitVec 16)) : BitVec 16 := htree maxU16 0 v
/-- `fmin2(a, b) = if flt(b, a) then b else a` (R287). -/
def fmin2 (a b : F32) : F32 := if flt b a then b else a
/-- `fmax2(a, b) = if fgt(b, a) then b else a` (R288). -/
def fmax2 (a b : F32) : F32 := if fgt b a then b else a
/-- hmin_f32 (R287). -/
def hminF32 (v : List F32) : F32 := htree fmin2 0 v
/-- hmax_f32 (R288). -/
def hmaxF32 (v : List F32) : F32 := htree fmax2 0 v
/-- hsum_u64, modulo 2^64 (R289). -/
def hsumU64 (v : List DWord) : DWord := htree (fun a b => a + b) 0 v
/-- hsum_f64 (R290). -/
def hsumF64 (v : List F64) : F64 := htree addF64 0 v

end Sys2Proof.Machine
end

