-- ==== Sys2Proof/Syntax.lean ====
section
/-! DEFINITION. The commands of spec/opcode_table.json, the register names, and the host's operations
(30_encoding.md R100 to R113). -/

namespace Sys2Proof

/-- The sample formats (00_scope.md glossary; FMT of R102). -/
inductive Format where
  | u8 | u16 | f32
deriving DecidableEq, Repr

/-- Single-plane or two-plane (P2 of R103). -/
inductive Planes where
  | one | two
deriving DecidableEq, Repr

/-- The kernel sets (R2; TIER of R104). -/
inductive Tier where
  | sc | v128 | v256
deriving DecidableEq, Repr

/-- The 18 commands of R105, one constructor per row of spec/opcode_table.json. A command has no operand
field: its operands are the argument registers (R106). -/
inductive Instr where
  | pstat1U8Sc | pstat1U16Sc | pstat1F32Sc
  | pstat2U8Sc | pstat2U16Sc | pstat2F32Sc
  | pstat1U8V128 | pstat1U16V128 | pstat1F32V128
  | pstat2U8V128 | pstat2U16V128 | pstat2F32V128
  | pstat1U8V256 | pstat1U16V256 | pstat1F32V256
  | pstat2U8V256 | pstat2U16V256 | pstat2F32V256
deriving DecidableEq, Repr

/-- The seven argument registers (10_state.md R31). -/
inductive ArgReg where
  | out | src1 | stride1 | src2 | stride2 | width | height
deriving DecidableEq, Repr

/-- The nine registers of an engine's register file (R31). -/
inductive Reg where
  | cmd | caps | arg (r : ArgReg)
deriving DecidableEq, Repr

/-- The binary operators of a host expression (R113). -/
inductive BinOp where
  | add | sub | mul | div | mod | band | bor | bxor | shl | shr
deriving DecidableEq, Repr

/-- A host expression over constants and host variables (R113). The index of a bit selection `t[i]` is a constant
natural number, its operand any expression: DESIGN CHOICE, R113 does not say which it may be (log 28). -/
inductive Expr where
  | lit (n : Int)
  | var (t : Nat)
  | bin (op : BinOp) (a b : Expr)
  | bit (a : Expr) (i : Nat)
deriving DecidableEq, Repr

/-- The comparisons of a host condition (R113). -/
inductive CmpOp where
  | eq | ne | lt | le | gt | ge
deriving DecidableEq, Repr

/-- A host condition: two expressions compared (R113). -/
structure Cond where
  op : CmpOp
  lhs : Expr
  rhs : Expr
deriving DecidableEq, Repr

/-- The sizes `n ∈ {1, 2, 4, 8}` of `st.<n>` and `ld.<n>` (R113). -/
inductive MemSize where
  | b1 | b2 | b4 | b8
deriving DecidableEq, Repr

/-- The host operations (R112, R113). A register operation names its engine, byte offset and width; the
names of R111 stand for offset and width (`HostOp.wrReg`, `HostOp.rdReg`, `HostOp.cmd`). -/
inductive HostOp where
  | wr (engine offset width : Nat) (v : Expr)
  | rd (t : Nat) (engine offset width : Nat)
  | st (n : MemSize) (addr v : Expr)
  | ld (n : MemSize) (t : Nat) (addr : Expr)
  | letVar (t : Nat) (e : Expr)
  | ifGoto (c : Cond) (target : Nat)
deriving DecidableEq, Repr

/-- What happens next in the machine and its surroundings: a thread performs its next operation, a CMD write
being one atomic step (R85); a thread performs its next operation, a CMD write only opening its interval
(R80); an engine completes its open command (R80); the platform resets the engines (R350); nothing. -/
inductive Event where
  | run (thread : Nat)
  | start (thread : Nat)
  | finish (engine : Nat)
  | reset
  | idle
deriving DecidableEq, Repr

end Sys2Proof
end

