-- ==== Sys2Proof/Config.lean ====
section
/-! DEFINITION. What an implementation fixes (the OPEN parameters of 00_scope.md R9) and the free values. -/

namespace Sys2Proof

/-- A half-open range `[lo, hi)` of byte addresses. -/
structure AddrRange where
  lo : Nat
  hi : Nat
deriving DecidableEq, Repr

/-- The OPEN parameters that are plain data: `ENGINE_BASE` of every engine (so `N_ENGINES` is its length),
`HAS_T128`, `HAS_T256`, and the admitted memory `ADMIT_R`, `ADMIT_W` as lists of ranges (R9). They are fixed
for a run and stand in the state, so a claim over all states is a claim over all values of them. The two OPEN parameters
that are functions, `NAN_RESULT` and `HOST_MM`, are `Config.nanPayload` and `Config.hostMM`. -/
structure Platform where
  engineBase : List Nat
  hasT128 : Bool
  hasT256 : Bool
  admitR : List AddrRange
  admitW : List AddrRange
deriving DecidableEq, Repr

/-- `N_ENGINES` (R9). -/
abbrev Platform.nEngines (p : Platform) : Nat := p.engineBase.length

/-- The platform of `State.reset`: two engines, both vector tiers, all memory below the register windows
admitted. DESIGN CHOICE (log 2, unsafe): R9 leaves every one of these values OPEN. -/
def Platform.reference : Platform where
  engineBase := [0xFFFFFFFFFFFFFF80, 0xFFFFFFFFFFFFFFC0]
  hasT128 := true
  hasT256 := true
  admitR := [⟨0, 0xFFFFFFFFFFFFFF80⟩]
  admitW := [⟨0, 0xFFFFFFFFFFFFFF80⟩]

/-- The inputs of a command that `NAN_RESULT` may depend on (R9, R139, R146): the command, the argument
registers it reads and the samples of the planes it reads, over-read bytes excepted. For a single-plane
command the second plane's entries are 0 and the empty list. -/
structure CommandInputs where
  instr : Instr
  out : Nat
  src1 : Nat
  stride1 : Int
  src2 : Nat
  stride2 : Int
  width : Nat
  height : Nat
  samples1 : List Word
  samples2 : List Word
deriving DecidableEq, Repr

/-- The sign and fraction of the NaN that `NAN_RESULT` writes for a command's inputs: OPEN (R9, D22), so a free
value (log 7). -/
opaque Config.nanPayload : CommandInputs → BitVec 53

/-- What the host reads from an argument register that nothing has written since reset, at draw number n: any value
(R45, U17), so a free value (log 6). -/
opaque Config.drawRegister : Nat → BitVec 64

/-- `HOST_MM`, the host's memory model: OPEN (R9, R83, D36), so a free value. At the host load that is draw number
`look`, thread `thread` comes to see this many more of the completed commands' writes of byte `addr` that it did not see
before, the oldest first (log 15). -/
opaque Config.hostMM (thread addr look : Nat) : Nat

/-- What a host expression gives where R113 states no result (a division by 0, a bitwise operation or a
shift count on negative numbers): a free value of the operation and its operands (log 17). -/
opaque Config.hostUnstated : BinOp → Int → Int → Int

/-- What a host variable that was never assigned holds: R113 states no value (log 17). -/
opaque Config.hostInitial : Nat → Int

end Sys2Proof
end

