-- ==== Sys2Proof/WellFormed.lean ====
section
/-! DEFINITION. Which instructions, host operations, programs and platforms are well formed. -/

namespace Sys2Proof

/-- Every command is well formed: it has no operand field and no immediate (30_encoding.md R106). -/
def Instr.wellFormed (_ : Instr) : Bool := true

/-- A host operation of a program of `len` operations on a platform of `n` engines: a register operation
names an existing engine (60_exceptions.md R332), and a `goto` names an operation of the program
(30_encoding.md R113). A register offset or width that no register has is well formed: it faults when
performed (10_state.md R44). -/
def HostOp.wellFormed (n len : Nat) : HostOp → Bool
  | .wr e _ _ _ => e < n
  | .rd _ e _ _ => e < n
  | .st _ _ _ => true
  | .ld _ _ _ => true
  | .letVar _ _ => true
  | .ifGoto _ target => target < len

/-- A host program: every operation is well formed in it (R113). -/
def programWellFormed (n : Nat) (p : List HostOp) : Bool :=
  p.all (HostOp.wellFormed n p.length)

/-- Two ranges share no address. -/
def AddrRange.disjoint (a b : AddrRange) : Bool := a.hi ≤ b.lo || b.hi ≤ a.lo || a.hi ≤ a.lo || b.hi ≤ b.lo

/-- The 64-byte register window at `base` (20_memory.md R61). -/
def AddrRange.window (base : Nat) : AddrRange := ⟨base, base + 64⟩

/-- A platform: at least one engine (00_scope.md R9), windows inside the address space and pairwise
disjoint, admitted memory inside the address space and never containing a register window (R9). -/
def Platform.wellFormed (p : Platform) : Bool :=
  1 ≤ p.nEngines &&
  p.engineBase.all (fun b => b + 64 ≤ addressSpace) &&
  decide (p.engineBase.Pairwise fun a b => (AddrRange.window a).disjoint (AddrRange.window b) = true) &&
  (p.admitR ++ p.admitW).all (fun r => r.hi ≤ addressSpace) &&
  (p.admitR ++ p.admitW).all (fun r => p.engineBase.all fun b => r.disjoint (AddrRange.window b))

end Sys2Proof
end

