-- ==== Sys2Proof/Decode.lean ====
section
/-! DEFINITION. The command word CMD32: decoder and encoder (30_encoding.md R100 to R108). -/

namespace Sys2Proof

/-- Why a CMD write is no command: a reserved field (R101, R107), or a transaction that is not four bytes
(R108). -/
inductive DecodeError where
  | reservedBits
  | reservedOp
  | reservedFormat
  | reservedTier
  | notOneWord (bytes : Nat)
deriving DecidableEq, Repr

/-- RSV, bits 31:8 (R100). -/
def wordRsv (w : Word) : BitVec 24 := w.extractLsb' 8 24
/-- OP, bits 7:5 (R100). -/
def wordOp (w : Word) : BitVec 3 := w.extractLsb' 5 3
/-- TIER, bits 4:3 (R100). -/
def wordTier (w : Word) : BitVec 2 := w.extractLsb' 3 2
/-- P2, bit 2 (R100). -/
def wordP2 (w : Word) : BitVec 1 := w.extractLsb' 2 1
/-- FMT, bits 1:0 (R100). -/
def wordFmt (w : Word) : BitVec 2 := w.extractLsb' 0 2

/-- FMT 0 = U8, 1 = U16, 2 = F32, 3 reserved (R102). -/
def formatOf (b : BitVec 2) : Option Format :=
  if b = 0 then some .u8 else if b = 1 then some .u16 else if b = 2 then some .f32 else none

/-- P2 0 = single-plane, 1 = two-plane (R103). -/
def planesOf (b : BitVec 1) : Planes := if b = 0 then .one else .two

/-- TIER 0 = SC, 1 = V128, 2 = V256, 3 reserved (R104). -/
def tierOf (b : BitVec 2) : Option Tier :=
  if b = 0 then some .sc else if b = 1 then some .v128 else if b = 2 then some .v256 else none

/-- The command of a format, plane count and tier (R3, R105). -/
def instrOf : Format → Planes → Tier → Instr
  | .u8, .one, .sc => .pstat1U8Sc
  | .u16, .one, .sc => .pstat1U16Sc
  | .f32, .one, .sc => .pstat1F32Sc
  | .u8, .two, .sc => .pstat2U8Sc
  | .u16, .two, .sc => .pstat2U16Sc
  | .f32, .two, .sc => .pstat2F32Sc
  | .u8, .one, .v128 => .pstat1U8V128
  | .u16, .one, .v128 => .pstat1U16V128
  | .f32, .one, .v128 => .pstat1F32V128
  | .u8, .two, .v128 => .pstat2U8V128
  | .u16, .two, .v128 => .pstat2U16V128
  | .f32, .two, .v128 => .pstat2F32V128
  | .u8, .one, .v256 => .pstat1U8V256
  | .u16, .one, .v256 => .pstat1U16V256
  | .f32, .one, .v256 => .pstat1F32V256
  | .u8, .two, .v256 => .pstat2U8V256
  | .u16, .two, .v256 => .pstat2U16V256
  | .f32, .two, .v256 => .pstat2F32V256

/-- The decoder, total on every 32-bit word: RSV and OP must be 0, FMT and TIER not 3 (R101, R107). -/
def decode (w : Word) : Except DecodeError Instr :=
  if wordRsv w ≠ 0 then .error .reservedBits
  else if wordOp w ≠ 0 then .error .reservedOp
  else
    match formatOf (wordFmt w), tierOf (wordTier w) with
    | none, _ => .error .reservedFormat
    | some _, none => .error .reservedTier
    | some f, some t => .ok (instrOf f (planesOf (wordP2 w)) t)

/-- The number that bytes hold, the first the least significant (20_memory.md R62). -/
def wordOfBytes : List Byte → Nat
  | [] => 0
  | b :: bs => b.toNat + 256 * wordOfBytes bs

/-- The decoder on the bytes of a CMD write: exactly four (R108). -/
def decodeBytes (bs : List Byte) : Except DecodeError Instr :=
  if bs.length = 4 then decode (BitVec.ofNat 32 (wordOfBytes bs)) else .error (.notOneWord bs.length)

/-- The `n` low bytes of `w`, the least significant first (R62). -/
def bytesOfWord : Nat → Nat → List Byte
  | 0, _ => []
  | n + 1, w => BitVec.ofNat 8 w :: bytesOfWord n (w / 256)

/-- The command the decoder reads from an instruction whose `nbits` low bits are `w`; bits above `nbits` up
to the command's 32 are 0. -/
def decodeTableWord (nbits w : Nat) : Option Instr :=
  (decodeBytes (bytesOfWord (max 4 (nbits / 8)) (w % 2 ^ nbits))).toOption

/-- The FMT field of a command (R102). -/
def fmtField : Format → BitVec 2
  | .u8 => 0
  | .u16 => 1
  | .f32 => 2

/-- The P2 field of a command (R103). -/
def p2Field : Planes → BitVec 1
  | .one => 0
  | .two => 1

/-- The TIER field of a command (R104). -/
def tierField : Tier → BitVec 2
  | .sc => 0
  | .v128 => 1
  | .v256 => 2

/-- The sample format of a command (R102, R105). -/
def Instr.format : Instr → Format
  | .pstat1U8Sc | .pstat2U8Sc | .pstat1U8V128 | .pstat2U8V128 | .pstat1U8V256 | .pstat2U8V256 => .u8
  | .pstat1U16Sc | .pstat2U16Sc | .pstat1U16V128 | .pstat2U16V128 | .pstat1U16V256 | .pstat2U16V256 => .u16
  | .pstat1F32Sc | .pstat2F32Sc | .pstat1F32V128 | .pstat2F32V128 | .pstat1F32V256 | .pstat2F32V256 => .f32

/-- The plane count of a command (R103, R105). -/
def Instr.planes : Instr → Planes
  | .pstat1U8Sc | .pstat1U16Sc | .pstat1F32Sc => .one
  | .pstat1U8V128 | .pstat1U16V128 | .pstat1F32V128 => .one
  | .pstat1U8V256 | .pstat1U16V256 | .pstat1F32V256 => .one
  | .pstat2U8Sc | .pstat2U16Sc | .pstat2F32Sc => .two
  | .pstat2U8V128 | .pstat2U16V128 | .pstat2F32V128 => .two
  | .pstat2U8V256 | .pstat2U16V256 | .pstat2F32V256 => .two

/-- The tier of a command (R104, R105). -/
def Instr.tier : Instr → Tier
  | .pstat1U8Sc | .pstat1U16Sc | .pstat1F32Sc | .pstat2U8Sc | .pstat2U16Sc | .pstat2F32Sc => .sc
  | .pstat1U8V128 | .pstat1U16V128 | .pstat1F32V128 | .pstat2U8V128 | .pstat2U16V128 | .pstat2F32V128 => .v128
  | .pstat1U8V256 | .pstat1U16V256 | .pstat1F32V256 | .pstat2U8V256 | .pstat2U16V256 | .pstat2F32V256 => .v256

/-- The encoder: `{RSV[23:0], OP[2:0], TIER[1:0], P2, FMT[1:0]}` with RSV and OP 0 (R100). -/
def encode (i : Instr) : Word :=
  (0 : BitVec 24) ++ (0 : BitVec 3) ++ tierField i.tier ++ p2Field i.planes ++ fmtField i.format

end Sys2Proof
end

