-- ==== Sys2Proof/Machine/State.lean ====
section
/-! DEFINITION. The state of the machine, its reset, and the reasons a step stops. -/

namespace Sys2Proof.Machine

/-- Host memory (20_memory.md R60) as (address, byte) pairs in one canonical form, `Memory.wf`. -/
abbrev Memory := List Host.Cell

/-- What an unlisted address reads as. DESIGN CHOICE (log 5, unsafe): the spec gives no initial contents. -/
def Memory.unlisted : Byte := 0

/-- The canonical form: addresses strictly rising, no entry equal to what an unlisted address reads as. -/
abbrev Memory.wf (m : Memory) : Prop :=
  m.Pairwise (fun c d => c.1 < d.1) ∧ ∀ c ∈ m, c.2 ≠ Memory.unlisted

/-- The argument registers of one engine (10_state.md R31 to R35). -/
structure ArgFile where
  out : DWord
  src1 : DWord
  stride1 : DWord
  src2 : DWord
  stride2 : DWord
  width : Word
  height : Word
deriving DecidableEq, Repr

/-- The `written` bit of every argument register (R42). -/
structure WrittenBits where
  out : Bool
  src1 : Bool
  stride1 : Bool
  src2 : Bool
  stride2 : Bool
  width : Bool
  height : Bool
deriving DecidableEq, Repr

/-- The datapath registers of tier SC (R40). -/
structure ScalarRegs where
  smin : Word
  smax : Word
  ssum : DWord
  sdiff : DWord
deriving DecidableEq, Repr

/-- The datapath registers of the vector tier of width `W` (R40). The mask M has L(fmt, W) bits, held in the
low bits of `m`. -/
structure VectorRegs (W : Nat) where
  vmin : BitVec W
  vmax : BitVec W
  vsum : BitVec W
  vdiff : BitVec W
  a : BitVec W
  b : BitVec W
  m : BitVec (W / 8)
deriving DecidableEq, Repr

/-- The datapath registers of one engine (R40): every tier's, and the row and chunk (or column) indexes. What they hold
outside a completed command is the model's choice (log 4). -/
structure Datapath where
  sc : ScalarRegs
  v128 : VectorRegs 128
  v256 : VectorRegs 256
  r : Word
  k : Word
deriving DecidableEq, Repr

/-- Who made the conflicting access of a data race (R84, R313). -/
inductive Agent where
  | thread (t : Nat)
  | engine (e : Nat)
deriving DecidableEq, Repr

/-- The fault codes of 60_exceptions.md R313 with the info each records. These are the spec's faults of a
command or a register operation: `raiseFault` takes them. -/
inductive CommandFault where
  | illegalCommand (word : Word)
  | tierUnavailable (word : Word)
  | uninitArg (r : ArgReg)
  | badGeometry (width height : Nat)
  | badStride (plane : Nat) (stride : Int)
  | misaligned (r : ArgReg)
  | addressOverflow (r : ArgReg)
  | outputOverlap (addr : Nat)
  | accessFault (addr : Nat)
  | dataRace (other : Agent) (addr : Nat)
  | badRegAccess (offset width : Nat)
deriving DecidableEq, Repr

/-- The command that a busy engine runs, its word, the host thread whose CMD write opened it (R43, R80), and the
first fault that a register operation raised on the engine meanwhile: it spares the command, and the engine is
`faulted` with it once the command has completed (R312, R321, 95_test_vectors.md F11c; log 11). -/
structure PendingCommand where
  instr : Instr
  word : Word
  thread : Nat
  fault : Option CommandFault
deriving DecidableEq, Repr

/-- The engine state of R43. -/
inductive EngineStatus where
  | idle
  | busy (p : PendingCommand)
  | faulted (f : CommandFault)
deriving DecidableEq, Repr

/-- One engine: its argument registers and `written` bits, its state, its datapath registers. CAPS and CMD hold
nothing (R36, R37), and IDX is a constant (R41). -/
structure Engine where
  args : ArgFile
  written : WrittenBits
  status : EngineStatus
  datapath : Datapath
deriving DecidableEq, Repr

/-- What was accessed when a fault was raised: a command word, or a register (R312). -/
inductive Access where
  | command (word : Word)
  | regRead (offset width : Nat)
  | regWrite (offset width : Nat)
deriving DecidableEq, Repr

/-- A recorded fault: the engine, the issuing thread, the command word or register access, the code with its
info (R312). -/
structure FaultRecord where
  engine : Nat
  thread : Nat
  access : Access
  fault : CommandFault
deriving DecidableEq, Repr

/-- Whether a host thread may go on, waits for its CMD write to complete (R80), or has stopped because its
operation faulted (log 9). -/
inductive ThreadStatus where
  | ready
  | waiting (engine : Nat)
  | stopped
deriving DecidableEq, Repr

/-- A host thread (30_encoding.md R113): its operations, its position, its variables (number and value), its
status. R113 does not say whether threads share variables: DESIGN CHOICE, each has its own (log 26). -/
structure Thread where
  program : List HostOp
  pos : Nat
  vars : List (Nat × Int)
  status : ThreadStatus
deriving DecidableEq, Repr

/-- The CMD write being performed (R37): its thread, its engine, its word. The model's own field (log 14): it
says for whom `exec` runs a command. -/
structure CmdPort where
  thread : Nat
  engine : Nat
  word : Word
deriving DecidableEq, Repr

/-- A byte of a completed command's write that a host thread other than the issuing one does not see yet, with the
byte that it still sees there: which thread sees it when is `HOST_MM` (R83, log 15). -/
structure Unseen where
  thread : Nat
  addr : Nat
  old : Byte
deriving DecidableEq, Repr

/-- The whole machine. `unseen` is oldest first. -/
structure State where
  platform : Platform
  engines : List Engine
  mem : Memory
  unseen : List Unseen
  threads : List Thread
  sched : List Event
  faults : List FaultRecord
  port : CmdPort
  draws : Nat
deriving DecidableEq, Repr

/-- Why a step stops the machine. -/
inductive Fault where
  /-- Raised by `perform` when a host thread that has stopped is to run, or when nothing is left to run in a
  run with a recorded fault: such a run is faulted and has no final state (R312). Safe. -/
  | runFaulted
  /-- Raised by `onIdleEngine` at a CMD write to a faulted engine: it is stuck until a reset
  (93_implementation_defined.md U7). Safe. -/
  | engineStuck (engine : Nat)
  /-- Raised by the host's `st` and `ld` when a byte lies outside 0 .. 2^64-1, addresses that do not exist
  (R60). Safe. -/
  | addressOutsideSpace (addr : Int)
deriving DecidableEq, Repr

/-- Why the model gives no meaning to a step. -/
inductive Refusal where
  /-- Raised by an arm of `exec` whose command has no meaning yet (none). Safe. -/
  | notModelled (mnemonic : String)
  /-- Raised by a register operation on an engine that the platform does not have (R332). Safe. -/
  | noSuchEngine (engine : Nat)
  /-- Raised when the schedule names a host thread that does not exist. Safe. -/
  | noSuchThread (thread : Nat)
  /-- Raised by a reset while an engine is busy (R351: a refusal, not a fault). Safe. -/
  | resetWhileBusy
  /-- Raised by the host's `st` and `ld` on a register window, which only register operations reach (R61).
  Safe. -/
  | registerWindow (addr : Nat)
deriving DecidableEq, Repr

/-- Argument registers after reset. R350 leaves them unspecified: DESIGN CHOICE 0 (log 3). -/
def ArgFile.reset : ArgFile := ⟨0, 0, 0, 0, 0, 0, 0⟩

/-- `written = false` for every argument register (R42, R350). -/
def WrittenBits.reset : WrittenBits := ⟨false, false, false, false, false, false, false⟩

/-- Datapath registers after reset. R350 leaves them unspecified: DESIGN CHOICE 0 (log 4). -/
def Datapath.reset : Datapath :=
  ⟨⟨0, 0, 0, 0⟩, ⟨0, 0, 0, 0, 0, 0, 0⟩, ⟨0, 0, 0, 0, 0, 0, 0⟩, 0, 0⟩

/-- An engine after reset: `idle`, nothing written (R350). -/
def Engine.reset : Engine := ⟨ArgFile.reset, WrittenBits.reset, .idle, Datapath.reset⟩

/-- The machine right after power-on on a platform: every engine reset, nothing in memory, no program loaded,
no fault recorded (R350, R312). -/
def State.resetWith (p : Platform) : State where
  platform := p
  engines := List.replicate p.nEngines Engine.reset
  mem := []
  unseen := []
  threads := []
  sched := []
  faults := []
  port := ⟨0, 0, 0⟩
  draws := 0

/-- The machine right after reset, on the reference platform (log 2). -/
def State.reset : State := State.resetWith Platform.reference

end Sys2Proof.Machine
end

