-- ==== Sys2Proof/Machine/Ops.lean ====
section
/-! DEFINITION. The named operations over memory, engines and threads, and taking a fault. -/

namespace Sys2Proof.Machine

/-! ### Memory (20_memory.md R60, R62) -/

/-- The byte at an address. -/
def Memory.read : Memory → Nat → Byte
  | [], _ => Memory.unlisted
  | c :: m, a => if c.1 = a then c.2 else Memory.read m a

/-- `byte[a] <- b`, keeping the canonical form. -/
def Memory.write : Memory → Nat → Byte → Memory
  | [], a, b => if b = Memory.unlisted then [] else [(a, b)]
  | c :: m, a, b =>
    if a < c.1 then
      if b = Memory.unlisted then c :: m else (a, b) :: c :: m
    else if a = c.1 then
      if b = Memory.unlisted then m else (a, b) :: m
    else c :: Memory.write m a b

/-- `MemRead(a, n)`: the sum of `byte[a+i] · 2^(8i)` for i < n (R62). -/
def Memory.readLE (m : Memory) : Nat → Nat → Nat
  | _, 0 => 0
  | a, n + 1 => (Memory.read m a).toNat + 256 * Memory.readLE m (a + 1) n

/-- `MemWrite(a, n, v)`: `byte[a+i] <- v[8i+7 : 8i]` for i < n (R62). -/
def Memory.writeLE (m : Memory) : Nat → Nat → Nat → Memory
  | _, 0, _ => m
  | a, n + 1, v => Memory.writeLE (Memory.write m a (BitVec.ofNat 8 v)) (a + 1) n (v / 256)

/-! ### Engines and threads -/

/-- Engine `e`, if the platform has it (60_exceptions.md R332). -/
def State.engine? (s : State) (e : Nat) : Option Engine := s.engines[e]?

/-- Change engine `e`. -/
def State.modifyEngine (s : State) (e : Nat) (f : Engine → Engine) : State :=
  { s with engines := s.engines.modify e f }

/-- Change host thread `t`. -/
def State.modifyThread (s : State) (t : Nat) (f : Thread → Thread) : State :=
  { s with threads := s.threads.modify t f }

/-- The thread goes on to its next operation (30_encoding.md R113). -/
def Thread.advance (th : Thread) : Thread := { th with pos := th.pos + 1, status := .ready }

/-- The host thread `t` completes its operation (R80, R113). -/
def State.advance (s : State) (t : Nat) : State := s.modifyThread t Thread.advance

/-! ### What a host thread sees (20_memory.md R82, R83) -/

/-- Whether an unseen write is one of thread `t` at byte `a`. -/
def Unseen.isAt (t a : Nat) (u : Unseen) : Bool := decide (u.thread = t) && decide (u.addr = a)

/-- Whether an unseen write is one of the `n` bytes at `a`. -/
def Unseen.within (a n : Nat) (u : Unseen) : Bool := decide (a ≤ u.addr) && decide (u.addr < a + n)

/-- The byte that thread `t` sees at address `a`: what memory held before the oldest command write there that it does
not see, or memory's own (R83). -/
def State.byteSeen (s : State) (t a : Nat) : Byte :=
  match s.unseen.find? (Unseen.isAt t a) with
  | some u => u.old
  | none => s.mem.read a

/-- The `n` bytes that thread `t` sees at `a`, little-endian (R62, R113). -/
def State.readSeen (s : State) (t : Nat) : Nat → Nat → Nat
  | _, 0 => 0
  | a, n + 1 => (s.byteSeen t a).toNat + 256 * s.readSeen t (a + 1) n

/-- Thread `t` comes to see its `k` oldest unseen writes of byte `a`. -/
def seeOldest (t a : Nat) : Nat → List Unseen → List Unseen
  | 0, l => l
  | k + 1, l => seeOldest t a k (l.eraseP (Unseen.isAt t a))

/-- Thread `t` looks at `n` bytes from `a` on: `HOST_MM` says how many more writes it sees of each (R83, log 15). -/
def lookAt (t look : Nat) : Nat → Nat → List Unseen → List Unseen
  | _, 0, l => l
  | a, n + 1, l => lookAt t look (a + 1) n (seeOldest t a (Config.hostMM t a look) l)

/-- The state once thread `t` has looked at `n` bytes from `a` on. Where it sees every write already, nothing changes. -/
def State.look (s : State) (t a n : Nat) : State :=
  if s.unseen.any fun u => decide (u.thread = t) && u.within a n then
    { s with unseen := lookAt t s.draws a n s.unseen, draws := s.draws + 1 }
  else s

/-- The unseen writes once a command of thread `t` has written `n` bytes at `a` over memory `m`: thread `t` sees them
(R82), each of the other threads does not yet (R83). -/
def hideWrite (m : Memory) (t threads a n : Nat) (l : List Unseen) : List Unseen :=
  l.filter (fun u => !(decide (u.thread = t) && u.within a n)) ++
    ((List.range threads).filter fun k => decide (k ≠ t)).flatMap fun k =>
      (List.range n).map fun j => ⟨k, a + j, m.read (a + j)⟩

/-! ### Taking a fault (60_exceptions.md R310 to R313, R322) -/

/-- The number of a fault code (R313). -/
def CommandFault.code : CommandFault → Nat
  | .illegalCommand _ => 1
  | .tierUnavailable _ => 2
  | .uninitArg _ => 3
  | .badGeometry _ _ => 4
  | .badStride _ _ => 5
  | .misaligned _ => 6
  | .addressOverflow _ => 7
  | .outputOverlap _ => 8
  | .accessFault _ => 9
  | .dataRace _ _ => 10
  | .badRegAccess _ _ => 11

/-- The engine state after a fault: `faulted` (R43, R312). A faulted engine stays as it is, since only a reset
leaves `faulted` (R43). A bad register access leaves a busy engine's command unaffected (R321, 95_test_vectors.md
F11c), so the engine keeps running it and holds the fault until it completes (`PendingCommand.after`, log 11). -/
def EngineStatus.afterFault : EngineStatus → CommandFault → EngineStatus
  | .faulted f, _ => .faulted f
  | .busy p, .badRegAccess offset width => .busy { p with fault := p.fault.or (some (.badRegAccess offset width)) }
  | .busy _, f => .faulted f
  | .idle, f => .faulted f

/-- The engine state once a command has completed: `idle`, or `faulted` with the fault that a register operation
raised meanwhile (R43, R312; log 11). -/
def PendingCommand.after (p : PendingCommand) : EngineStatus :=
  match p.fault with
  | none => .idle
  | some f => .faulted f

/-- Taking a fault, the one operation for every code: the fault is recorded with the engine, the access, the
code and its info; the engine moves to `faulted`, a busy one whose command is spared when that completes; no
memory is written (R312, R322). The issuing thread stops (log 9: whether a host goes on is not modelled). The datapath
registers stay as before the command: DESIGN CHOICE, R40 leaves them any value outside a command (log 4). -/
def State.raiseFault (s : State) (e t : Nat) (acc : Access) (f : CommandFault) : State :=
  let recorded := { s with faults := s.faults ++ [(⟨e, t, acc, f⟩ : FaultRecord)] }
  let stopped := recorded.modifyThread t fun th => { th with status := .stopped }
  stopped.modifyEngine e fun g => { g with status := g.status.afterFault f }

/-! ### Reset (70_reset_and_hazards.md R350, R351) -/

/-- Whether an engine is busy (R43). -/
def Engine.isBusy (g : Engine) : Bool :=
  match g.status with
  | .busy _ => true
  | _ => false

/-- Reset: every engine as R350 says; memory and the recorded faults unchanged; refused while an engine is
busy (R351). It is the only way out of `faulted` (R323). -/
def State.resetEngines (s : State) : Host.Outcome State Fault Refusal :=
  if s.engines.any Engine.isBusy then .refused .resetWhileBusy
  else .next { s with engines := s.engines.map fun _ => Engine.reset }

end Sys2Proof.Machine
end

