-- ==== Sys2Proof/Machine/Operands.lean ====
section
/-! DEFINITION. Operands: the register map, the argument registers of a command, sample addresses, samples,
footprints (10_state.md R31, 20_memory.md R63 to R69, 30_encoding.md R103, R106, R111). -/

namespace Sys2Proof.Machine

/-! ### The register map (R31, R111) -/

/-- The byte offset of a register in its engine's window (R31). -/
def regOffset : Reg → Nat
  | .cmd => 0x00
  | .caps => 0x04
  | .arg .width => 0x08
  | .arg .height => 0x0C
  | .arg .out => 0x10
  | .arg .src1 => 0x18
  | .arg .stride1 => 0x20
  | .arg .src2 => 0x28
  | .arg .stride2 => 0x30

/-- The width of a register in bytes (R31). -/
def regWidth : Reg → Nat
  | .cmd => 4
  | .caps => 4
  | .arg .width => 4
  | .arg .height => 4
  | .arg .out => 8
  | .arg .src1 => 8
  | .arg .stride1 => 8
  | .arg .src2 => 8
  | .arg .stride2 => 8

/-- Every register (R31). -/
def allRegs : List Reg :=
  [.cmd, .caps, .arg .width, .arg .height, .arg .out, .arg .src1, .arg .stride1, .arg .src2, .arg .stride2]

/-- The register that an access of `width` bytes at `offset` reaches: only the whole register, at its own
offset, by its own width (R44). -/
def regAt (offset width : Nat) : Option Reg :=
  allRegs.find? fun r => regOffset r = offset && regWidth r = width

/-- The value of an argument register, zero-extended to 64 bits (R31). -/
def ArgFile.get (x : ArgFile) : ArgReg → DWord
  | .out => x.out
  | .src1 => x.src1
  | .stride1 => x.stride1
  | .src2 => x.src2
  | .stride2 => x.stride2
  | .width => x.width.setWidth 64
  | .height => x.height.setWidth 64

/-- `x[REG] <- v`; a 32-bit register takes the low 32 bits (R112, R113). Every bit is writable (R32 to R35). -/
def ArgFile.set (x : ArgFile) (v : DWord) : ArgReg → ArgFile
  | .out => { x with out := v }
  | .src1 => { x with src1 := v }
  | .stride1 => { x with stride1 := v }
  | .src2 => { x with src2 := v }
  | .stride2 => { x with stride2 := v }
  | .width => { x with width := v.setWidth 32 }
  | .height => { x with height := v.setWidth 32 }

/-- The `written` bit of an argument register (R42). -/
def WrittenBits.get (x : WrittenBits) : ArgReg → Bool
  | .out => x.out
  | .src1 => x.src1
  | .stride1 => x.stride1
  | .src2 => x.src2
  | .stride2 => x.stride2
  | .width => x.width
  | .height => x.height

/-- Set the `written` bit of an argument register (R42). -/
def WrittenBits.mark (x : WrittenBits) : ArgReg → WrittenBits
  | .out => { x with out := true }
  | .src1 => { x with src1 := true }
  | .stride1 => { x with stride1 := true }
  | .src2 => { x with src2 := true }
  | .stride2 => { x with stride2 := true }
  | .width => { x with width := true }
  | .height => { x with height := true }

/-- A host write of an argument register: the value, and its `written` bit (R42, R45). -/
def Engine.writeArg (g : Engine) (r : ArgReg) (v : DWord) : Engine :=
  { g with args := g.args.set v r, written := g.written.mark r }

/-! ### The operands of a command (R103, R106) -/

/-- The argument registers a command reads, in the order in which they are checked (R103, R320). -/
def argRegs : Planes → List ArgReg
  | .one => [.out, .src1, .stride1, .width, .height]
  | .two => [.out, .src1, .stride1, .src2, .stride2, .width, .height]

/-- The decoded operands of a command (R106). -/
structure Args where
  out : Nat
  src1 : Nat
  stride1 : Int
  src2 : Nat
  stride2 : Int
  width : Nat
  height : Nat
deriving DecidableEq, Repr

/-- Addresses are unsigned, strides signed, dimensions unsigned (R106). A single-plane command does not read
SRC2 and STRIDE2 (R34, R103): they count as 0. -/
def commandArgs (P : Planes) (x : ArgFile) : Args where
  out := x.out.toNat
  src1 := x.src1.toNat
  stride1 := x.stride1.toInt
  src2 := if P = .two then x.src2.toNat else 0
  stride2 := if P = .two then x.stride2.toInt else 0
  width := x.width.toNat
  height := x.height.toNat

/-- `sz`, the sample size in bytes (R130). -/
def sampleSize : Format → Nat
  | .u8 => 1
  | .u16 => 2
  | .f32 => 4

/-- `W`, the register width of a vector tier (R9); tier SC has none. -/
def tierWidth : Tier → Option Nat
  | .sc => none
  | .v128 => some 128
  | .v256 => some 256

/-- `L(fmt, W) = W / (8 × sz)` (R10). -/
def laneCount (fmt : Format) (W : Nat) : Nat := W / (8 * sampleSize fmt)

/-- `ceil_div(a, b)` (R12). -/
def ceilDiv (a b : Nat) : Nat := (a + b - 1) / b

/-- The bytes that a row of a plane occupies in the read footprint (R66). -/
def rowBytes (tier : Tier) (fmt : Format) (width : Nat) : Nat :=
  match tierWidth tier with
  | none => width * sampleSize fmt
  | some W => ceilDiv width (laneCount fmt W) * laneCount fmt W * sampleSize fmt

/-- `addr(base, stride, r, 0)` on unbounded integers (R65). -/
def rowStart (base : Nat) (stride : Int) (r : Nat) : Int := (base : Int) + (r : Int) * stride

/-- The same as an address; the start checks leave only row starts inside the address space (R65, R135). -/
def rowAddr (base : Nat) (stride : Int) (r : Nat) : Nat := (rowStart base stride r).toNat

/-- A sample, zero-extended to 32 bits: U8, U16, or the encoding of a binary32 (R63). -/
def sample (fmt : Format) (m : Memory) (a : Nat) : Word := BitVec.ofNat 32 (m.readLE a (sampleSize fmt))

/-- The sample sequence `S_p` of a plane, row by row (R131). -/
def sampleSeq (fmt : Format) (m : Memory) (base : Nat) (stride : Int) (width height : Nat) : List Word :=
  (List.range height).flatMap fun r =>
    (List.range width).map fun c => sample fmt m (rowAddr base stride r + c * sampleSize fmt)

/-- `S_1` of a command. -/
def Args.samples1 (x : Args) (fmt : Format) (m : Memory) : List Word :=
  sampleSeq fmt m x.src1 x.stride1 x.width x.height

/-- `S_2` of a command. -/
def Args.samples2 (x : Args) (fmt : Format) (m : Memory) : List Word :=
  sampleSeq fmt m x.src2 x.stride2 x.width x.height

/-! ### Footprints (R66, R69) -/

/-- The bytes a command reads of one plane: `rows` rows of `bytes` bytes (R66). -/
structure PlaneRows where
  base : Nat
  stride : Int
  rows : Nat
  bytes : Nat
deriving DecidableEq, Repr

/-- The bytes a command reads and the range `[out, out + outBytes)` that it writes (R66, R69). -/
structure Footprint where
  planes : List PlaneRows
  out : Nat
  outBytes : Nat
deriving DecidableEq, Repr

/-- Whether a byte belongs to row `r` (R66). -/
def PlaneRows.inRow (p : PlaneRows) (r a : Nat) : Bool :=
  decide (rowStart p.base p.stride r ≤ (a : Int)) && decide ((a : Int) < rowStart p.base p.stride r + (p.bytes : Int))

/-- Whether a byte belongs to the read footprint on one plane (R66). -/
def PlaneRows.covers (p : PlaneRows) (a : Nat) : Bool := (List.range p.rows).any fun r => p.inRow r a

/-- Whether a byte belongs to the read footprint (R66). -/
def Footprint.reads (f : Footprint) (a : Nat) : Bool := f.planes.any fun p => p.covers a

/-- Whether a byte belongs to the write footprint (R69). -/
def Footprint.writes (f : Footprint) (a : Nat) : Bool := decide (f.out ≤ a) && decide (a < f.out + f.outBytes)

/-- The planes a command reads (R66, R103). -/
def planeRows (i : Instr) (x : Args) : List PlaneRows :=
  let bytes := rowBytes i.tier i.format x.width
  match i.planes with
  | .one => [⟨x.src1, x.stride1, x.height, bytes⟩]
  | .two => [⟨x.src1, x.stride1, x.height, bytes⟩, ⟨x.src2, x.stride2, x.height, bytes⟩]

/-- The bytes of the record a command writes: 16, or 24 with diffSum (R69). -/
def recordBytes : Planes → Nat
  | .one => 16
  | .two => 24

/-- The footprint of a command with the given argument registers (R66, R69). -/
def footprint (i : Instr) (x : ArgFile) : Footprint :=
  let y := commandArgs i.planes x
  ⟨planeRows i y, y.out, recordBytes i.planes⟩

/-- The lowest of `n` addresses from `a` on that has a property. -/
def firstAddr (p : Nat → Bool) (a : Nat) : Nat → Option Nat
  | 0 => none
  | n + 1 => if p a then some a else firstAddr p (a + 1) n

/-- The lowest byte of rows `r`, `r + 1`, … of a plane that has a property; the rows of a legal plane rise. -/
def PlaneRows.firstFrom (q : PlaneRows) (p : Nat → Bool) (r : Nat) : Nat → Option Nat
  | 0 => none
  | n + 1 =>
    match firstAddr p (rowAddr q.base q.stride r) q.bytes with
    | some a => some a
    | none => PlaneRows.firstFrom q p (r + 1) n

/-- The lowest byte of the read footprint on one plane that has a property. -/
def PlaneRows.first (q : PlaneRows) (p : Nat → Bool) : Option Nat := q.firstFrom p 0 q.rows

/-- The lower of two addresses that may be absent. -/
def lowest : Option Nat → Option Nat → Option Nat
  | none, b => b
  | a, none => a
  | some a, some b => some (min a b)

end Sys2Proof.Machine
end

