-- ==== Sys2Proof/Machine/ScalarWalk.lean ====
section
/-! DEFINITION. The scalar walk, tier SC (41_scalar_kernels.md R130, R136, R137), and the result every tier
hands to WRITE_RESULT. -/

namespace Sys2Proof.Machine

/-- What a walk returns: min, max, sum, diffSum as the record holds them (R139, R71). -/
structure KernelResult where
  mn : Word
  mx : Word
  sm : DWord
  df : DWord
deriving DecidableEq, Repr

/-- The min seed: MAXV of the format, or +inf (R130, R136). -/
def minSeed : Format → Word
  | .u8 => 255
  | .u16 => 65535
  | .f32 => posInf32

/-- The max seed: 0, or -inf (R136). -/
def maxSeed : Format → Word
  | .u8 => 0
  | .u16 => 0
  | .f32 => negInf32

/-- `|a - b|` of unsigned samples (R132, R137). -/
def absDiff32 (a b : Word) : Word := if a < b then b - a else a - b

/-- The running minimum after a sample (R137). -/
def scMin (fmt : Format) (acc a : Word) : Word :=
  match fmt with
  | .f32 => fminUpd acc a
  | _ => if a < acc then a else acc

/-- The running maximum after a sample (R137). -/
def scMax (fmt : Format) (acc a : Word) : Word :=
  match fmt with
  | .f32 => fmaxUpd acc a
  | _ => if acc < a then a else acc

/-- The running sum after a sample (R137). -/
def scSum (fmt : Format) (acc : DWord) (a : Word) : DWord :=
  match fmt with
  | .f32 => addF64 acc (f32ToF64 a)
  | _ => acc + a.setWidth 64

/-- The running diffSum after a pair of corresponding samples (R137). -/
def scDiff (fmt : Format) (acc : DWord) (a b : Word) : DWord :=
  match fmt with
  | .f32 => addF64 acc (f32ToF64 (absF32 (subF32 a b)))
  | _ => acc + (absDiff32 a b).setWidth 64

/-- The seeds of the scalar accumulators; 0 is also +0.0 (R136). -/
def scSeed (fmt : Format) : ScalarRegs := ⟨minSeed fmt, maxSeed fmt, 0, 0⟩

/-- One sample step of SC_WALK at row `r`, column `c` (R137). -/
def scStep (fmt : Format) (P : Planes) (m : Memory) (x : Args) (r : Nat) (acc : ScalarRegs) (c : Nat) :
    ScalarRegs :=
  let a := sample fmt m (rowAddr x.src1 x.stride1 r + c * sampleSize fmt)
  { smin := scMin fmt acc.smin a
    smax := scMax fmt acc.smax a
    ssum := scSum fmt acc.ssum a
    sdiff :=
      match P with
      | .one => acc.sdiff
      | .two => scDiff fmt acc.sdiff a (sample fmt m (rowAddr x.src2 x.stride2 r + c * sampleSize fmt)) }

/-- `SC_WALK(fmt, P)` (R137). -/
def scWalk (fmt : Format) (P : Planes) (m : Memory) (x : Args) : ScalarRegs :=
  (List.range x.height).foldl
    (fun acc r => (List.range x.width).foldl (scStep fmt P m x r) acc) (scSeed fmt)

/-- The SC walk with the datapath registers it leaves: the scalar accumulators, and the last row and column
(R40; between commands they are unobservable, log 4). -/
def scKernel (fmt : Format) (P : Planes) (m : Memory) (x : Args) (d : Datapath) : Datapath × KernelResult :=
  let acc := scWalk fmt P m x
  ({ d with sc := acc, r := BitVec.ofNat 32 (x.height - 1), k := BitVec.ofNat 32 (x.width - 1) },
    ⟨acc.smin, acc.smax, acc.ssum, acc.sdiff⟩)

end Sys2Proof.Machine
end

