-- ==== Sys2Proof/Machine/VectorWalk.lean ====
section
/-! DEFINITION. The vector datapath of tiers V128 and V256 (42_vector_common.md R170 to R188), parameterised by
the register width `W`. A register is written here as the list of its lanes, lane 0 first (R11); `packLanes`
and `lanesOf` go between lanes and register bits. -/

namespace Sys2Proof.Machine

/-! ### Lanes (R11, R170 to R173) -/

/-- The `n` lanes of `w` bits of a register value (R11). -/
def lanesOf {W : Nat} (w n : Nat) (v : BitVec W) : List (BitVec w) :=
  (List.range n).map fun j => v.extractLsb' (j * w) w

/-- The register bits of lanes of `w` bits (R11). -/
def packLanes (W : Nat) {w : Nat} (v : List (BitVec w)) : BitVec W :=
  BitVec.ofNat W (v.foldr (fun l acc => l.toNat + 2 ^ w * acc) 0)

/-- A chunk: one read of `W/8` bytes, as `n` lanes of `w` bits (R172). -/
def loadChunk (W w n : Nat) (m : Memory) (a : Nat) : List (BitVec w) :=
  lanesOf w n (BitVec.ofNat W (m.readLE a (W / 8)))

/-- IDX(fmt, W): lane j holds the number j (10_state.md R41). -/
def idxLanes (w n : Nat) : List (BitVec w) := (List.range n).map fun j => BitVec.ofNat w j

/-- The lane mask of chunk `k` of a row of `width` samples: all ones for a full chunk, IDX below the
remainder for the tail (R173). -/
def laneMask (w n width k : Nat) : List Bool :=
  if k < width / n then List.replicate n true
  else (idxLanes w n).map fun j => decide (j.toNat < width % n)

/-- `sel(M, X, N)` (R175). -/
def sel {α : Type} (M : List Bool) (X : List α) (N : α) : List α :=
  List.zipWith (fun b x => if b then x else N) M X

/-! ### The lane arithmetic -/

/-- `bias(v) = (v - 0x8000) mod 2^16` (R177). -/
def bias (v : BitVec 16) : BitVec 16 := v - 0x8000
/-- `unbias(s) = (s + 0x8000) mod 2^16` (R177). -/
def unbias (s : BitVec 16) : BitVec 16 := s + 0x8000

/-- `|a - b|` of bytes (R182). -/
def absDiffU8 (a b : BitVec 8) : BitVec 8 := if a < b then b - a else a - b

/-- SAD8W: each of the `D` result lanes sums the 8 bytes beneath it (R181). -/
def sad8w (D : Nat) (X : List (BitVec 8)) : List DWord :=
  (List.range D).map fun g => ((X.drop (8 * g)).take 8).foldl (fun s b => s + b.setWidth 64) 0

/-- SAD8: the sums of absolute differences of the 8 bytes beneath each lane (R182). -/
def sad8 (D : Nat) (X Y : List (BitVec 8)) : List DWord := sad8w D (List.zipWith absDiffU8 X Y)

/-- The two byte lanes of a word lane, low byte first (R11, R181). -/
def bytesOfLane (v : BitVec 16) : List (BitVec 8) := [v.extractLsb' 0 8, v.extractLsb' 8 8]

/-- LO(X): the low byte sub-lane, high byte cleared (R184). -/
def loLane (v : BitVec 16) : BitVec 16 := v &&& 0x00FF
/-- HI(X): the high byte moved to the low sub-lane (R184). -/
def hiLane (v : BitVec 16) : BitVec 16 := v >>> 8

/-- SPLITSUM (R184). -/
def splitSum (D : Nat) (X : List (BitVec 16)) : List DWord :=
  List.zipWith (fun (lo hi : DWord) => lo + (hi <<< (8 : Nat)))
    (sad8w D ((X.map loLane).flatMap bytesOfLane)) (sad8w D ((X.map hiLane).flatMap bytesOfLane))

/-- `satsub_u16` (R185). -/
def satsubU16 (a b : BitVec 16) : BitVec 16 := if b ≤ a then a - b else 0

/-- The U16 absolute difference: two saturating subtractions and an OR (R185). -/
def absDiffU16 (a b : BitVec 16) : BitVec 16 := satsubU16 a b ||| satsubU16 b a

/-- `|a - b|` of binary32 lanes, rounded to binary32 (R187). -/
def absDiffF32 (a b : F32) : F32 := absF32 (subF32 a b)

/-- Lane-wise `+_64` of two accumulator vectors (R183, R184). -/
def addLanes (V X : List DWord) : List DWord := List.zipWith (fun v x => v + x) V X

/-- One half of WIDEN_ADD: the lanes widened and added to the accumulator lanes (R186). -/
def widenAddHalf (V : List F64) (X : List F32) : List F64 := List.zipWith (fun v x => addF64 v (f32ToF64 x)) V X

/-- WIDEN_ADD: the low half of the lanes, then the high half (R186). -/
def widenAdd (V : List F64) (X : List F32) : List F64 :=
  widenAddHalf (widenAddHalf V (X.take V.length)) (X.drop V.length)

/-! ### The walk (R178, R180) -/

/-- The vector registers of one command, as lanes (R40). -/
structure VecAcc (w : Nat) where
  vmin : List (BitVec w)
  vmax : List (BitVec w)
  vsum : List DWord
  vdiff : List DWord
  a : List (BitVec w)
  b : List (BitVec w)
  m : List Bool
deriving DecidableEq, Repr

/-- The accumulators at the start of the walk (R178). -/
def vecSeed {w : Nat} (n D : Nat) (nmin nmax : BitVec w) : VecAcc w where
  vmin := List.replicate n nmin
  vmax := List.replicate n nmax
  vsum := List.replicate D 0
  vdiff := List.replicate D 0
  a := []
  b := []
  m := []

/-- The row and chunk loops of VEC_WALK (R180). -/
def vecLoop {α : Type} (step : Nat → α → Nat → α) (rows chunks : Nat) (seed : α) : α :=
  (List.range rows).foldl (fun acc r => (List.range chunks).foldl (step r) acc) seed

/-- The address of chunk `k` of a row of plane 1 (R172). -/
def Args.chunk1 (x : Args) (fmt : Format) (n r k : Nat) : Nat :=
  rowAddr x.src1 x.stride1 r + k * n * sampleSize fmt

/-- The address of chunk `k` of a row of plane 2 (R172). -/
def Args.chunk2 (x : Args) (fmt : Format) (n r k : Nat) : Nat :=
  rowAddr x.src2 x.stride2 r + k * n * sampleSize fmt

/-- One chunk of a U8 command (R175, R179, R183). -/
def chunkU8 (W : Nat) (P : Planes) (m : Memory) (x : Args) (r : Nat) (acc : VecAcc 8) (k : Nat) : VecAcc 8 :=
  let n := laneCount .u8 W
  let A := loadChunk W 8 n m (x.chunk1 .u8 n r k)
  let B := loadChunk W 8 n m (x.chunk2 .u8 n r k)
  let M := laneMask 8 n x.width k
  { vmin := List.zipWith minU8 acc.vmin (sel M A 0xFF)
    vmax := List.zipWith maxU8 acc.vmax (sel M A 0x00)
    vsum := addLanes acc.vsum (sad8w (W / 64) (sel M A 0))
    vdiff :=
      match P with
      | .one => acc.vdiff
      | .two => addLanes acc.vdiff (sad8 (W / 64) (sel M A 0) (sel M B 0))
    a := A
    b :=
      match P with
      | .one => acc.b
      | .two => B
    m := M }

/-- Whether a tier lacks a native unsigned 16-bit compare and takes the bias: V128 (R177, R226, R256). -/
def biasedTier (W : Nat) : Bool := W = 128

/-- The U16 lane domain of a tier: biased or not (R175, R177). -/
def toLaneU16 (W : Nat) (v : BitVec 16) : BitVec 16 := if biasedTier W then bias v else v
/-- Back from the lane domain (R177, R188). -/
def ofLaneU16 (W : Nat) (v : BitVec 16) : BitVec 16 := if biasedTier W then unbias v else v
/-- NMIN of U16: 0x7FFF biased, 0xFFFF not (R174). -/
def nminU16 (W : Nat) : BitVec 16 := if biasedTier W then 0x7FFF else 0xFFFF
/-- NMAX of U16: 0x8000 biased, 0x0000 not (R174). -/
def nmaxU16 (W : Nat) : BitVec 16 := if biasedTier W then 0x8000 else 0x0000
/-- The lane-wise minimum of U16: `min_i16` biased, `min_u16` not (R179). -/
def laneMinU16 (W : Nat) (a b : BitVec 16) : BitVec 16 := if biasedTier W then minI16 a b else minU16 a b
/-- The lane-wise maximum of U16 (R179). -/
def laneMaxU16 (W : Nat) (a b : BitVec 16) : BitVec 16 := if biasedTier W then maxI16 a b else maxU16 a b

/-- One chunk of a U16 command (R175, R177, R179, R184, R185). -/
def chunkU16 (W : Nat) (P : Planes) (m : Memory) (x : Args) (r : Nat) (acc : VecAcc 16) (k : Nat) : VecAcc 16 :=
  let n := laneCount .u16 W
  let A := loadChunk W 16 n m (x.chunk1 .u16 n r k)
  let B := loadChunk W 16 n m (x.chunk2 .u16 n r k)
  let M := laneMask 16 n x.width k
  { vmin := List.zipWith (laneMinU16 W) acc.vmin (sel M (A.map (toLaneU16 W)) (nminU16 W))
    vmax := List.zipWith (laneMaxU16 W) acc.vmax (sel M (A.map (toLaneU16 W)) (nmaxU16 W))
    vsum := addLanes acc.vsum (splitSum (W / 64) (sel M A 0))
    vdiff :=
      match P with
      | .one => acc.vdiff
      | .two => addLanes acc.vdiff (splitSum (W / 64) (sel M (List.zipWith absDiffU16 A B) 0))
    a := A
    b :=
      match P with
      | .one => acc.b
      | .two => B
    m := M }

/-- One chunk of an F32 command (R175, R179, R186, R187). -/
def chunkF32 (W : Nat) (P : Planes) (m : Memory) (x : Args) (r : Nat) (acc : VecAcc 32) (k : Nat) : VecAcc 32 :=
  let n := laneCount .f32 W
  let A := loadChunk W 32 n m (x.chunk1 .f32 n r k)
  let B := loadChunk W 32 n m (x.chunk2 .f32 n r k)
  let M := laneMask 32 n x.width k
  { vmin := List.zipWith fminUpd acc.vmin (sel M A posInf32)
    vmax := List.zipWith fmaxUpd acc.vmax (sel M A negInf32)
    vsum := widenAdd acc.vsum (sel M A 0)
    vdiff :=
      match P with
      | .one => acc.vdiff
      | .two => widenAdd acc.vdiff (sel M (List.zipWith absDiffF32 A B) 0)
    a := A
    b :=
      match P with
      | .one => acc.b
      | .two => B
    m := M }

/-- The number of chunks of a row (R171). -/
def chunksPerRow (fmt : Format) (W width : Nat) : Nat := ceilDiv width (laneCount fmt W)

/-- VEC_WALK(U8, P, W) before FINAL (R180). -/
def walkU8 (W : Nat) (P : Planes) (m : Memory) (x : Args) : VecAcc 8 :=
  vecLoop (chunkU8 W P m x) x.height (chunksPerRow .u8 W x.width)
    (vecSeed (laneCount .u8 W) (W / 64) 0xFF 0x00)

/-- VEC_WALK(U16, P, W) before FINAL (R180). -/
def walkU16 (W : Nat) (P : Planes) (m : Memory) (x : Args) : VecAcc 16 :=
  vecLoop (chunkU16 W P m x) x.height (chunksPerRow .u16 W x.width)
    (vecSeed (laneCount .u16 W) (W / 64) (nminU16 W) (nmaxU16 W))

/-- VEC_WALK(F32, P, W) before FINAL (R180). -/
def walkF32 (W : Nat) (P : Planes) (m : Memory) (x : Args) : VecAcc 32 :=
  vecLoop (chunkF32 W P m x) x.height (chunksPerRow .f32 W x.width)
    (vecSeed (laneCount .f32 W) (W / 64) posInf32 negInf32)

/-! ### FINAL (R188) -/

/-- FINAL of a U8 command (R188). -/
def finalU8 (v : VecAcc 8) : KernelResult :=
  ⟨(hminU8 v.vmin).setWidth 32, (hmaxU8 v.vmax).setWidth 32, hsumU64 v.vsum, hsumU64 v.vdiff⟩

/-- FINAL of a U16 command: un-biased at V128 (R188). -/
def finalU16 (W : Nat) (v : VecAcc 16) : KernelResult :=
  let hmin := if biasedTier W then hminI16 v.vmin else hminU16 v.vmin
  let hmax := if biasedTier W then hmaxI16 v.vmax else hmaxU16 v.vmax
  ⟨(ofLaneU16 W hmin).setWidth 32, (ofLaneU16 W hmax).setWidth 32, hsumU64 v.vsum, hsumU64 v.vdiff⟩

/-- FINAL of an F32 command (R188). -/
def finalF32 (v : VecAcc 32) : KernelResult :=
  ⟨hminF32 v.vmin, hmaxF32 v.vmax, hsumF64 v.vsum, hsumF64 v.vdiff⟩

/-- The result of VEC_WALK(fmt, P, W) (R180, R188). -/
def vecResult (fmt : Format) (W : Nat) (P : Planes) (m : Memory) (x : Args) : KernelResult :=
  match fmt with
  | .u8 => finalU8 (walkU8 W P m x)
  | .u16 => finalU16 W (walkU16 W P m x)
  | .f32 => finalF32 (walkF32 W P m x)

/-! ### The registers a walk leaves (R40) -/

/-- The vector registers after a walk. VDIFF and B are touched by two-plane commands only (R178, R180). -/
def VecAcc.store {w : Nat} (v : VecAcc w) (W : Nat) (P : Planes) (d : VectorRegs W) : VectorRegs W where
  vmin := packLanes W v.vmin
  vmax := packLanes W v.vmax
  vsum := packLanes W v.vsum
  vdiff :=
    match P with
    | .one => d.vdiff
    | .two => packLanes W v.vdiff
  a := packLanes W v.a
  b :=
    match P with
    | .one => d.b
    | .two => packLanes W v.b
  m := packLanes (W / 8) (v.m.map fun b => BitVec.ofBool b)

/-- The vector registers after VEC_WALK(fmt, P, W). -/
def vecRegs (fmt : Format) (W : Nat) (P : Planes) (m : Memory) (x : Args) (d : VectorRegs W) : VectorRegs W :=
  match fmt with
  | .u8 => (walkU8 W P m x).store W P d
  | .u16 => (walkU16 W P m x).store W P d
  | .f32 => (walkF32 W P m x).store W P d

/-- A V128 command's walk: the registers it leaves and its result (R180, R226). -/
def v128Kernel (fmt : Format) (P : Planes) (m : Memory) (x : Args) (d : Datapath) : Datapath × KernelResult :=
  ({ d with
      v128 := vecRegs fmt 128 P m x d.v128
      r := BitVec.ofNat 32 (x.height - 1)
      k := BitVec.ofNat 32 (chunksPerRow fmt 128 x.width - 1) },
    vecResult fmt 128 P m x)

/-- A V256 command's walk: the registers it leaves and its result (R180, R256). -/
def v256Kernel (fmt : Format) (P : Planes) (m : Memory) (x : Args) (d : Datapath) : Datapath × KernelResult :=
  ({ d with
      v256 := vecRegs fmt 256 P m x d.v256
      r := BitVec.ofNat 32 (x.height - 1)
      k := BitVec.ofNat 32 (chunksPerRow fmt 256 x.width - 1) },
    vecResult fmt 256 P m x)

end Sys2Proof.Machine
end

