-- ==== Sys2Proof/Machine/Kernels.lean ====
section
/-! DEFINITION. The walk of each of the 18 commands (R140 to R145, R220 to R225, R250 to R255), one definition
each over the shared walks, and the table of them. -/

namespace Sys2Proof.Machine

/-- The walk of PSTAT1.U8.SC (R140). -/
def walkPstat1U8Sc (m : Memory) (x : Args) (d : Datapath) : Datapath × KernelResult :=
  scKernel .u8 .one m x d

/-- The walk of PSTAT1.U16.SC (R141). -/
def walkPstat1U16Sc (m : Memory) (x : Args) (d : Datapath) : Datapath × KernelResult :=
  scKernel .u16 .one m x d

/-- The walk of PSTAT1.F32.SC (R142). -/
def walkPstat1F32Sc (m : Memory) (x : Args) (d : Datapath) : Datapath × KernelResult :=
  scKernel .f32 .one m x d

/-- The walk of PSTAT2.U8.SC (R143). -/
def walkPstat2U8Sc (m : Memory) (x : Args) (d : Datapath) : Datapath × KernelResult :=
  scKernel .u8 .two m x d

/-- The walk of PSTAT2.U16.SC (R144). -/
def walkPstat2U16Sc (m : Memory) (x : Args) (d : Datapath) : Datapath × KernelResult :=
  scKernel .u16 .two m x d

/-- The walk of PSTAT2.F32.SC (R145). -/
def walkPstat2F32Sc (m : Memory) (x : Args) (d : Datapath) : Datapath × KernelResult :=
  scKernel .f32 .two m x d

/-- The walk of PSTAT1.U8.V128 (R220). -/
def walkPstat1U8V128 (m : Memory) (x : Args) (d : Datapath) : Datapath × KernelResult :=
  v128Kernel .u8 .one m x d

/-- The walk of PSTAT1.U16.V128 (R221). -/
def walkPstat1U16V128 (m : Memory) (x : Args) (d : Datapath) : Datapath × KernelResult :=
  v128Kernel .u16 .one m x d

/-- The walk of PSTAT1.F32.V128 (R222). -/
def walkPstat1F32V128 (m : Memory) (x : Args) (d : Datapath) : Datapath × KernelResult :=
  v128Kernel .f32 .one m x d

/-- The walk of PSTAT2.U8.V128 (R223). -/
def walkPstat2U8V128 (m : Memory) (x : Args) (d : Datapath) : Datapath × KernelResult :=
  v128Kernel .u8 .two m x d

/-- The walk of PSTAT2.U16.V128 (R224). -/
def walkPstat2U16V128 (m : Memory) (x : Args) (d : Datapath) : Datapath × KernelResult :=
  v128Kernel .u16 .two m x d

/-- The walk of PSTAT2.F32.V128 (R225). -/
def walkPstat2F32V128 (m : Memory) (x : Args) (d : Datapath) : Datapath × KernelResult :=
  v128Kernel .f32 .two m x d

/-- The walk of PSTAT1.U8.V256 (R250). -/
def walkPstat1U8V256 (m : Memory) (x : Args) (d : Datapath) : Datapath × KernelResult :=
  v256Kernel .u8 .one m x d

/-- The walk of PSTAT1.U16.V256 (R251). -/
def walkPstat1U16V256 (m : Memory) (x : Args) (d : Datapath) : Datapath × KernelResult :=
  v256Kernel .u16 .one m x d

/-- The walk of PSTAT1.F32.V256 (R252). -/
def walkPstat1F32V256 (m : Memory) (x : Args) (d : Datapath) : Datapath × KernelResult :=
  v256Kernel .f32 .one m x d

/-- The walk of PSTAT2.U8.V256 (R253). -/
def walkPstat2U8V256 (m : Memory) (x : Args) (d : Datapath) : Datapath × KernelResult :=
  v256Kernel .u8 .two m x d

/-- The walk of PSTAT2.U16.V256 (R254). -/
def walkPstat2U16V256 (m : Memory) (x : Args) (d : Datapath) : Datapath × KernelResult :=
  v256Kernel .u16 .two m x d

/-- The walk of PSTAT2.F32.V256 (R255). -/
def walkPstat2F32V256 (m : Memory) (x : Args) (d : Datapath) : Datapath × KernelResult :=
  v256Kernel .f32 .two m x d

/-- The walk of a command: the datapath registers it leaves and its result. -/
def kernelOf (i : Instr) (m : Memory) (x : Args) (d : Datapath) : Datapath × KernelResult :=
  match i with
  | .pstat1U8Sc => walkPstat1U8Sc m x d
  | .pstat1U16Sc => walkPstat1U16Sc m x d
  | .pstat1F32Sc => walkPstat1F32Sc m x d
  | .pstat2U8Sc => walkPstat2U8Sc m x d
  | .pstat2U16Sc => walkPstat2U16Sc m x d
  | .pstat2F32Sc => walkPstat2F32Sc m x d
  | .pstat1U8V128 => walkPstat1U8V128 m x d
  | .pstat1U16V128 => walkPstat1U16V128 m x d
  | .pstat1F32V128 => walkPstat1F32V128 m x d
  | .pstat2U8V128 => walkPstat2U8V128 m x d
  | .pstat2U16V128 => walkPstat2U16V128 m x d
  | .pstat2F32V128 => walkPstat2F32V128 m x d
  | .pstat1U8V256 => walkPstat1U8V256 m x d
  | .pstat1U16V256 => walkPstat1U16V256 m x d
  | .pstat1F32V256 => walkPstat1F32V256 m x d
  | .pstat2U8V256 => walkPstat2U8V256 m x d
  | .pstat2U16V256 => walkPstat2U16V256 m x d
  | .pstat2F32V256 => walkPstat2F32V256 m x d

end Sys2Proof.Machine
end

