-- ==== Sys2Proof/Machine/Flags.lean ====
section
/-! DEFINITION. The bit fields that software sees. The engine has no flags, condition codes or status register
(10_state.md R39); its only bit field is CAPS (R36). Also the two views of admitted memory (R68, R69). -/

namespace Sys2Proof.Machine

/-- CAPS: bit 0 is 1, bit 1 HAS_T128, bit 2 HAS_T256, bits 31:3 are 0 (R36). -/
def capsValue (p : Platform) : Word := 1 ||| (if p.hasT128 then 2 else 0) ||| (if p.hasT256 then 4 else 0)

/-- The CAPS bit of a tier (R36). -/
def capsBit : Tier → Nat
  | .sc => 0
  | .v128 => 1
  | .v256 => 2

/-- Whether the engine implements a tier: its CAPS bit is 1 (R36, R104). -/
def tierPresent (p : Platform) (t : Tier) : Bool := (capsValue p).getLsbD (capsBit t)

/-- Whether an address lies in a list of ranges. -/
def inRanges (rs : List AddrRange) (a : Nat) : Bool := rs.any fun r => decide (r.lo ≤ a) && decide (a < r.hi)

/-- Whether an address lies in any engine's register window (R61). -/
def inWindow (p : Platform) (a : Nat) : Bool :=
  p.engineBase.any fun b => decide (b ≤ a) && decide (a < b + 64)

/-- Admitted readable memory, never a register window (R61, R68). -/
def readable (p : Platform) (a : Nat) : Bool := inRanges p.admitR a && !inWindow p a

/-- Admitted writable memory, never a register window (R61, R69). -/
def writable (p : Platform) (a : Nat) : Bool := inRanges p.admitW a && !inWindow p a

end Sys2Proof.Machine
end

