-- ==== Sys2Proof/Machine/Start.lean ====
section
/-! DEFINITION. The checks of START (41_scalar_kernels.md R135) in their order, and the race rule
(20_memory.md R84). -/

namespace Sys2Proof.Machine

/-- The tier's CAPS bit is 0: TIER_UNAVAILABLE (R104). -/
def checkTier (p : Platform) (i : Instr) (w : Word) : Option CommandFault :=
  if tierPresent p i.tier then none else some (.tierUnavailable w)

/-- A register the command reads was never written: UNINIT_ARG, in the order of R320 (R42). -/
def checkWritten (g : Engine) (i : Instr) : Option CommandFault :=
  ((argRegs i.planes).find? fun r => !g.written.get r).map .uninitArg

/-- WIDTH = 0 or HEIGHT = 0: BAD_GEOMETRY (R134). -/
def checkGeometry (x : Args) : Option CommandFault :=
  if x.width = 0 ∨ x.height = 0 then some (.badGeometry x.width x.height) else none

/-- `STRIDE_p < WIDTH × sz` as signed: BAD_STRIDE, plane 1 before plane 2 (R134, R320). -/
def checkStride (i : Instr) (x : Args) : Option CommandFault :=
  let need : Int := (x.width * sampleSize i.format : Nat)
  if x.stride1 < need then some (.badStride 1 x.stride1)
  else if i.planes = .two ∧ x.stride2 < need then some (.badStride 2 x.stride2)
  else none

/-- SRC_p or STRIDE_p no multiple of `sz`, or OUT no multiple of 8: MISALIGNED, plane 1, plane 2, OUT (R64,
R320). -/
def checkAligned (i : Instr) (x : Args) : Option CommandFault :=
  let sz := sampleSize i.format
  if x.src1 % sz ≠ 0 then some (.misaligned .src1)
  else if x.stride1 % (sz : Int) ≠ 0 then some (.misaligned .stride1)
  else if i.planes = .two ∧ x.src2 % sz ≠ 0 then some (.misaligned .src2)
  else if i.planes = .two ∧ x.stride2 % (sz : Int) ≠ 0 then some (.misaligned .stride2)
  else if x.out % 8 ≠ 0 then some (.misaligned .out)
  else none

/-- Whether a plane has a byte outside 0 .. 2^64-1. It is computed only for a legal geometry (R320), whose
strides are positive, so the last row reaches highest (R65). -/
def PlaneRows.overflows (p : PlaneRows) : Bool :=
  decide ((addressSpace : Int) < rowStart p.base p.stride (p.rows - 1) + (p.bytes : Int))

/-- A footprint byte outside 0 .. 2^64-1: ADDRESS_OVERFLOW, plane 1, plane 2, OUT (R65; order: log 12). -/
def checkRange (i : Instr) (x : Args) : Option CommandFault :=
  let bytes := rowBytes i.tier i.format x.width
  if (PlaneRows.mk x.src1 x.stride1 x.height bytes).overflows then some (.addressOverflow .src1)
  else if i.planes = .two ∧ (PlaneRows.mk x.src2 x.stride2 x.height bytes).overflows = true then
    some (.addressOverflow .src2)
  else if addressSpace < x.out + recordBytes i.planes then some (.addressOverflow .out)
  else none

/-- The write footprint meets the read footprint: OUTPUT_OVERLAP with the lowest shared address (R72, R313). -/
def checkOverlap (f : Footprint) : Option CommandFault :=
  (firstAddr f.reads f.out f.outBytes).map .outputOverlap

/-- A footprint byte is not admitted or lies in a register window: ACCESS_FAULT with the lowest such address of
both footprints (R61, R68, R69; log 12). -/
def checkAccess (p : Platform) (f : Footprint) : Option CommandFault :=
  let reads := f.planes.foldl (fun acc q => lowest acc (q.first fun a => !readable p a)) none
  (lowest reads (firstAddr (fun a => !writable p a) f.out f.outBytes)).map .accessFault

/-- The first check of START that fails, in the order of R135 and R320. The word is already decoded. -/
def startFault (p : Platform) (g : Engine) (i : Instr) (w : Word) : Option CommandFault :=
  let x := commandArgs i.planes g.args
  let f := footprint i g.args
  (checkTier p i w).or <| (checkWritten g i).or <| (checkGeometry x).or <| (checkStride i x).or <|
    (checkAligned i x).or <| (checkRange i x).or <| (checkOverlap f).or (checkAccess p f)

/-! ### The race rule (R84) -/

/-- The lowest byte on which two commands conflict: one writes it and the other reads or writes it (R84). That
DATA_RACE records the lowest one is a DESIGN CHOICE: R313 says only `address` (log 25). -/
def Footprint.conflict (f h : Footprint) : Option Nat :=
  lowest (firstAddr (fun a => f.reads a || f.writes a) h.out h.outBytes)
    (firstAddr h.reads f.out f.outBytes)

/-- The footprint of the command an engine has open, if any (R43). -/
def Engine.openFootprint (g : Engine) : Option Footprint :=
  match g.status with
  | .busy p => some (footprint p.instr g.args)
  | _ => none

/-- The open commands of other engines that conflict with a footprint: engine number, thread and word of the
open command, lowest conflicting address (R84). Engines are numbered from `e`. -/
def conflictsFrom (own : Nat) (f : Footprint) : Nat → List Engine → List (Nat × PendingCommand × Nat)
  | _, [] => []
  | e, g :: gs =>
    let rest := conflictsFrom own f (e + 1) gs
    if e = own then rest
    else
      match g.status with
      | .busy p =>
        match (footprint p.instr g.args).conflict f with
        | some a => (e, p, a) :: rest
        | none => rest
      | _ => rest

/-- The open commands that a host thread's access to `n` bytes at `a` races with: a write to a byte they read,
a read or write of a byte they write, each with the lowest such byte (R84; the lowest: DESIGN CHOICE, R313 says only
`address`, log 25). The thread that opened a command performs nothing before it completes (R80), so it never races
with its own. -/
def hostRaces (write : Bool) (a n : Nat) : Nat → List Engine → List (Nat × PendingCommand × Nat)
  | _, [] => []
  | e, g :: gs =>
    let rest := hostRaces write a n (e + 1) gs
    match g.status with
    | .busy p =>
      let f := footprint p.instr g.args
      match firstAddr (fun b => f.writes b || (write && f.reads b)) a n with
      | some b => (e, p, b) :: rest
      | none => rest
    | _ => rest

/-- DATA_RACE faults every open command in a list, each against the agent that made the access (R84). -/
def State.raiseRaces (s : State) (other : Agent) : List (Nat × PendingCommand × Nat) → State
  | [] => s
  | (e, p, a) :: rest => (s.raiseFault e p.thread (.command p.word) (.dataRace other a)).raiseRaces other rest

end Sys2Proof.Machine
end

