-- ==== Sys2Proof/Machine/Command.lean ====
section
/-! DEFINITION. A command from its CMD write to its completion (41_scalar_kernels.md R135, R139; 20_memory.md
R80 to R85; 10_state.md R37, R43). -/

namespace Sys2Proof.Machine

/-! ### WRITE_RESULT (R139, R70, R71) -/

/-- The inputs that NAN_RESULT may depend on: the command, the argument registers it reads, its samples
(R9, R146). -/
def commandInputs (i : Instr) (m : Memory) (x : Args) : CommandInputs where
  instr := i
  out := x.out
  src1 := x.src1
  stride1 := x.stride1
  src2 := x.src2
  stride2 := x.stride2
  width := x.width
  height := x.height
  samples1 := x.samples1 i.format m
  samples2 :=
    match i.planes with
    | .one => []
    | .two => x.samples2 i.format m

/-- NAN_RESULT: some binary64 NaN, a function of the command's inputs alone (R9, R139). Every NaN encoding is
the image of some payload. -/
def nanResult (inp : CommandInputs) : F64 :=
  let payload := Config.nanPayload inp
  let fraction := payload.setWidth 52
  (payload.extractLsb' 52 1 ++ (0x7FF : BitVec 11)) ++ (if fraction = 0 then (1 : BitVec 52) else fraction)

/-- The 64 bits written for a sum or diffSum: a NaN becomes NAN_RESULT (R139). -/
def sumBits (fmt : Format) (inp : CommandInputs) (v : DWord) : DWord :=
  match fmt with
  | .f32 => if isNaN64 v then nanResult inp else v
  | _ => v

/-- `WRITE_RESULT(fmt, P, mn, mx, sm, df)`: a single-plane command writes no byte of OUT+16 .. OUT+23 (R139). -/
def writeResult (i : Instr) (inp : CommandInputs) (m : Memory) (out : Nat) (res : KernelResult) : Memory :=
  let m1 := m.writeLE out 4 res.mn.toNat
  let m2 := m1.writeLE (out + 4) 4 res.mx.toNat
  let m3 := m2.writeLE (out + 8) 8 (sumBits i.format inp res.sm).toNat
  match i.planes with
  | .one => m3
  | .two => m3.writeLE (out + 16) 8 (sumBits i.format inp res.df).toNat

/-! ### The interval of a command (R80) -/

/-- A CMD write needs an idle engine: on a busy one it is BAD_REG_ACCESS (R44, R333), on a faulted one the
machine is stuck until a reset (U7 of 93_implementation_defined.md, log 10). -/
def onIdleEngine (s : State) (k : Engine → Host.Outcome State Fault Refusal) : Host.Outcome State Fault Refusal :=
  match s.engine? s.port.engine with
  | none => .refused (.noSuchEngine s.port.engine)
  | some g =>
    match g.status with
    | .idle => k g
    | .busy _ =>
      .next (s.raiseFault s.port.engine s.port.thread (.command s.port.word) (.badRegAccess 0 4))
    | .faulted _ => .fault (.engineStuck s.port.engine)

/-- The interval begins: the engine is busy with the command, and the issuing thread waits for it (R43, R80). The
datapath registers keep their values from before the command until it completes: DESIGN CHOICE, nothing can see them in
between (R40, log 4). -/
def State.openCommand (s : State) (i : Instr) : State :=
  (s.modifyEngine s.port.engine fun g => { g with status := .busy ⟨i, s.port.word, s.port.thread, none⟩ }).modifyThread
    s.port.thread fun th => { th with status := .waiting s.port.engine }

/-- A CMD write of a valid word: START's checks, then the race rule against the open commands, then the
interval begins (R135, R84). Two conflicting commands both race (log 13). Where several open commands conflict, the new
command records the lowest-numbered engine among them and the lowest byte of that conflict: DESIGN CHOICE, R313
says only `the other agent and address` (log 25). -/
def startCommand (i : Instr) (s : State) (started : State → Host.Outcome State Fault Refusal) :
    Host.Outcome State Fault Refusal :=
  onIdleEngine s fun g =>
    match startFault s.platform g i s.port.word with
    | some f => .next (s.raiseFault s.port.engine s.port.thread (.command s.port.word) f)
    | none =>
      match conflictsFrom s.port.engine (footprint i g.args) 0 s.engines with
      | [] => started (s.openCommand i)
      | (e, p, a) :: rest =>
        .next ((s.raiseRaces (.engine s.port.engine) ((e, p, a) :: rest)).raiseFault s.port.engine s.port.thread
          (.command s.port.word) (.dataRace (.engine e) a))

/-- The interval of engine `e`'s open command ends: its walk reads memory, the record is written and seen by the issuing
thread, by the others when `HOST_MM` says (R83), the engine is idle again (or faulted, `PendingCommand.after`), the
issuing thread goes on (R80, R82, R85, R139). Nothing happens on an engine with no open command. -/
def finishCommand (e : Nat) (s : State) : State :=
  match s.engine? e with
  | none => s
  | some g =>
    match g.status with
    | .busy p =>
      let x := commandArgs p.instr.planes g.args
      let out := kernelOf p.instr s.mem x g.datapath
      let written := { s with
        mem := writeResult p.instr (commandInputs p.instr s.mem x) s.mem x.out out.2
        unseen := hideWrite s.mem p.thread s.threads.length x.out (recordBytes p.instr.planes) s.unseen }
      (written.modifyEngine e fun g => { g with status := p.after, datapath := out.1 }).advance p.thread
    | _ => s

/-- A CMD write run to completion as one atomic step (R85): the interval begins and ends. -/
def runCommand (i : Instr) (s : State) : Host.Outcome State Fault Refusal :=
  startCommand i s fun s1 => .next (finishCommand s.port.engine s1)

/-- A CMD write of a word that is not valid: ILLEGAL_COMMAND, no memory touched (R101, R107). -/
def illegalCommand (s : State) : Host.Outcome State Fault Refusal :=
  onIdleEngine s fun _ =>
    .next (s.raiseFault s.port.engine s.port.thread (.command s.port.word) (.illegalCommand s.port.word))

end Sys2Proof.Machine
end

