-- ==== Sys2Proof/Machine/Scalar.lean ====
section
/-! DEFINITION. The six commands of tier SC (41_scalar_kernels.md R140 to R145). -/

namespace Sys2Proof.Machine

/-- PSTAT1.U8.SC: single-plane statistics of 8-bit unsigned samples (R140). -/
def execPstat1U8Sc (s : State) : Host.Outcome State Fault Refusal := runCommand .pstat1U8Sc s

/-- PSTAT1.U16.SC: single-plane statistics of 16-bit unsigned samples (R141). -/
def execPstat1U16Sc (s : State) : Host.Outcome State Fault Refusal := runCommand .pstat1U16Sc s

/-- PSTAT1.F32.SC: single-plane statistics of binary32 samples (R142). -/
def execPstat1F32Sc (s : State) : Host.Outcome State Fault Refusal := runCommand .pstat1F32Sc s

/-- PSTAT2.U8.SC: two-plane statistics of 8-bit unsigned samples (R143). -/
def execPstat2U8Sc (s : State) : Host.Outcome State Fault Refusal := runCommand .pstat2U8Sc s

/-- PSTAT2.U16.SC: two-plane statistics of 16-bit unsigned samples (R144). -/
def execPstat2U16Sc (s : State) : Host.Outcome State Fault Refusal := runCommand .pstat2U16Sc s

/-- PSTAT2.F32.SC: two-plane statistics of binary32 samples (R145). -/
def execPstat2F32Sc (s : State) : Host.Outcome State Fault Refusal := runCommand .pstat2F32Sc s

end Sys2Proof.Machine
end

