-- ==== Sys2Proof/Machine/Vector128.lean ====
section
/-! DEFINITION. The six commands of tier V128 (43_vector128_kernels.md R220 to R225). -/

namespace Sys2Proof.Machine

/-- PSTAT1.U8.V128: single-plane statistics of 8-bit unsigned samples (R220). -/
def execPstat1U8V128 (s : State) : Host.Outcome State Fault Refusal := runCommand .pstat1U8V128 s

/-- PSTAT1.U16.V128: single-plane statistics of 16-bit unsigned samples (R221). -/
def execPstat1U16V128 (s : State) : Host.Outcome State Fault Refusal := runCommand .pstat1U16V128 s

/-- PSTAT1.F32.V128: single-plane statistics of binary32 samples (R222). -/
def execPstat1F32V128 (s : State) : Host.Outcome State Fault Refusal := runCommand .pstat1F32V128 s

/-- PSTAT2.U8.V128: two-plane statistics of 8-bit unsigned samples (R223). -/
def execPstat2U8V128 (s : State) : Host.Outcome State Fault Refusal := runCommand .pstat2U8V128 s

/-- PSTAT2.U16.V128: two-plane statistics of 16-bit unsigned samples (R224). -/
def execPstat2U16V128 (s : State) : Host.Outcome State Fault Refusal := runCommand .pstat2U16V128 s

/-- PSTAT2.F32.V128: two-plane statistics of binary32 samples (R225). -/
def execPstat2F32V128 (s : State) : Host.Outcome State Fault Refusal := runCommand .pstat2F32V128 s

end Sys2Proof.Machine
end

