-- ==== Sys2Proof/Machine/Vector256.lean ====
section
/-! DEFINITION. The six commands of tier V256 (44_vector256_kernels.md R250 to R255). -/

namespace Sys2Proof.Machine

/-- PSTAT1.U8.V256: single-plane statistics of 8-bit unsigned samples (R250). -/
def execPstat1U8V256 (s : State) : Host.Outcome State Fault Refusal := runCommand .pstat1U8V256 s

/-- PSTAT1.U16.V256: single-plane statistics of 16-bit unsigned samples (R251). -/
def execPstat1U16V256 (s : State) : Host.Outcome State Fault Refusal := runCommand .pstat1U16V256 s

/-- PSTAT1.F32.V256: single-plane statistics of binary32 samples (R252). -/
def execPstat1F32V256 (s : State) : Host.Outcome State Fault Refusal := runCommand .pstat1F32V256 s

/-- PSTAT2.U8.V256: two-plane statistics of 8-bit unsigned samples (R253). -/
def execPstat2U8V256 (s : State) : Host.Outcome State Fault Refusal := runCommand .pstat2U8V256 s

/-- PSTAT2.U16.V256: two-plane statistics of 16-bit unsigned samples (R254). -/
def execPstat2U16V256 (s : State) : Host.Outcome State Fault Refusal := runCommand .pstat2U16V256 s

/-- PSTAT2.F32.V256: two-plane statistics of binary32 samples (R255). -/
def execPstat2F32V256 (s : State) : Host.Outcome State Fault Refusal := runCommand .pstat2F32V256 s

end Sys2Proof.Machine
end

