-- ==== Sys2Proof/Machine/Dispatch.lean ====
section
/-! DEFINITION. The meaning of every command, one arm per constructor. -/

namespace Sys2Proof.Machine

def exec (i : Instr) (s : State) : Host.Outcome State Fault Refusal :=
  match i with
  | .pstat1U8Sc => Sys2Proof.Machine.execPstat1U8Sc s
  | .pstat1U16Sc => Sys2Proof.Machine.execPstat1U16Sc s
  | .pstat1F32Sc => Sys2Proof.Machine.execPstat1F32Sc s
  | .pstat2U8Sc => Sys2Proof.Machine.execPstat2U8Sc s
  | .pstat2U16Sc => Sys2Proof.Machine.execPstat2U16Sc s
  | .pstat2F32Sc => Sys2Proof.Machine.execPstat2F32Sc s
  | .pstat1U8V128 => Sys2Proof.Machine.execPstat1U8V128 s
  | .pstat1U16V128 => Sys2Proof.Machine.execPstat1U16V128 s
  | .pstat1F32V128 => Sys2Proof.Machine.execPstat1F32V128 s
  | .pstat2U8V128 => Sys2Proof.Machine.execPstat2U8V128 s
  | .pstat2U16V128 => Sys2Proof.Machine.execPstat2U16V128 s
  | .pstat2F32V128 => Sys2Proof.Machine.execPstat2F32V128 s
  | .pstat1U8V256 => Sys2Proof.Machine.execPstat1U8V256 s
  | .pstat1U16V256 => Sys2Proof.Machine.execPstat1U16V256 s
  | .pstat1F32V256 => Sys2Proof.Machine.execPstat1F32V256 s
  | .pstat2U8V256 => Sys2Proof.Machine.execPstat2U8V256 s
  | .pstat2U16V256 => Sys2Proof.Machine.execPstat2U16V256 s
  | .pstat2F32V256 => Sys2Proof.Machine.execPstat2F32V256 s

end Sys2Proof.Machine
end

