-- ==== Sys2Proof/Machine/HostOps.lean ====
section
/-! DEFINITION. The host's operations and what moves next (30_encoding.md R112, R113; 10_state.md R36, R37,
R44, R45; 20_memory.md R80 to R84; 70_reset_and_hazards.md R350, R351). -/

namespace Sys2Proof.Machine

/-! ### Host expressions (R113) -/

/-- The value of a host variable; one never assigned holds a free value (log 17). -/
def readVar (vars : List (Nat × Int)) (t : Nat) : Int :=
  match vars.find? fun c => c.1 = t with
  | some c => c.2
  | none => Config.hostInitial t

/-- Assign a host variable. -/
def writeVar (vars : List (Nat × Int)) (t : Nat) (v : Int) : List (Nat × Int) :=
  (t, v) :: vars.filter fun c => c.1 ≠ t

/-- A binary operator on unbounded integers. Where R113 states no result (a division by 0 or of negative
numbers, a bitwise operation or a shift of negative numbers or by a negative count) it is a free value
(log 17). -/
def evalBin (op : BinOp) (a b : Int) : Int :=
  let exact := fun f : Nat → Nat → Nat =>
    if 0 ≤ a ∧ 0 ≤ b then (f a.toNat b.toNat : Int) else Config.hostUnstated op a b
  match op with
  | .add => a + b
  | .sub => a - b
  | .mul => a * b
  | .div => if b = 0 then Config.hostUnstated op a b else exact fun x y => x / y
  | .mod => if b = 0 then Config.hostUnstated op a b else exact fun x y => x % y
  | .band => exact fun x y => x &&& y
  | .bor => exact fun x y => x ||| y
  | .bxor => exact fun x y => x ^^^ y
  | .shl => exact fun x y => x <<< y
  | .shr => exact fun x y => x >>> y

/-- The value of a host expression (R113). `t[i]` is bit i. -/
def evalExpr (vars : List (Nat × Int)) : Expr → Int
  | .lit n => n
  | .var t => readVar vars t
  | .bin op a b => evalBin op (evalExpr vars a) (evalExpr vars b)
  | .bit a i => evalBin .mod (evalBin .shr (evalExpr vars a) i) 2

/-- A host condition (R113). -/
def evalCond (vars : List (Nat × Int)) (c : Cond) : Bool :=
  let a := evalExpr vars c.lhs
  let b := evalExpr vars c.rhs
  match c.op with
  | .eq => a = b
  | .ne => a ≠ b
  | .lt => a < b
  | .le => a ≤ b
  | .gt => b < a
  | .ge => b ≤ a

/-- The value of an `n`-byte transaction: reduced modulo 2^(8n) (R113). -/
def transactionValue (n : Nat) (v : Int) : Nat := (v % (2 ^ (8 * n) : Nat)).toNat

/-- The bytes of a host memory access (R113). -/
def memSizeBytes : MemSize → Nat
  | .b1 => 1
  | .b2 => 2
  | .b4 => 4
  | .b8 => 8

/-! ### The names of R111 and R112 -/

/-- `wr.w REG, v` and `wr.d REG, v`: a write of the register at its offset by its width (R112). -/
def wrReg (engine : Nat) (r : Reg) (v : Expr) : HostOp := .wr engine (regOffset r) (regWidth r) v

/-- `rd.w t, REG` and `rd.d t, REG` (R112). -/
def rdReg (t engine : Nat) (r : Reg) : HostOp := .rd t engine (regOffset r) (regWidth r)

/-- `cmd w`: a 4-byte write at offset 0 (R110, R112). -/
def cmdWord (engine : Nat) (w : Expr) : HostOp := wrReg engine .cmd w

/-- `cmd m` for a mnemonic (R110). -/
def cmdInstr (engine : Nat) (i : Instr) : HostOp := cmdWord engine (.lit (encode i).toNat)

/-! ### Register operations (R36, R37, R44, R45, R112) -/

/-- A register access of thread `t` that the engine admits: the register it reaches. A reserved offset, another
width, or a busy engine is BAD_REG_ACCESS, reported at this operation (R44, R321, R333). -/
def onRegister (s : State) (t e : Nat) (acc : Access) (offset width : Nat)
    (k : Engine → Reg → Host.Outcome State Fault Refusal) : Host.Outcome State Fault Refusal :=
  match s.engine? e with
  | none => .refused (.noSuchEngine e)
  | some g =>
    match regAt offset width with
    | none => .next (s.raiseFault e t acc (.badRegAccess offset width))
    | some r =>
      if g.isBusy then .next (s.raiseFault e t acc (.badRegAccess offset width)) else k g r

/-- The CMD write that `exec` performs. -/
def State.atPort (s : State) (t e : Nat) (w : Word) : State := { s with port := ⟨t, e, w⟩ }

/-- A write of a word to CMD: the command it encodes runs, as one step or opening its interval only
(R37, R80, R85, R101). -/
def writeCmd (atomic : Bool) (s : State) : Host.Outcome State Fault Refusal :=
  match decode s.port.word with
  | .error _ => illegalCommand s
  | .ok i => if atomic then exec i s else startCommand i s .next

/-- A register write of thread `t`: CMD starts a command (R37), CAPS ignores it (R36), an argument register takes
the value and becomes written (R42, R45). -/
def writeRegister (atomic : Bool) (s : State) (t e offset width : Nat) (v : Int) :
    Host.Outcome State Fault Refusal :=
  onRegister s t e (.regWrite offset width) offset width fun _ r =>
    match r with
    | .cmd => writeCmd atomic (s.atPort t e (BitVec.ofNat 32 (transactionValue 4 v)))
    | .caps => .next (s.advance t)
    | .arg a =>
      .next ((s.modifyEngine e fun g => g.writeArg a (BitVec.ofNat 64 (transactionValue width v))).advance t)

/-- Assign a host variable and go on. -/
def State.assign (s : State) (t var : Nat) (v : Int) : State :=
  (s.modifyThread t fun th => { th with vars := writeVar th.vars var v }).advance t

/-- A register read of thread `t` into a host variable: CMD reads 0 (R37), CAPS its value (R36), an argument
register the value last written, or a free value when nothing was written since reset (R45, log 6). -/
def readRegister (s : State) (t var e offset width : Nat) : Host.Outcome State Fault Refusal :=
  onRegister s t e (.regRead offset width) offset width fun g r =>
    match r with
    | .cmd => .next (s.assign t var 0)
    | .caps => .next (s.assign t var (capsValue s.platform).toNat)
    | .arg a =>
      if g.written.get a then .next (s.assign t var (g.args.get a).toNat)
      else
        let drawn := { s with draws := s.draws + 1 }
        .next (drawn.assign t var ((Config.drawRegister s.draws).toNat % 2 ^ (8 * width) : Nat))

/-! ### Memory operations (R113, R61, R84) -/

/-- A host access to `n` bytes: inside the address space, and no register window (R60, R61, log 18). -/
def onHostBytes (s : State) (addr : Int) (n : Nat) (k : Nat → Host.Outcome State Fault Refusal) :
    Host.Outcome State Fault Refusal :=
  if addr < 0 ∨ (addressSpace : Int) < addr + n then .fault (.addressOutsideSpace addr)
  else
    match firstAddr (inWindow s.platform) addr.toNat n with
    | some a => .refused (.registerWindow a)
    | none => k addr.toNat

/-- `st.<n> addr, v` by thread `t`: the bytes are written, and every open command that this races with faults
(R84, R113). Every thread sees the stored bytes at once: DESIGN CHOICE, `HOST_MM` is about a command's writes only
(log 15). -/
def storeBytes (s : State) (t n : Nat) (addr v : Int) : Host.Outcome State Fault Refusal :=
  onHostBytes s addr n fun a =>
    let raced := s.raiseRaces (.thread t) (hostRaces true a n 0 s.engines)
    .next ({ raced with
      mem := s.mem.writeLE a n (transactionValue n v)
      unseen := s.unseen.filter fun u => !u.within a n }.advance t)

/-- `ld.<n> t, addr` by thread `t`: the variable takes the bytes that the thread sees, which of other threads' commands'
writes being for `HOST_MM` to say (R83), and every open command that this races with faults (R84, R113). -/
def loadBytes (s : State) (t var n : Nat) (addr : Int) : Host.Outcome State Fault Refusal :=
  onHostBytes s addr n fun a =>
    let looked := (s.raiseRaces (.thread t) (hostRaces false a n 0 s.engines)).look t a n
    .next (looked.assign t var (looked.readSeen t a n))

/-! ### One operation, one event -/

/-- One host operation of thread `t` (R112, R113). -/
def hostOp (atomic : Bool) (t : Nat) (vars : List (Nat × Int)) (op : HostOp) (s : State) :
    Host.Outcome State Fault Refusal :=
  match op with
  | .wr e offset width v => writeRegister atomic s t e offset width (evalExpr vars v)
  | .rd var e offset width => readRegister s t var e offset width
  | .st n addr v => storeBytes s t (memSizeBytes n) (evalExpr vars addr) (evalExpr vars v)
  | .ld n var addr => loadBytes s t var (memSizeBytes n) (evalExpr vars addr)
  | .letVar var e => .next (s.assign t var (evalExpr vars e))
  | .ifGoto c target =>
    if evalCond vars c then .next (s.modifyThread t fun th => { th with pos := target })
    else .next (s.advance t)

/-- Thread `t` performs its next operation. A waiting thread performs none (R80), nor does one whose program
has ended (R113); a stopped one is a faulted run (R312). A taken `goto` to an index that names no operation ends the
program: DESIGN CHOICE, R113 does not say (log 27). -/
def runThread (atomic : Bool) (t : Nat) (s : State) : Host.Outcome State Fault Refusal :=
  match s.threads[t]? with
  | none => .refused (.noSuchThread t)
  | some th =>
    match th.status with
    | .waiting _ => .next s
    | .stopped => .fault .runFaulted
    | .ready =>
      match th.program[th.pos]? with
      | none => .next s
      | some op => hostOp atomic t th.vars op s

/-- An event. With nothing to do the machine stays as it is, unless a fault is recorded: then the run is
faulted (R312). -/
def perform (ev : Event) (s : State) : Host.Outcome State Fault Refusal :=
  match ev with
  | .run t => runThread true t s
  | .start t => runThread false t s
  | .finish e => .next (finishCommand e s)
  | .reset => s.resetEngines
  | .idle => if s.faults = [] then .next s else .fault .runFaulted

/-- Whether a thread can perform an operation. -/
def Thread.canRun (th : Thread) : Bool := decide (th.status = .ready) && decide (th.pos < th.program.length)

/-- What moves next: the schedule's first event; with none left, the first busy engine completes (R80: every
command that does not fault completes), else the first thread that can, runs, else nothing (log 14). -/
def nextEvent (s : State) : Event :=
  match s.sched with
  | ev :: _ => ev
  | [] =>
    match s.engines.findIdx? Engine.isBusy with
    | some e => .finish e
    | none =>
      match s.threads.findIdx? Thread.canRun with
      | some t => .run t
      | none => .idle

/-- One step of the machine and its surroundings: the next event, taken off the schedule. -/
def performNext (s : State) : Host.Outcome State Fault Refusal :=
  perform (nextEvent s) { s with sched := s.sched.tail }

/-- Host thread 0 ready to write the word `w` to engine 0's CMD as the next step's one operation. -/
def State.placeCommand (s : State) (w : Nat) : State :=
  let op := cmdWord 0 (.lit w)
  let placed := fun th : Thread => { th with program := [op], pos := 0, status := .ready }
  { s with
    threads :=
      match s.threads with
      | [] => [placed ⟨[], 0, [], .ready⟩]
      | th :: ths => placed th :: ths
    sched := .run 0 :: s.sched.tail }

end Sys2Proof.Machine
end

