-- ==== Sys2Proof/Machine/Pseudo.lean ====
section
/-! DEFINITION. Mnemonics and pseudo-instructions (30_encoding.md R110, R114, R115). -/

namespace Sys2Proof.Machine

/-- The parts of a mnemonic (R110). -/
def formatName : Format → String
  | .u8 => "U8"
  | .u16 => "U16"
  | .f32 => "F32"

/-- See `formatName`. -/
def tierName : Tier → String
  | .sc => "SC"
  | .v128 => "V128"
  | .v256 => "V256"

/-- See `formatName`: `<n>` is 1 or 2. -/
def planesName : Planes → String
  | .one => "PSTAT1"
  | .two => "PSTAT2"

/-- `PSTAT<n>.<fmt>.<tier>` (R110). -/
def mnemonic (i : Instr) : String :=
  planesName i.planes ++ "." ++ formatName i.format ++ "." ++ tierName i.tier

/-- The 18 commands in the order of R105. -/
def allInstrs : List Instr :=
  [Tier.sc, .v128, .v256].flatMap fun t =>
    [Planes.one, .two].flatMap fun p => [Format.u8, .u16, .f32].map fun f => instrOf f p t

/-- The command a mnemonic names; mnemonics are case-insensitive (R110). -/
def instrOfMnemonic (name : List Char) : Option Instr :=
  allInstrs.find? fun i => (mnemonic i).toList = name.map Char.toUpper

/-- The operands of `pstat1` and `pstat2` (R114). -/
structure PstatOperands where
  out : Expr
  src1 : Expr
  stride1 : Expr
  src2 : Expr
  stride2 : Expr
  width : Expr
  height : Expr
deriving DecidableEq, Repr

/-- The register writes of `pstat1` or `pstat2` on engine `e` (R114). -/
def pstatArgs (e : Nat) (P : Planes) (x : PstatOperands) : List HostOp :=
  let second :=
    match P with
    | .one => []
    | .two => [wrReg e (.arg .src2) x.src2, wrReg e (.arg .stride2) x.stride2]
  [wrReg e (.arg .out) x.out, wrReg e (.arg .src1) x.src1, wrReg e (.arg .stride1) x.stride1] ++ second ++
    [wrReg e (.arg .width) x.width, wrReg e (.arg .height) x.height]

/-- `pstat<n>.<fmt>.<tier> …`: the register writes, the `cmd` last (R114). -/
def pstat (e : Nat) (i : Instr) (x : PstatOperands) : List HostOp :=
  pstatArgs e i.planes x ++ [cmdInstr e i]

/-- The dispatcher's tier for a CAPS value: the widest present (R115, D29). -/
def autoTier (caps : Word) : Tier :=
  if caps.getLsbD 2 then .v256 else if caps.getLsbD 1 then .v128 else .sc

/-- `pstat<n>.<fmt>.auto …` placed at position `at0` of a program, with host variables `c` for CAPS and `w` for
the word: the CAPS read, the choice as `if … goto`, then the expansion of R114 (R115, program P3 of
95_test_vectors.md). -/
def pstatAuto (e : Nat) (fmt : Format) (P : Planes) (x : PstatOperands) (at0 c w : Nat) : List HostOp :=
  let word := fun t => Expr.lit (encode (instrOf fmt P t)).toNat
  let bitSet := fun k => Cond.mk .eq (.bit (.var c) k) (.lit 1)
  let always := Cond.mk .eq (.lit 1) (.lit 1)
  [rdReg c e .caps, .ifGoto (bitSet 2) (at0 + 4), .ifGoto (bitSet 1) (at0 + 6), .ifGoto always (at0 + 8),
    .letVar w (word .v256), .ifGoto always (at0 + 9), .letVar w (word .v128), .ifGoto always (at0 + 9),
    .letVar w (word .sc)] ++ pstatArgs e P x ++ [cmdWord e (.var w)]

end Sys2Proof.Machine
end

