-- ==== Sys2Proof/Machine/Step.lean ====
section
/-! DEFINITION. One step of the machine, and the placing of a command for the next step. -/

namespace Sys2Proof.Machine

/-- One step: the next event (R80, R85, R113, R350). -/
def step (s : State) : Host.Outcome State Fault Refusal := Sys2Proof.Machine.performNext s

/-- `s` with a command word where the next step fetches it. The engine fetches no instructions (10_state.md R38):
the command stream is the host's CMD writes, so the word becomes the one operation of host thread 0, on
engine 0, and that thread is next (log 16). -/
def State.withFetchWord (s : State) (nbits w : Nat) : State := s.placeCommand (w % 2 ^ nbits)

end Sys2Proof.Machine
end

