-- ==== Sys2Proof/Safety.lean ====
section
/-! DEFINITION. What counts as a legal command, a race-free one, a fault-free run and a sound state, in the terms
the claims use. Nothing here is used by the machine. -/

namespace Sys2Proof.Machine

/-! ### A legal command (the conditions of R135, stated without the machine's checks) -/

/-- Byte `j` of row `r` of a plane's read footprint (R65, R66). -/
abbrev PlaneRows.byteAt (p : PlaneRows) (r j : Nat) : Int := rowStart p.base p.stride r + (j : Int)

/-- A property of every byte of the read footprint (R66). -/
abbrev Footprint.everyRead (f : Footprint) (P : Int → Prop) : Prop :=
  ∀ p ∈ f.planes, ∀ r, r < p.rows → ∀ j, j < p.bytes → P (p.byteAt r j)

/-- The command's tier is present (R104). -/
abbrev LegalTier (p : Platform) (i : Instr) : Prop := tierPresent p i.tier = true

/-- Every register the command reads was written since reset (R42). -/
abbrev LegalWritten (g : Engine) (i : Instr) : Prop := ∀ r ∈ argRegs i.planes, g.written.get r = true

/-- WIDTH and HEIGHT are at least 1 (R134). -/
abbrev LegalDimensions (g : Engine) (i : Instr) : Prop :=
  1 ≤ (commandArgs i.planes g.args).width ∧ 1 ≤ (commandArgs i.planes g.args).height

/-- `STRIDE_p ≥ WIDTH × sz` as signed, for each plane the command reads (R134). -/
abbrev LegalStrides (g : Engine) (i : Instr) : Prop :=
  let x := commandArgs i.planes g.args
  ((x.width * sampleSize i.format : Nat) : Int) ≤ x.stride1 ∧
    (i.planes = .two → ((x.width * sampleSize i.format : Nat) : Int) ≤ x.stride2)

/-- Bases and strides are multiples of `sz`, OUT of 8 (R64). -/
abbrev LegalAlignment (g : Engine) (i : Instr) : Prop :=
  let x := commandArgs i.planes g.args
  let sz := sampleSize i.format
  x.src1 % sz = 0 ∧ x.stride1 % (sz : Int) = 0 ∧
    (i.planes = .two → x.src2 % sz = 0 ∧ x.stride2 % (sz : Int) = 0) ∧ x.out % 8 = 0

/-- Every footprint byte lies in 0 .. 2^64-1 (R65). -/
abbrev LegalRange (g : Engine) (i : Instr) : Prop :=
  (footprint i g.args).everyRead (fun a => 0 ≤ a ∧ a < (addressSpace : Int)) ∧
    (footprint i g.args).out + (footprint i g.args).outBytes ≤ addressSpace

/-- The write footprint shares no byte with the read footprint (R72). -/
abbrev LegalApart (g : Engine) (i : Instr) : Prop :=
  (footprint i g.args).everyRead fun a =>
    ¬ (((footprint i g.args).out : Int) ≤ a ∧
      a < ((footprint i g.args).out : Int) + ((footprint i g.args).outBytes : Int))

/-- Every footprint byte is admitted memory and in no register window (R61, R68, R69). -/
abbrev LegalAccess (p : Platform) (g : Engine) (i : Instr) : Prop :=
  (footprint i g.args).everyRead (fun a => readable p a.toNat = true) ∧
    ∀ j, j < (footprint i g.args).outBytes → writable p ((footprint i g.args).out + j) = true

/-- The conditions under which a command runs (R135). -/
abbrev LegalStart (p : Platform) (g : Engine) (i : Instr) : Prop :=
  LegalTier p i ∧ LegalWritten g i ∧ LegalDimensions g i ∧ LegalStrides g i ∧ LegalAlignment g i ∧
    LegalRange g i ∧ LegalApart g i ∧ LegalAccess p g i

/-! ### Races (R84) -/

/-- Two footprints share no byte that one of them writes (R84). -/
def Footprint.compatible (f h : Footprint) : Prop :=
  ∀ a, ¬ (f.writes a = true ∧ (h.reads a = true ∨ h.writes a = true)) ∧
    ¬ (h.writes a = true ∧ f.reads a = true)

/-- Byte `a` is one on which two commands conflict: one writes it, the other reads or writes it (R84). -/
def Footprint.conflictsAt (f h : Footprint) (a : Nat) : Prop :=
  (f.writes a = true ∧ (h.reads a = true ∨ h.writes a = true)) ∨ (h.writes a = true ∧ f.reads a = true)

/-- No open command of another engine conflicts with a footprint (R84). -/
def RaceFree (s : State) (e : Nat) (f : Footprint) : Prop :=
  ∀ e' g' h, e' ≠ e → s.engine? e' = some g' → g'.openFootprint = some h → h.compatible f

/-- The CMD write at the port finds engine `g` idle, its command legal and free of races: it runs (R80, R84,
R135). -/
def ReadyToRun (s : State) (i : Instr) (g : Engine) : Prop :=
  s.engine? s.port.engine = some g ∧ g.status = .idle ∧ LegalStart s.platform g i ∧
    RaceFree s s.port.engine (footprint i g.args)

/-! ### The results the rules give, from the sample sequences alone -/

/-- `v` is the least of a non-empty sample sequence (R132). -/
def IsLeast (v : Nat) (S : List Word) : Prop := (∃ a ∈ S, a.toNat = v) ∧ ∀ a ∈ S, v ≤ a.toNat

/-- `v` is the greatest of a non-empty sample sequence (R132). -/
def IsGreatest (v : Nat) (S : List Word) : Prop := (∃ a ∈ S, a.toNat = v) ∧ ∀ a ∈ S, a.toNat ≤ v

/-- SUM of an integer command (R132). -/
def contractSum (S : List Word) : Nat := (S.map BitVec.toNat).sum % 2 ^ 64

/-- DIFF of an integer command (R132). -/
def contractDiff (S1 S2 : List Word) : Nat :=
  (List.zipWith (fun a b : Word => ((a.toNat : Int) - (b.toNat : Int)).natAbs) S1 S2).sum % 2 ^ 64

/-- The left-to-right binary64 sum of widened samples, from +0.0 (R138(c)). -/
def leftSum (S : List F32) : F64 := S.foldl (fun acc a => addF64 acc (f32ToF64 a)) 0

/-- The absolute differences of corresponding samples, rounded to binary32 (R138(c)). -/
def diffSeq (S1 S2 : List F32) : List F32 := List.zipWith (fun a b => absF32 (subF32 a b)) S1 S2

/-- Lane `j` of the masked chunk `k` of row `r`: the sample of column `k·n + j`, or +0.0 past the row's end
(R189). -/
def maskedLane (value : Nat → Nat → F32) (n width r k j : Nat) : F32 :=
  if k * n + j < width then value r (k * n + j) else 0

/-- The terms that f64 lane `i` of a vector sum takes, in order: of each chunk lane `i`, then lane `n/2 + i`
(R189). -/
def laneTerms (value : Nat → Nat → F32) (n width height i : Nat) : List F32 :=
  (List.range height).flatMap fun r => (List.range (ceilDiv width n)).flatMap fun k =>
    [maskedLane value n width r k i, maskedLane value n width r k (n / 2 + i)]

/-- The closed form of a vector float sum (R189). -/
def vectorSum (value : Nat → Nat → F32) (W width height : Nat) : F64 :=
  let v := fun i => leftSum (laneTerms value (laneCount .f32 W) width height i)
  if W = 128 then addF64 (v 0) (v 1) else addF64 (addF64 (v 0) (v 2)) (addF64 (v 1) (v 3))

/-- Sample (r, c) of plane 1 of an F32 command (R131). -/
def sampleAt1 (m : Memory) (x : Args) (r c : Nat) : F32 := sample .f32 m (rowAddr x.src1 x.stride1 r + c * 4)

/-- Sample (r, c) of plane 2 of an F32 command (R131). -/
def sampleAt2 (m : Memory) (x : Args) (r c : Nat) : F32 := sample .f32 m (rowAddr x.src2 x.stride2 r + c * 4)

/-- Two memories hold the same samples of the planes a command reads, over-read bytes excepted (R146). -/
def SameSamples (i : Instr) (x : Args) (m m' : Memory) : Prop :=
  ∀ r, r < x.height → ∀ j, j < x.width * sampleSize i.format →
    m.read (rowAddr x.src1 x.stride1 r + j) = m'.read (rowAddr x.src1 x.stride1 r + j) ∧
    (i.planes = .two →
      m.read (rowAddr x.src2 x.stride2 r + j) = m'.read (rowAddr x.src2 x.stride2 r + j))

/-! ### Taking a fault, as R312 describes it -/

/-- `u` is `s` after a fault of an idle engine: the fault is recorded with the engine, the thread, the access and the
code; the engine is `faulted` and keeps its argument registers (R45); memory and everything else is unchanged, but for
the issuing thread, of which R312 says nothing (R43, R312, R322). That the datapath registers stay too is the model's
choice, no rule's: R40 leaves them any value (log 4). -/
def FaultTaken (s u : State) (e t : Nat) (acc : Access) (f : CommandFault) : Prop :=
  u.mem = s.mem ∧ u.faults = s.faults ++ [(⟨e, t, acc, f⟩ : FaultRecord)] ∧
    u.engines = (s.engines.modify e fun g => { g with status := .faulted f }) ∧
    (∀ k, k ≠ t → u.threads[k]? = s.threads[k]?) ∧
    u.platform = s.platform ∧ u.sched = s.sched ∧ u.draws = s.draws ∧ u.unseen = s.unseen

/-- The CMD write at the port finds engine `g` idle (R43). -/
def IdleAtPort (s : State) (g : Engine) : Prop := s.engine? s.port.engine = some g ∧ g.status = .idle

/-- A command at the port takes fault `f`: the step goes on to a state in which the fault is taken. -/
def TakesFault (i : Instr) (s : State) (f : CommandFault) : Prop :=
  ∃ u, exec i s = .next u ∧ FaultTaken s u s.port.engine s.port.thread (.command s.port.word) f

/-- The register whose own alignment condition of R64 fails. -/
def MisalignedBy (i : Instr) (x : Args) : ArgReg → Prop
  | .src1 => x.src1 % sampleSize i.format ≠ 0
  | .stride1 => x.stride1 % (sampleSize i.format : Int) ≠ 0
  | .src2 => i.planes = .two ∧ x.src2 % sampleSize i.format ≠ 0
  | .stride2 => i.planes = .two ∧ x.stride2 % (sampleSize i.format : Int) ≠ 0
  | .out => x.out % 8 ≠ 0
  | .width => False
  | .height => False

/-- The order of R320 within MISALIGNED: plane 1, plane 2, OUT. -/
def alignmentRank : ArgReg → Nat
  | .src1 | .stride1 => 1
  | .src2 | .stride2 => 2
  | .out => 3
  | .width | .height => 4

/-- A byte of a plane's read footprint lies outside 0 .. 2^64-1 (R65, R66). -/
def PlaneLeavesSpace (base : Nat) (stride : Int) (rows bytes : Nat) : Prop :=
  ∃ r j, r < rows ∧ j < bytes ∧
    ¬ (0 ≤ rowStart base stride r + (j : Int) ∧ rowStart base stride r + (j : Int) < (addressSpace : Int))

/-- The register whose own plane or record has a byte outside 0 .. 2^64-1 (R65, R313). -/
def OverflowedBy (i : Instr) (x : Args) : ArgReg → Prop
  | .src1 => PlaneLeavesSpace x.src1 x.stride1 x.height (rowBytes i.tier i.format x.width)
  | .src2 => i.planes = .two ∧ PlaneLeavesSpace x.src2 x.stride2 x.height (rowBytes i.tier i.format x.width)
  | .out => addressSpace < x.out + recordBytes i.planes
  | .stride1 | .stride2 | .width | .height => False

/-- A footprint byte that is not admitted (R61, R68, R69). -/
def NotAdmitted (p : Platform) (f : Footprint) (a : Nat) : Prop :=
  (f.reads a = true ∧ readable p a = false) ∨ (f.writes a = true ∧ writable p a = false)

/-- A host access to `n` bytes at `a` stays inside the address space and off every register window (R60, R61). -/
def HostAccessible (s : State) (a n : Nat) : Prop :=
  a + n ≤ addressSpace ∧ ∀ b, a ≤ b → b < a + n → inWindow s.platform b = false

/-- Host variable `var` of thread `t` holds `v`. -/
def VarHolds (s : State) (t var : Nat) (v : Int) : Prop :=
  ∃ th, s.threads[t]? = some th ∧ readVar th.vars var = v

/-! ### IEEE addition, as R13 describes it -/

/-- Neither a NaN nor an infinity. -/
def IsFinite (fw ew x : Nat) : Prop := isNaNEnc fw ew x = false ∧ isInfEnc fw ew x = false

/-- `r` is a finite value nearest to `n` units, and the even one of two equally near (R13). -/
def IsNearestEven (fw ew r : Nat) (n : Int) : Prop :=
  IsFinite fw ew r ∧ ∀ c, c < 2 * signBit fw ew → IsFinite fw ew c →
    (valueOf fw ew r - n).natAbs ≤ (valueOf fw ew c - n).natAbs ∧
      ((valueOf fw ew r - n).natAbs = (valueOf fw ew c - n).natAbs → valueOf fw ew c ≠ valueOf fw ew r → r % 2 = 0)

/-- The least magnitude, in units, that rounds to infinity: half a step above the greatest finite value. -/
def overflowBound (fw ew : Nat) : Int := ((2 ^ (fw + 2) - 1) * 2 ^ (2 ^ ew - 4) : Nat)

/-- `r` is the IEEE sum of `x` and `y`, rounded to nearest, ties to even (R13): each kind of operand in turn. -/
structure IsSum (fw ew x y r : Nat) : Prop where
  nan : isNaNEnc fw ew x = true ∨ isNaNEnc fw ew y = true → isNaNEnc fw ew r = true
  oppositeInfinities : isInfEnc fw ew x = true → isInfEnc fw ew y = true → signOf fw ew x ≠ signOf fw ew y →
    isNaNEnc fw ew r = true
  sameInfinities : isInfEnc fw ew x = true → isInfEnc fw ew y = true → signOf fw ew x = signOf fw ew y → r = x
  infinityLeft : isInfEnc fw ew x = true → IsFinite fw ew y → r = x
  infinityRight : IsFinite fw ew x → isInfEnc fw ew y = true → r = y
  zero : IsFinite fw ew x → IsFinite fw ew y → valueOf fw ew x + valueOf fw ew y = 0 →
    r = if x = signBit fw ew ∧ y = signBit fw ew then signBit fw ew else 0
  nearest : IsFinite fw ew x → IsFinite fw ew y →
    -overflowBound fw ew < valueOf fw ew x + valueOf fw ew y →
    valueOf fw ew x + valueOf fw ew y < overflowBound fw ew →
    IsNearestEven fw ew r (valueOf fw ew x + valueOf fw ew y)
  overflow : IsFinite fw ew x → IsFinite fw ew y → overflowBound fw ew ≤ valueOf fw ew x + valueOf fw ew y →
    r = infEnc fw ew
  negativeOverflow : IsFinite fw ew x → IsFinite fw ew y →
    valueOf fw ew x + valueOf fw ew y ≤ -overflowBound fw ew → r = signBit fw ew + infEnc fw ew

/-! ### Sound states and runs -/

/-- Thread `t` performs its next operations one after another, `n` of them (R113). -/
def runThreadTimes (t : Nat) : Nat → State → Host.Outcome State Fault Refusal
  | 0, s => .next s
  | n + 1, s =>
    match runThread true t s with
    | .next u => runThreadTimes t n u
    | stop => stop

/-- The fault an engine state holds: the one it is `faulted` with, or that it will be once it completes (R43,
R312; log 11). -/
def EngineStatus.heldFault : EngineStatus → Option CommandFault
  | .idle => none
  | .busy p => p.fault
  | .faulted f => some f

/-- A run without a recorded fault: what every claim about a run presupposes (R312). -/
def State.faultFree (s : State) : Prop := s.faults = []

/-- A final state of a run: no fault is recorded, no command is open, every program has ended (R312, R113). -/
def State.isFinal (s : State) : Prop :=
  s.faultFree ∧ (∀ g ∈ s.engines, g.isBusy = false) ∧ ∀ th ∈ s.threads, th.program.length ≤ th.pos

/-- What every reachable state satisfies: memory is canonical and inside the address space, and so are the writes that a
thread does not see yet (R60, R83); there are
N_ENGINES engines (R332); every open command passed START's checks, so its operands are still legal (R44,
R135); open commands do not race (R84); every fault that an engine holds is on record (R312). -/
structure State.Inv (s : State) : Prop where
  canonical : s.mem.wf
  inSpace : ∀ c ∈ s.mem, c.1 < addressSpace
  unseenInSpace : ∀ u ∈ s.unseen, u.addr < addressSpace
  engineCount : s.engines.length = s.platform.nEngines
  openLegal : ∀ e g p, s.engine? e = some g → g.status = .busy p →
    startFault s.platform g p.instr p.word = none
  openCompatible : ∀ e e' g g' f f', e ≠ e' → s.engine? e = some g → s.engine? e' = some g' →
    g.openFootprint = some f → g'.openFootprint = some f' → f.compatible f'
  faultRecorded : ∀ e g f, s.engine? e = some g → g.status.heldFault = some f →
    ∃ r ∈ s.faults, r.engine = e ∧ r.fault = f

end Sys2Proof.Machine
end

