-- ==== Sys2Proof/Certificates/Slice0/Obligations.lean ====
section
/-! DEFINITION. The statements for the provers. -/

open Sys2Proof Sys2Proof.Machine

/-! ### Encoding (30_encoding.md) -/

/-- R105: the valid words are exactly the table's, each decoding to its own command. -/
def Obligations.CommandWordsAreExactlyTheTable : Prop :=
  (∀ (w : Word) (i : Instr), decode w = .ok i ↔ w = encode i) ∧ (∀ i, i ∈ allInstrs) ∧
    (allInstrs.map fun i => (mnemonic i, encode i)) =
      [("PSTAT1.U8.SC", 0x00), ("PSTAT1.U16.SC", 0x01), ("PSTAT1.F32.SC", 0x02),
        ("PSTAT2.U8.SC", 0x04), ("PSTAT2.U16.SC", 0x05), ("PSTAT2.F32.SC", 0x06),
        ("PSTAT1.U8.V128", 0x08), ("PSTAT1.U16.V128", 0x09), ("PSTAT1.F32.V128", 0x0A),
        ("PSTAT2.U8.V128", 0x0C), ("PSTAT2.U16.V128", 0x0D), ("PSTAT2.F32.V128", 0x0E),
        ("PSTAT1.U8.V256", 0x10), ("PSTAT1.U16.V256", 0x11), ("PSTAT1.F32.V256", 0x12),
        ("PSTAT2.U8.V256", 0x14), ("PSTAT2.U16.V256", 0x15), ("PSTAT2.F32.V256", 0x16)]

/-- R101: which words are valid, and that a CMD write of any other faults with ILLEGAL_COMMAND and writes no
memory, whether it would run as one step or only open its interval. That the datapath registers stay is the model's
choice (log 4). -/
def Obligations.InvalidWordsFaultIllegalCommand : Prop :=
  (∀ w : Word, (∃ i, decode w = .ok i) ↔
      w.extractLsb' 8 24 = 0 ∧ w.extractLsb' 5 3 = 0 ∧ w.extractLsb' 0 2 ≠ 3 ∧ w.extractLsb' 3 2 ≠ 3) ∧
    ∀ (s : State) (t e : Nat) (g : Engine) (w : Word) (atomic : Bool), s.engine? e = some g → g.status = .idle →
      (∀ i, decode w ≠ .ok i) →
      ∃ u, writeRegister atomic s t e 0 4 (w.toNat : Int) = .next u ∧
        FaultTaken s u e t (.command w) (.illegalCommand w)

/-- Words written out from R100's fields decode to the command of R105's table, and reserved ones to none. -/
def Obligations.SampleTableWordsDecode : Prop :=
  decodeTableWord 32 0x00000000 = some .pstat1U8Sc ∧ decodeTableWord 32 0x00000006 = some .pstat2F32Sc ∧
    decodeTableWord 32 0x0000000D = some .pstat2U16V128 ∧ decodeTableWord 32 0x00000012 = some .pstat1F32V256 ∧
    decodeTableWord 32 0x00000003 = none ∧ decodeTableWord 32 0x00000018 = none ∧
    decodeTableWord 32 0x00000020 = none ∧ decodeTableWord 32 0x80000010 = none

/-! ### A step runs the decoded command -/

/-- The next event lets thread t write CMD of a non-busy engine with a word that decodes to i: the step is exec of
i, or, where the event only opens the interval, startCommand of i, with the event taken off the schedule and the CMD
port set (both the model's own: log 14). -/
def Obligations.StepRunsTheDecodedCommand : Prop :=
  ∀ (s : State) (t e : Nat) (th : Thread) (v : Expr) (w : Word) (i : Instr) (g : Engine),
    s.threads[t]? = some th → th.status = .ready → th.program[th.pos]? = some (cmdWord e v) →
    BitVec.ofNat 32 (transactionValue 4 (evalExpr th.vars v)) = w → decode w = .ok i →
    s.engine? e = some g → g.isBusy = false →
    (nextEvent s = .run t → step s = exec i (({ s with sched := s.sched.tail }).atPort t e w)) ∧
      (nextEvent s = .start t →
        step s = startCommand i (({ s with sched := s.sched.tail }).atPort t e w) .next)

/-- A command placed by withFetchWord is what the next step runs (log 16: the model's way of loading one). -/
def Obligations.PlacedCommandRunsNext : Prop :=
  ∀ (s : State) (i : Instr) (g : Engine), s.engine? 0 = some g → g.isBusy = false →
    step (s.withFetchWord 32 (encode i).toNat) =
      exec i (({ s.withFetchWord 32 (encode i).toNat with
        sched := (s.withFetchWord 32 (encode i).toNat).sched.tail }).atPort 0 0 (encode i))

/-- A command that is ready is its opening followed by its completion; one that is not does what its opening does
(R80, R85). -/
def Obligations.CommandIsItsOpeningThenItsCompletion : Prop :=
  ∀ (i : Instr) (s : State),
    (∀ g, ReadyToRun s i g →
      startCommand i s .next = .next (s.openCommand i) ∧
        exec i s = .next (finishCommand s.port.engine (s.openCommand i))) ∧
    ((∀ g, ¬ ReadyToRun s i g) → exec i s = startCommand i s .next)

/-! ### What the commands do (41_scalar_kernels.md to 44_vector256_kernels.md) -/

/-- Every one of the 18 commands, when its conditions hold, completes: the record is written from its walk, the
engine is idle with the walk's datapath registers (which ones stay between commands: log 4), the issuing thread
goes on, the other host threads do not see the record yet (R83; the form of HOST_MM: log 15), and nothing else
changes. -/
def Obligations.ReadyCommandCompletesAndChangesNothingElse : Prop :=
  ∀ (i : Instr) (s : State) (g : Engine), ReadyToRun s i g →
    let x := commandArgs i.planes g.args
    let out := kernelOf i s.mem x g.datapath
    exec i s = .next { s with
      mem := writeResult i (commandInputs i s.mem x) s.mem x.out out.2
      unseen := hideWrite s.mem s.port.thread s.threads.length x.out (recordBytes i.planes) s.unseen
      engines := s.engines.modify s.port.engine fun g => { g with status := .idle, datapath := out.1 }
      threads := s.threads.modify s.port.thread fun th => { th with pos := th.pos + 1, status := .ready } }

/-- The four integer commands of tier SC write the contract of R132 at the offsets of R70, and no other byte. -/
def Obligations.ScalarIntegerCommandsWriteTheContract : Prop :=
  ∀ (i : Instr) (s : State) (g : Engine), ReadyToRun s i g → s.mem.wf → i.tier = .sc → i.format ≠ .f32 →
    let x := commandArgs i.planes g.args
    let S1 := x.samples1 i.format s.mem
    ∃ t, exec i s = .next t ∧ IsLeast (t.mem.readLE x.out 4) S1 ∧ IsGreatest (t.mem.readLE (x.out + 4) 4) S1 ∧
      t.mem.readLE (x.out + 8) 8 = contractSum S1 ∧
      (i.planes = .two → t.mem.readLE (x.out + 16) 8 = contractDiff S1 (x.samples2 i.format s.mem)) ∧
      ∀ a, ¬ (x.out ≤ a ∧ a < x.out + recordBytes i.planes) → t.mem.read a = s.mem.read a

/-- The four U8 commands of the vector tiers write the contract of R132, and no other byte. -/
def Obligations.VectorByteCommandsWriteTheContract : Prop :=
  ∀ (i : Instr) (s : State) (g : Engine), ReadyToRun s i g → s.mem.wf → i.tier ≠ .sc → i.format = .u8 →
    let x := commandArgs i.planes g.args
    let S1 := x.samples1 i.format s.mem
    ∃ t, exec i s = .next t ∧ IsLeast (t.mem.readLE x.out 4) S1 ∧ IsGreatest (t.mem.readLE (x.out + 4) 4) S1 ∧
      t.mem.readLE (x.out + 8) 8 = contractSum S1 ∧
      (i.planes = .two → t.mem.readLE (x.out + 16) 8 = contractDiff S1 (x.samples2 i.format s.mem)) ∧
      ∀ a, ¬ (x.out ≤ a ∧ a < x.out + recordBytes i.planes) → t.mem.read a = s.mem.read a

/-- The four U16 commands of the vector tiers write the contract of R132, biased compare or not, and no other
byte. -/
def Obligations.VectorWordCommandsWriteTheContract : Prop :=
  ∀ (i : Instr) (s : State) (g : Engine), ReadyToRun s i g → s.mem.wf → i.tier ≠ .sc → i.format = .u16 →
    let x := commandArgs i.planes g.args
    let S1 := x.samples1 i.format s.mem
    ∃ t, exec i s = .next t ∧ IsLeast (t.mem.readLE x.out 4) S1 ∧ IsGreatest (t.mem.readLE (x.out + 4) 4) S1 ∧
      t.mem.readLE (x.out + 8) 8 = contractSum S1 ∧
      (i.planes = .two → t.mem.readLE (x.out + 16) 8 = contractDiff S1 (x.samples2 i.format s.mem)) ∧
      ∀ a, ¬ (x.out ≤ a ∧ a < x.out + recordBytes i.planes) → t.mem.read a = s.mem.read a

/-- The six F32 commands of every tier write min and max as R133 folds them over the samples, and no byte outside
the record. -/
def Obligations.FloatCommandsWriteTheOrderedExtrema : Prop :=
  ∀ (i : Instr) (s : State) (g : Engine), ReadyToRun s i g → s.mem.wf → i.format = .f32 →
    let x := commandArgs i.planes g.args
    let S1 := x.samples1 .f32 s.mem
    ∃ t, exec i s = .next t ∧ t.mem.readLE x.out 4 = (S1.foldl fminUpd 0x7F800000).toNat ∧
      t.mem.readLE (x.out + 4) 4 = (S1.foldl fmaxUpd 0xFF800000).toNat ∧
      ∀ a, ¬ (x.out ≤ a ∧ a < x.out + recordBytes i.planes) → t.mem.read a = s.mem.read a

/-- The two F32 commands of tier SC write the left-to-right sums of R138(c), a NaN as NAN_RESULT (R139). -/
def Obligations.ScalarFloatCommandsWriteTheLeftToRightSums : Prop :=
  ∀ (i : Instr) (s : State) (g : Engine), ReadyToRun s i g → s.mem.wf → i.tier = .sc → i.format = .f32 →
    let x := commandArgs i.planes g.args
    let S1 := x.samples1 .f32 s.mem
    let inp := commandInputs i s.mem x
    let diff := leftSum (diffSeq S1 (x.samples2 .f32 s.mem))
    ∃ t, exec i s = .next t ∧
      t.mem.readLE (x.out + 8) 8 = (if isNaN64 (leftSum S1) then nanResult inp else leftSum S1).toNat ∧
      (i.planes = .two → t.mem.readLE (x.out + 16) 8 = (if isNaN64 diff then nanResult inp else diff).toNat)

/-- The four F32 commands of the vector tiers write the sums of R189's closed form, a NaN as NAN_RESULT (R139). -/
def Obligations.VectorFloatCommandsWriteTheLaneSums : Prop :=
  ∀ (i : Instr) (s : State) (g : Engine) (W : Nat), ReadyToRun s i g → s.mem.wf → tierWidth i.tier = some W →
    i.format = .f32 →
    let x := commandArgs i.planes g.args
    let inp := commandInputs i s.mem x
    let sum := vectorSum (sampleAt1 s.mem x) W x.width x.height
    let diff := vectorSum (fun r c => absF32 (subF32 (sampleAt1 s.mem x r c) (sampleAt2 s.mem x r c)))
      W x.width x.height
    ∃ t, exec i s = .next t ∧
      t.mem.readLE (x.out + 8) 8 = (if isNaN64 sum then nanResult inp else sum).toNat ∧
      (i.planes = .two → t.mem.readLE (x.out + 16) 8 = (if isNaN64 diff then nanResult inp else diff).toNat)

/-- R190: commands of the same format and plane count give the same min and max in every tier, and for the
integer formats the same sum and diffSum. -/
def Obligations.TiersAgree : Prop :=
  ∀ (i j : Instr) (m : Memory) (x : Args) (d d' : Datapath), i.format = j.format → i.planes = j.planes →
    (kernelOf i m x d).2.mn = (kernelOf j m x d').2.mn ∧ (kernelOf i m x d).2.mx = (kernelOf j m x d').2.mx ∧
      (i.format ≠ .f32 →
        (kernelOf i m x d).2.sm = (kernelOf j m x d').2.sm ∧ (kernelOf i m x d).2.df = (kernelOf j m x d').2.df)

/-- R176: no result, and no input of NAN_RESULT, depends on over-read bytes. -/
def Obligations.OverReadBytesNeverMatter : Prop :=
  ∀ (i : Instr) (m m' : Memory) (x : Args) (d : Datapath), SameSamples i x m m' →
    (kernelOf i m x d).2 = (kernelOf i m' x d).2 ∧ commandInputs i m x = commandInputs i m' x

/-- R146: identical argument registers and identical sample bytes give identical record bytes, on any engine of
any two machines. -/
def Obligations.SameInputsWriteTheSameRecord : Prop :=
  ∀ (i : Instr) (s s' : State) (g g' : Engine), ReadyToRun s i g → ReadyToRun s' i g' → s.mem.wf → s'.mem.wf →
    commandArgs i.planes g.args = commandArgs i.planes g'.args →
    SameSamples i (commandArgs i.planes g.args) s.mem s'.mem →
    ∃ t t', exec i s = .next t ∧ exec i s' = .next t' ∧
      ∀ k, k < recordBytes i.planes →
        t.mem.read ((commandArgs i.planes g.args).out + k) = t'.mem.read ((commandArgs i.planes g.args).out + k)

/-! ### START's faults (41_scalar_kernels.md R135, 60_exceptions.md)

A fault is taken as `FaultTaken` says; that the datapath registers stay as they were is the model's choice there, no
rule's (R40 leaves them any value: log 4). -/

/-- START's checks pass exactly under the conditions of R135. -/
def Obligations.ChecksPassExactlyForLegalCommands : Prop :=
  ∀ (p : Platform) (g : Engine) (i : Instr) (w : Word), startFault p g i w = none ↔ LegalStart p g i

/-- R104: TIER selects the kernel set, and a command whose tier's CAPS bit is 0 faults with TIER_UNAVAILABLE. -/
def Obligations.AbsentTierFaults : Prop :=
  (∀ i, tierOf (wordTier (encode i)) = some i.tier) ∧ tierOf 0 = some .sc ∧ tierOf 1 = some .v128 ∧
    tierOf 2 = some .v256 ∧ tierOf 3 = none ∧
    (∀ (i : Instr) (m : Memory) (x : Args) (d : Datapath), kernelOf i m x d =
      match i.tier with
      | .sc => scKernel i.format i.planes m x d
      | .v128 => v128Kernel i.format i.planes m x d
      | .v256 => v256Kernel i.format i.planes m x d) ∧
    ∀ (i : Instr) (s : State) (g : Engine), IdleAtPort s g →
      (capsValue s.platform).getLsbD (capsBit i.tier) = false → TakesFault i s (.tierUnavailable s.port.word)

/-- R42: `written` is false after reset and set by a host write of that register alone; a command that reads an
unwritten register faults with UNINIT_ARG, naming the first such register in the order of R320. -/
def Obligations.UnwrittenArgumentFaults : Prop :=
  (∀ r, Engine.reset.written.get r = false) ∧
    (∀ (s : State) (t e : Nat) (g : Engine) (r : ArgReg) (v : Int), s.engine? e = some g → g.isBusy = false →
      ∃ u g', writeRegister true s t e (regOffset (.arg r)) (regWidth (.arg r)) v = .next u ∧
        u.engine? e = some g' ∧ ∀ q, g'.written.get q = (decide (q = r) || g.written.get q)) ∧
    ∀ (i : Instr) (s : State) (g : Engine) (pre : List ArgReg) (r : ArgReg) (post : List ArgReg),
      IdleAtPort s g → LegalTier s.platform i → argRegs i.planes = pre ++ r :: post →
      (∀ q ∈ pre, g.written.get q = true) → g.written.get r = false → TakesFault i s (.uninitArg r)

/-- R134: a zero dimension faults with BAD_GEOMETRY; a stride below WIDTH × sz, compared signed, with BAD_STRIDE
of its plane, plane 1 first. -/
def Obligations.BadGeometryAndStrideFault : Prop :=
  ∀ (i : Instr) (s : State) (g : Engine), IdleAtPort s g → LegalTier s.platform i → LegalWritten g i →
    let x := commandArgs i.planes g.args
    let need : Int := (x.width * sampleSize i.format : Nat)
    ((x.width = 0 ∨ x.height = 0) → TakesFault i s (.badGeometry x.width x.height)) ∧
    (1 ≤ x.width → 1 ≤ x.height → x.stride1 < need → TakesFault i s (.badStride 1 x.stride1)) ∧
    (1 ≤ x.width → 1 ≤ x.height → need ≤ x.stride1 → i.planes = .two → x.stride2 < need →
      TakesFault i s (.badStride 2 x.stride2))

/-- R64: a base or stride that is no multiple of sz, or an OUT that is no multiple of 8, faults with MISALIGNED
naming a register whose own condition fails, of plane 1 before plane 2 and OUT last (R320); when all hold, the
command does not take that fault. -/
def Obligations.MisalignedOperandFaults : Prop :=
  ∀ (i : Instr) (s : State) (g : Engine), IdleAtPort s g → LegalTier s.platform i → LegalWritten g i →
    LegalDimensions g i → LegalStrides g i →
    (¬ LegalAlignment g i →
      ∃ r, MisalignedBy i (commandArgs i.planes g.args) r ∧
        (∀ q, alignmentRank q < alignmentRank r → ¬ MisalignedBy i (commandArgs i.planes g.args) q) ∧
        TakesFault i s (.misaligned r)) ∧
    (LegalAlignment g i → ∀ r, ¬ TakesFault i s (.misaligned r))

/-- A footprint byte outside 0 .. 2^64-1 faults with ADDRESS_OVERFLOW, naming SRC1, SRC2 or OUT whose own plane or
record leaves that range; addresses do not wrap (R65, R313). -/
def Obligations.AddressOverflowFaults : Prop :=
  ∀ (i : Instr) (s : State) (g : Engine), IdleAtPort s g → LegalTier s.platform i → LegalWritten g i →
    LegalDimensions g i → LegalStrides g i → LegalAlignment g i → ¬ LegalRange g i →
    ∃ r, OverflowedBy i (commandArgs i.planes g.args) r ∧ TakesFault i s (.addressOverflow r)

/-- R72: a byte that both footprints hold, over-read region included, faults with OUTPUT_OVERLAP and the lowest
such byte (R313). -/
def Obligations.OutputOverlapFaults : Prop :=
  ∀ (i : Instr) (s : State) (g : Engine) (a : Nat), IdleAtPort s g → LegalTier s.platform i → LegalWritten g i →
    LegalDimensions g i → LegalStrides g i → LegalAlignment g i → LegalRange g i →
    (footprint i g.args).reads a = true → (footprint i g.args).writes a = true →
    (∀ b, (footprint i g.args).reads b = true → (footprint i g.args).writes b = true → a ≤ b) →
    TakesFault i s (.outputOverlap a)

/-- A footprint byte that is not admitted or lies in a register window faults with ACCESS_FAULT and the lowest
such byte of both footprints (R61, R68, R69; the lowest over both: log 12). -/
def Obligations.UnadmittedByteFaults : Prop :=
  ∀ (i : Instr) (s : State) (g : Engine) (a : Nat), IdleAtPort s g → LegalTier s.platform i → LegalWritten g i →
    LegalDimensions g i → LegalStrides g i → LegalAlignment g i → LegalRange g i → LegalApart g i →
    NotAdmitted s.platform (footprint i g.args) a →
    (∀ b, NotAdmitted s.platform (footprint i g.args) b → a ≤ b) →
    TakesFault i s (.accessFault a)

/-- A command after which another fault is on record has written no memory (R312, R322) and no argument register
(R45), and the record only grew (R312). That no datapath register changed either, of a command that faults at its start
or by a race, is the model's choice: R40 leaves them any value (log 4). So is that its thread has stopped (log 9). -/
def Obligations.FaultingCommandWritesNothing : Prop :=
  ∀ (i : Instr) (s t : State), exec i s = .next t → t.faults ≠ s.faults →
    t.mem = s.mem ∧ t.unseen = s.unseen ∧ s.faults <+: t.faults ∧
      (∀ th, t.threads[s.port.thread]? = some th → th.status = .stopped) ∧
      ∀ e g', t.engine? e = some g' → ∃ g, s.engine? e = some g ∧ g'.args = g.args ∧ g'.written = g.written ∧
        g'.datapath = g.datapath

/-- A CMD write to a faulted engine, of any word, valid or not, as one step or only opening its interval, stops the
machine, and so does every command there: the engine is stuck until a reset (the model's reading, log 10). -/
def Obligations.FaultedEngineIsStuck : Prop :=
  (∀ (i : Instr) (s : State) (g : Engine) (f : CommandFault), s.engine? s.port.engine = some g →
    g.status = .faulted f → exec i s = .fault (.engineStuck s.port.engine)) ∧
  ∀ (s : State) (t e : Nat) (g : Engine) (f : CommandFault) (v : Int) (atomic : Bool), s.engine? e = some g →
    g.status = .faulted f → writeRegister atomic s t e 0 4 v = .fault (.engineStuck e)

/-! ### Races (20_memory.md R84, R85) -/

/-- A store to a byte that an open command reads or writes, or a load of a byte that it writes, faults that command
with DATA_RACE against the accessing thread; a store to bytes that it neither reads nor writes, or a load of bytes
that it writes none of, leaves its engine as it is (R84; its datapath registers: the model's choice, log 4). The
access itself takes effect (log 13). -/
def Obligations.RacingHostAccessFaultsTheOpenCommand : Prop :=
  ∀ (s : State) (t e n a var : Nat) (v : Int) (g : Engine) (p : PendingCommand), s.engine? e = some g →
    g.status = .busy p → HostAccessible s a n →
    let f := footprint p.instr g.args
    ((∃ b, a ≤ b ∧ b < a + n ∧ (f.reads b = true ∨ f.writes b = true)) →
      ∃ u b, storeBytes s t n a v = .next u ∧ a ≤ b ∧ b < a + n ∧ (f.reads b = true ∨ f.writes b = true) ∧
        (u.engine? e).map Engine.status = some (.faulted (.dataRace (.thread t) b)) ∧
        (⟨e, p.thread, .command p.word, .dataRace (.thread t) b⟩ : FaultRecord) ∈ u.faults) ∧
    ((∃ b, a ≤ b ∧ b < a + n ∧ f.writes b = true) →
      ∃ u b, loadBytes s t var n a = .next u ∧ a ≤ b ∧ b < a + n ∧ f.writes b = true ∧
        (u.engine? e).map Engine.status = some (.faulted (.dataRace (.thread t) b)) ∧
        (⟨e, p.thread, .command p.word, .dataRace (.thread t) b⟩ : FaultRecord) ∈ u.faults) ∧
    ((∀ b, a ≤ b → b < a + n → f.reads b = false ∧ f.writes b = false) →
      ∃ u, storeBytes s t n a v = .next u ∧ u.engine? e = some g) ∧
    ((∀ b, a ≤ b → b < a + n → f.writes b = false) →
      ∃ u, loadBytes s t var n a = .next u ∧ u.engine? e = some g)

/-- Two commands of different engines of which one writes a byte that the other reads or writes both fault with
DATA_RACE when their intervals meet, and neither writes memory (R84; that both fault: log 13). Each records an engine
whose command conflicts with its own and a byte of that conflict, and both faults are on record (R312, R313). -/
def Obligations.ConflictingCommandsBothRace : Prop :=
  ∀ (i : Instr) (s : State) (g g' : Engine) (e' : Nat) (p : PendingCommand), IdleAtPort s g →
    LegalStart s.platform g i → e' ≠ s.port.engine → s.engine? e' = some g' → g'.status = .busy p →
    ¬ (footprint p.instr g'.args).compatible (footprint i g.args) →
    ∃ u a b k gk pk, exec i s = .next u ∧ u.mem = s.mem ∧
      k ≠ s.port.engine ∧ s.engine? k = some gk ∧ gk.status = .busy pk ∧
      (footprint pk.instr gk.args).conflictsAt (footprint i g.args) a ∧
      (footprint p.instr g'.args).conflictsAt (footprint i g.args) b ∧
      (u.engine? s.port.engine).map Engine.status = some (.faulted (.dataRace (.engine k) a)) ∧
      (u.engine? e').map Engine.status = some (.faulted (.dataRace (.engine s.port.engine) b)) ∧
      (⟨s.port.engine, s.port.thread, .command s.port.word, .dataRace (.engine k) a⟩ : FaultRecord) ∈ u.faults ∧
      (⟨e', p.thread, .command p.word, .dataRace (.engine s.port.engine) b⟩ : FaultRecord) ∈ u.faults

/-- A host store that does not race with an open command may come before or after its completion: every byte of
memory reads the same, and the engine ends in the same state, its argument registers as they were (R85). -/
def Obligations.NonRacingStoreCommutesWithCompletion : Prop :=
  ∀ (s : State) (t e a n : Nat) (v : Int) (g : Engine) (p : PendingCommand), s.mem.wf → s.engine? e = some g →
    g.status = .busy p → LegalStart s.platform g p.instr → HostAccessible s a n →
    (∀ b, a ≤ b → b < a + n →
      (footprint p.instr g.args).reads b = false ∧ (footprint p.instr g.args).writes b = false) →
    ∃ u w, storeBytes s t n a v = .next u ∧ storeBytes (finishCommand e s) t n a v = .next w ∧
      (∀ b, (finishCommand e u).mem.read b = w.mem.read b) ∧
      ∃ gu gw, (finishCommand e u).engine? e = some gu ∧ w.engine? e = some gw ∧ gu.status = gw.status ∧
        gu.args = g.args ∧ gw.args = g.args ∧ gu.written = g.written ∧ gw.written = g.written

/-! ### Registers (10_state.md R31, R36, R37, R44, R45) -/

/-- R45: a host write gives its register the value and leaves every other register, every other engine and memory
alone (the datapath registers: the model's choice, log 4); a host read returns the value of a written register, so the
value just written when nothing came between; of a register never written since reset it returns the free value of
that read, whatever the read counter (log 6). A command leaves every argument register as it was, and so does every
step whose event is neither a reset nor a host write of that register: the host's other operations, the opening and
the completion of a command. -/
def Obligations.ArgumentRegistersHoldWhatWasWritten : Prop :=
  (∀ (s : State) (t e : Nat) (g : Engine) (r : ArgReg) (v : Int), s.engine? e = some g → g.isBusy = false →
    ∃ u g', writeRegister true s t e (regOffset (.arg r)) (regWidth (.arg r)) v = .next u ∧
      u.engine? e = some g' ∧ ((g'.args.get r).toNat : Int) = v % (2 ^ (8 * regWidth (.arg r)) : Nat) ∧
      (∀ q, q ≠ r → g'.args.get q = g.args.get q) ∧ g'.status = g.status ∧ g'.datapath = g.datapath ∧
      (∀ k, k ≠ e → u.engine? k = s.engine? k) ∧ u.mem = s.mem ∧ u.faults = s.faults) ∧
  (∀ (s : State) (t e var : Nat) (g : Engine) (th : Thread) (r : ArgReg), s.engine? e = some g →
    g.isBusy = false → s.threads[t]? = some th → g.written.get r = true →
    ∃ u, readRegister s t var e (regOffset (.arg r)) (regWidth (.arg r)) = .next u ∧
      VarHolds u t var (g.args.get r).toNat ∧ u.engines = s.engines ∧ u.mem = s.mem ∧ u.faults = s.faults ∧
      u.draws = s.draws) ∧
  (∀ (s : State) (t e var : Nat) (g : Engine) (th : Thread) (r : ArgReg) (v : Int), s.engine? e = some g →
    g.isBusy = false → s.threads[t]? = some th →
    ∃ s1 s2, writeRegister true s t e (regOffset (.arg r)) (regWidth (.arg r)) v = .next s1 ∧
      readRegister s1 t var e (regOffset (.arg r)) (regWidth (.arg r)) = .next s2 ∧
      VarHolds s2 t var (v % (2 ^ (8 * regWidth (.arg r)) : Nat)) ∧ s2.mem = s.mem ∧ s2.faults = s.faults) ∧
  (∀ (s : State) (t e var : Nat) (g : Engine) (th : Thread) (r : ArgReg), s.engine? e = some g →
    g.isBusy = false → s.threads[t]? = some th → g.written.get r = false →
    ∃ u, readRegister s t var e (regOffset (.arg r)) (regWidth (.arg r)) = .next u ∧
      VarHolds u t var ((Config.drawRegister s.draws).toNat % 2 ^ (8 * regWidth (.arg r)) : Nat) ∧
      u.draws = s.draws + 1 ∧ u.engines = s.engines ∧ u.mem = s.mem) ∧
  (∀ (i : Instr) (s t : State), exec i s = .next t → t.engines.map Engine.args = s.engines.map Engine.args ∧
    t.engines.map Engine.written = s.engines.map Engine.written) ∧
  (∀ (s u : State) (e : Nat) (g : Engine) (r : ArgReg), step s = .next u → s.engine? e = some g →
    nextEvent s ≠ .reset →
    (∀ (t : Nat) (th : Thread) (v : Expr), nextEvent s = .run t ∨ nextEvent s = .start t →
      s.threads[t]? = some th → th.program[th.pos]? ≠ some (wrReg e (.arg r) v)) →
    ∃ g', u.engine? e = some g' ∧ g'.args.get r = g.args.get r ∧ g'.written.get r = g.written.get r)

/-- R36: the bits of CAPS, its read, and that a write of it changes nothing but the writing thread's position. -/
def Obligations.CapsIsHardwired : Prop :=
  (∀ p : Platform, (capsValue p).getLsbD 0 = true ∧ (capsValue p).getLsbD 1 = p.hasT128 ∧
    (capsValue p).getLsbD 2 = p.hasT256 ∧ ∀ k, 3 ≤ k → (capsValue p).getLsbD k = false) ∧
  ∀ (s : State) (t e var : Nat) (g : Engine) (th : Thread) (v : Int), s.engine? e = some g → g.isBusy = false →
    s.threads[t]? = some th →
    writeRegister true s t e 0x04 4 v = .next (s.advance t) ∧
      ∃ u, readRegister s t var e 0x04 4 = .next u ∧ VarHolds u t var (capsValue s.platform).toNat ∧
        u.engines = s.engines ∧ u.mem = s.mem ∧ u.faults = s.faults

/-- A read of CMD gives the reading thread's variable 0 and changes nothing else: the whole state is as before but
for that thread (R37). -/
def Obligations.CmdReadsZero : Prop :=
  ∀ (s : State) (t e var : Nat) (g : Engine) (th : Thread), s.engine? e = some g → g.isBusy = false →
    s.threads[t]? = some th →
    readRegister s t var e 0x00 4 = .next (s.assign t var 0) ∧ VarHolds (s.assign t var 0) t var 0 ∧
      s.assign t var 0 = { s with threads := (s.assign t var 0).threads } ∧
      ∀ k, k ≠ t → (s.assign t var 0).threads[k]? = s.threads[k]?

/-- R44: the offsets and widths of the registers (R31); an access, read or write, that is not a whole register at its
own offset, or to a busy engine, is BAD_REG_ACCESS: an idle engine becomes faulted with it (R43, R312), a busy one
keeps its command and holds its first such fault (R321, log 11). No other access is: it adds nothing to the record,
or, a CMD write, no BAD_REG_ACCESS. -/
def Obligations.BadRegisterAccessFaults : Prop :=
  (allRegs.map fun r => (regOffset r, regWidth r)) =
      [(0x00, 4), (0x04, 4), (0x08, 4), (0x0C, 4), (0x10, 8), (0x18, 8), (0x20, 8), (0x28, 8), (0x30, 8)] ∧
  (∀ r, r ∈ allRegs) ∧
  ∀ (s : State) (t e off width var : Nat) (v : Int) (g : Engine) (atomic : Bool), s.engine? e = some g →
    let bad := (∀ r, ¬ (regOffset r = off ∧ regWidth r = width)) ∨ g.isBusy = true
    let record : Access → FaultRecord := fun acc => ⟨e, t, acc, .badRegAccess off width⟩
    let taken : State → Prop := fun u => u.mem = s.mem ∧
      (g.status = .idle → (u.engine? e).map Engine.status = some (.faulted (.badRegAccess off width))) ∧
      (∀ p, g.status = .busy p → (u.engine? e).map Engine.status =
        some (.busy { p with fault := some (p.fault.getD (.badRegAccess off width)) }))
    (bad → ∃ u, writeRegister atomic s t e off width v = .next u ∧ taken u ∧
      u.faults = s.faults ++ [record (.regWrite off width)]) ∧
    (bad → ∃ u, readRegister s t var e off width = .next u ∧ taken u ∧
      u.faults = s.faults ++ [record (.regRead off width)]) ∧
    (¬ bad → ∃ u, readRegister s t var e off width = .next u ∧ u.faults = s.faults) ∧
    (¬ bad → off ≠ 0 → ∃ u, writeRegister atomic s t e off width v = .next u ∧ u.faults = s.faults) ∧
    (¬ bad → ∀ u, writeRegister atomic s t e off width v = .next u →
      ∃ new, u.faults = s.faults ++ new ∧ ∀ r ∈ new, ∀ o w, r.fault ≠ .badRegAccess o w)

/-! ### Memory and the host (20_memory.md R62, R80, 30_encoding.md R113) -/

/-- R62: MemRead is the little-endian sum of its bytes; MemWrite writes the bytes of the value in that order and
leaves every other byte alone. That a write keeps the canonical form of the list that memory is held in is about the
model's own form, no rule of the spec (log 5). -/
def Obligations.MemoryIsLittleEndian : Prop :=
  ∀ (m : Memory) (a n v : Nat), m.wf →
    m.readLE a n = ((List.range n).map fun k => (m.read (a + k)).toNat * 2 ^ (8 * k)).sum ∧
    (∀ k, k < n → (m.writeLE a n v).read (a + k) = BitVec.ofNat 8 (v / 2 ^ (8 * k))) ∧
    (∀ b, (b < a ∨ a + n ≤ b) → (m.writeLE a n v).read b = m.read b) ∧ (m.writeLE a n v).wf

/-- A host store then a load of the same place gives the value modulo 2^(8n); the store changes no other byte and
the load changes no byte, and neither changes an argument register or a written bit of any engine. Any other load
gives the bytes that its thread then sees: memory's own where it sees every command's writes, else, of each byte, as
many more writes as HOST_MM says, none of them or all (R83; the form of HOST_MM: log 15); it changes neither memory nor
what another thread sees. -/
def Obligations.HostStoreThenLoadReturnsTheValue : Prop :=
  ∀ (s : State) (t a n var : Nat) (v : Int) (th : Thread), s.mem.wf → HostAccessible s a n →
    s.threads[t]? = some th →
    ∃ u w, storeBytes s t n a v = .next u ∧ loadBytes u t var n a = .next w ∧
      VarHolds w t var (v % (2 ^ (8 * n) : Nat)) ∧ w.mem = u.mem ∧
      (∀ b, (b < a ∨ a + n ≤ b) → u.mem.read b = s.mem.read b) ∧
      (u.engines.map Engine.args = s.engines.map Engine.args ∧
        u.engines.map Engine.written = s.engines.map Engine.written) ∧
      (w.engines.map Engine.args = s.engines.map Engine.args ∧
        w.engines.map Engine.written = s.engines.map Engine.written) ∧
      ∃ x, loadBytes s t var n a = .next x ∧ VarHolds x t var (x.readSeen t a n) ∧ x.mem = s.mem ∧
        ((∀ r ∈ s.unseen, r.thread = t → r.within a n = false) →
          VarHolds x t var (s.mem.readLE a n) ∧ x.unseen = s.unseen ∧ x.draws = s.draws) ∧
        ((∃ r ∈ s.unseen, r.thread = t ∧ r.within a n = true) → x.draws = s.draws + 1 ∧
          ∀ b, a ≤ b → b < a + n →
            (Config.hostMM t b s.draws = 0 → x.byteSeen t b = s.byteSeen t b) ∧
            (s.unseen.countP (Unseen.isAt t b) ≤ Config.hostMM t b s.draws → x.byteSeen t b = s.mem.read b)) ∧
        ∀ k b, (k ≠ t ∨ b < a ∨ a + n ≤ b) → x.byteSeen k b = s.byteSeen k b

/-- A ready thread goes to the named operation when the condition of its `if … goto` holds and to the next one
otherwise, and `let` assigns its variable; memory and engines are unchanged (R113). -/
def Obligations.HostControlMovesThePosition : Prop :=
  ∀ (s : State) (t target var : Nat) (th : Thread) (c : Cond) (x : Expr), s.threads[t]? = some th →
    th.status = .ready →
    (th.program[th.pos]? = some (.ifGoto c target) →
      ∃ u, runThread true t s = .next u ∧
        (u.threads[t]?).map Thread.pos = some (if evalCond th.vars c then target else th.pos + 1) ∧
        u.mem = s.mem ∧ u.engines = s.engines) ∧
    (th.program[th.pos]? = some (.letVar var x) →
      ∃ u, runThread true t s = .next u ∧ VarHolds u t var (evalExpr th.vars x) ∧
        (u.threads[t]?).map Thread.pos = some (th.pos + 1) ∧ u.mem = s.mem ∧ u.engines = s.engines)

/-- A thread whose CMD write is open performs nothing, whichever event would let it (R80). -/
def Obligations.WaitingThreadPerformsNothing : Prop :=
  ∀ (s : State) (t e : Nat) (th : Thread) (rest : List Event), s.threads[t]? = some th →
    th.status = .waiting e → step { s with sched := .run t :: rest } = .next { s with sched := rest } ∧
      step { s with sched := .start t :: rest } = .next { s with sched := rest }

/-- Every open command completes: its engine's completion event makes it idle, or faulted with the fault that a
register operation raised on it meanwhile (R43, R312; log 11), and lets its thread go on; with nothing scheduled the
next step completes a busy engine (R80; the default choice: log 14). The issuing thread then sees the record's bytes in
memory (R82); what any other host thread sees of memory is as before the completion: when it sees the record is for
HOST_MM to say (R83, log 15). -/
def Obligations.OpenCommandsComplete : Prop :=
  (∀ (s : State) (e : Nat) (g : Engine) (p : PendingCommand) (rest : List Event), s.engine? e = some g →
    g.status = .busy p →
    ∃ u, step { s with sched := .finish e :: rest } = .next u ∧
      (p.fault = none → (u.engine? e).map Engine.status = some .idle) ∧
      (∀ f, p.fault = some f → (u.engine? e).map Engine.status = some (.faulted f)) ∧
      u.threads = s.threads.modify p.thread Thread.advance ∧ u.faults = s.faults ∧ u.sched = rest ∧
      (∀ a, (footprint p.instr g.args).writes a = true → u.byteSeen p.thread a = u.mem.read a) ∧
      (s.mem.wf → ∀ k a, k < s.threads.length → k ≠ p.thread → u.byteSeen k a = s.byteSeen k a)) ∧
  ∀ s : State, s.sched = [] → (∃ g ∈ s.engines, g.isBusy = true) →
    ∃ (e : Nat) (g : Engine), s.engine? e = some g ∧ g.isBusy = true ∧ step s = .next (finishCommand e s)

/-! ### Reset (70_reset_and_hazards.md) -/

/-- Reset makes every engine idle with no argument register written and changes neither memory, nor CAPS, nor the
recorded faults (R350, R323); that the host threads, the CMD port, the draw counter and what each thread sees of
memory stay as well is the model's choice (logs 19, 14, 6, 15). -/
def Obligations.ResetClearsTheEnginesOnly : Prop :=
  ∀ (s : State) (rest : List Event), (∀ g ∈ s.engines, g.isBusy = false) →
    ∃ u, step { s with sched := .reset :: rest } = .next u ∧ u.mem = s.mem ∧ u.faults = s.faults ∧
      u.threads = s.threads ∧ u.platform = s.platform ∧ capsValue u.platform = capsValue s.platform ∧
      u.port = s.port ∧ u.draws = s.draws ∧ u.unseen = s.unseen ∧ u.sched = rest ∧
      u.engines.length = s.engines.length ∧
      ∀ g ∈ u.engines, g.status = .idle ∧ ∀ r, g.written.get r = false

/-- R351: a reset while an engine is busy is refused. -/
def Obligations.ResetWhileBusyIsRefused : Prop :=
  ∀ (s : State) (rest : List Event), (∃ g ∈ s.engines, g.isBusy = true) →
    step { s with sched := .reset :: rest } = .refused .resetWhileBusy

/-- On every platform, after reset all engines exist and are idle with nothing written, memory lists nothing, no
thread misses a write and no fault is recorded; State.reset is that machine on the reference platform (logs 2, 5 and
15). -/
def Obligations.ResetStateIsIdleAndUnwritten : Prop :=
  State.reset = State.resetWith Platform.reference ∧
  ∀ p : Platform, (State.resetWith p).engines.length = p.nEngines ∧
    (∀ g ∈ (State.resetWith p).engines, g.status = .idle ∧ ∀ r, g.written.get r = false) ∧
    (State.resetWith p).mem = [] ∧ (State.resetWith p).unseen = [] ∧ (State.resetWith p).faults = []

/-! ### Invariants of every step -/

/-- The machine right after reset satisfies the invariant, on every platform. -/
def Obligations.ResetSatisfiesTheInvariant : Prop := ∀ p : Platform, (State.resetWith p).Inv

/-- Every step keeps the invariant: canonical memory and unseen writes inside the address space, one engine per window,
open commands legal and free of races, every fault that an engine holds on record. -/
def Obligations.StepKeepsTheInvariant : Prop := ∀ s t : State, s.Inv → step s = .next t → t.Inv

/-- Every step keeps memory in its canonical form (the model's: log 5), whatever else holds. -/
def Obligations.StepKeepsMemoryCanonical : Prop := ∀ s t : State, s.mem.wf → step s = .next t → t.mem.wf

/-- No step changes the platform's parameters (R9) or the number of engines (R332), or clears or alters a recorded
fault (R312); nor does any lower the draw counter, the model's own field (log 6). -/
def Obligations.StepKeepsPlatformAndFaultRecord : Prop :=
  ∀ s t : State, step s = .next t → t.platform = s.platform ∧ s.faults <+: t.faults ∧
    t.engines.length = s.engines.length ∧ s.draws ≤ t.draws

/-! ### The vector datapath and the reduction tree (42_vector_common.md, 45_reduction_primitives.md) -/

/-- R173: the mask of a chunk is all ones for a full chunk and, for the tail, one exactly for the lanes below the
remainder, at every lane count that the index lanes can number. -/
def Obligations.TailMaskCoversTheRemainder : Prop :=
  ∀ (w n width k j : Nat), n ≤ 2 ^ w → j < n →
    (laneMask w n width k)[j]? = some (decide (k < width / n ∨ j < width % n)) ∧
      (laneMask w n width k).length = n

/-- R177: bias is subtraction of the midpoint and also an exclusive or with 0x8000, its signed value is the
unsigned value less 32768, it preserves order, and un-biasing the signed extremum gives the unsigned one. -/
def Obligations.BiasedExtremaAreUnsignedExtrema : Prop :=
  ∀ a b : BitVec 16, bias a = a ^^^ 0x8000 ∧ (bias a).toInt = (a.toNat : Int) - 32768 ∧ unbias (bias a) = a ∧
    ((bias a).slt (bias b) = true ↔ a < b) ∧ unbias (minI16 (bias a) (bias b)) = minU16 a b ∧
    unbias (maxI16 (bias a) (bias b)) = maxU16 a b

/-- R181: each lane of SAD8W is the sum of the 8 bytes beneath it, at most 2040. -/
def Obligations.ByteSumsAreExact : Prop :=
  ∀ (D : Nat) (X : List (BitVec 8)) (g : Nat), X.length = 8 * D → g < D →
    ∃ y, (sad8w D X)[g]? = some y ∧ y.toNat = (((X.drop (8 * g)).take 8).map BitVec.toNat).sum ∧
      y.toNat ≤ 2040

/-- Each lane of SPLITSUM is the sum of the four word lanes beneath it (R184). -/
def Obligations.SplitSumsAreExact : Prop :=
  ∀ (D : Nat) (X : List (BitVec 16)) (g : Nat), X.length = 4 * D → g < D →
    ∃ y, (splitSum D X)[g]? = some y ∧ y.toNat = (((X.drop (4 * g)).take 4).map BitVec.toNat).sum

/-- R185: the two saturating subtractions combined by OR give max - min, the absolute difference, with one operand
of the OR always 0. -/
def Obligations.SaturatingDifferenceIsAbsolute : Prop :=
  ∀ a b : BitVec 16, absDiffU16 a b = satsubU16 a b ||| satsubU16 b a ∧
    (satsubU16 a b).toNat = a.toNat - b.toNat ∧ (satsubU16 a b = 0 ∨ satsubU16 b a = 0) ∧
    (absDiffU16 a b).toNat = max a.toNat b.toNat - min a.toNat b.toNat

/-- R280: one level of the tree folds the upper half of the lanes onto the lower half; one lane is the result;
so two, four and eight lanes give the rule's expressions. -/
def Obligations.TreeFoldsUpperHalfOntoLowerHalf : Prop :=
  ∀ (op : DWord → DWord → DWord) (d : DWord),
    (∀ x, htree op d [x] = x) ∧
    (∀ (v : List DWord) (h : Nat), 1 ≤ h → v.length = 2 * h →
      htree op d v = htree op d (List.zipWith op (v.take h) (v.drop h))) ∧
    (∀ v0 v1, htree op d [v0, v1] = op v0 v1) ∧
    (∀ v0 v1 v2 v3, htree op d [v0, v1, v2, v3] = op (op v0 v2) (op v1 v3)) ∧
    (∀ v0 v1 v2 v3 v4 v5 v6 v7, htree op d [v0, v1, v2, v3, v4, v5, v6, v7] =
      op (op (op v0 v4) (op v2 v6)) (op (op v1 v5) (op v3 v7)))

/-- On a power of two of lanes the integer reductions give the least and greatest lane, unsigned or signed, and
the sum modulo 2^64 (R292). -/
def Obligations.IntegerReductionsGiveTheExtremumAndTheSum : Prop :=
  ∀ k : Nat,
    (∀ v : List (BitVec 8), v.length = 2 ^ k → hminU8 v ∈ v ∧ hmaxU8 v ∈ v ∧
      ∀ x ∈ v, hminU8 v ≤ x ∧ x ≤ hmaxU8 v) ∧
    (∀ v : List (BitVec 16), v.length = 2 ^ k → hminU16 v ∈ v ∧ hmaxU16 v ∈ v ∧
      ∀ x ∈ v, hminU16 v ≤ x ∧ x ≤ hmaxU16 v) ∧
    (∀ v : List (BitVec 16), v.length = 2 ^ k → hminI16 v ∈ v ∧ hmaxI16 v ∈ v ∧
      ∀ x ∈ v, (hminI16 v).toInt ≤ x.toInt ∧ x.toInt ≤ (hmaxI16 v).toInt) ∧
    (∀ v : List DWord, v.length = 2 ^ k → (hsumU64 v).toNat = (v.map BitVec.toNat).sum % 2 ^ 64)

/-- On a power of two of lanes of which none is a NaN, the binary32 reductions give lanes below and above which
there is no lane in the order of R133 (R287, R288, R292). -/
def Obligations.FloatReductionsGiveTheOrderedExtrema : Prop :=
  ∀ (k : Nat) (v : List F32), v.length = 2 ^ k → (∀ x ∈ v, isNaN32 x = false) →
    hminF32 v ∈ v ∧ hmaxF32 v ∈ v ∧ ∀ x ∈ v, flt x (hminF32 v) = false ∧ flt (hmaxF32 v) x = false

/-! ### Floating point (00_scope.md R13, 41_scalar_kernels.md R133, R138) -/

/-- The order of R133 is a strict total order on the values that are no NaN, agrees with the numeric order, puts
-0.0 before +0.0, and relates no NaN. -/
def Obligations.FloatOrderIsStrictAndTotal : Prop :=
  (∀ x y : F32, flt x y = true → isNaN32 x = false ∧ isNaN32 y = false ∧
    valueOf 23 8 x.toNat ≤ valueOf 23 8 y.toNat ∧ flt y x = false) ∧
  (∀ x y z : F32, flt x y = true → flt y z = true → flt x z = true) ∧
  (∀ x y : F32, isNaN32 x = false → isNaN32 y = false → x ≠ y → flt x y = true ∨ flt y x = true) ∧
  flt 0x80000000 0x00000000 = true

/-- add_f64 is the IEEE sum rounded to nearest, ties to even, and sub_f32 the IEEE sum of a and b with b's sign
flipped: finite operands give the nearest finite value, the even one of two equally near, or an infinity from half a
step above the greatest finite value on; infinities and NaNs go as IEEE says; an exact zero is -0.0 only of two -0.0
(R13, log 23). abs_f32 clears bit 31 alone. Values count in units of the least subnormal. -/
def Obligations.AdditionRoundsToNearestEven : Prop :=
  (∀ a b : F64, IsSum 52 11 a.toNat b.toNat (addF64 a b).toNat) ∧
    (∀ a b : F32, IsSum 23 8 a.toNat (b ^^^ 0x80000000).toNat (subF32 a b).toNat) ∧
    ∀ x : F32, (absF32 x).getLsbD 31 = false ∧ ∀ k, k < 31 → (absF32 x).getLsbD k = x.getLsbD k

/-- f32_to_f64 is exact on finite values (one binary32 unit is 2^925 binary64 units), keeps the sign, widens an
infinity to the infinity and a NaN to a NaN (R13). -/
def Obligations.WideningIsExact : Prop :=
  ∀ x : F32,
    (isNaN32 x = true → isNaN64 (f32ToF64 x) = true) ∧
    (x = 0x7F800000 → f32ToF64 x = 0x7FF0000000000000) ∧
    (x = 0xFF800000 → f32ToF64 x = 0xFFF0000000000000) ∧
    (isNaN32 x = false → isInfEnc 23 8 x.toNat = false →
      valueOf 52 11 (f32ToF64 x).toNat = valueOf 23 8 x.toNat * 2 ^ 925 ∧
        isNaN64 (f32ToF64 x) = false ∧ isInfEnc 52 11 (f32ToF64 x).toNat = false ∧
        signOf 52 11 (f32ToF64 x).toNat = signOf 23 8 x.toNat)

/-- A float sum or diffSum never is -0.0: neither that of the SC walk, nor any lane of a vector one, nor the tree's
result (R138(e), R189). -/
def Obligations.FloatSumsAreNeverNegativeZero : Prop :=
  ∀ (m : Memory) (x : Args) (P : Planes),
    (scWalk .f32 P m x).ssum ≠ 0x8000000000000000 ∧ (scWalk .f32 P m x).sdiff ≠ 0x8000000000000000 ∧
      ∀ W, (W = 128 ∨ W = 256) →
        (∀ v ∈ (walkF32 W P m x).vsum, v ≠ 0x8000000000000000) ∧
        (∀ v ∈ (walkF32 W P m x).vdiff, v ≠ 0x8000000000000000) ∧
        (finalF32 (walkF32 W P m x)).sm ≠ 0x8000000000000000 ∧
        (finalF32 (walkF32 W P m x)).df ≠ 0x8000000000000000

/-- NAN_RESULT is some NaN for every input, whatever the free value (R139). -/
def Obligations.NanResultIsSomeNan : Prop := ∀ inp : CommandInputs, isNaN64 (nanResult inp) = true

/-! ### Pseudo-instructions (30_encoding.md R114, R115) -/

/-- R114: the operations that pstat1 and pstat2 expand to, in the rule's order. -/
def Obligations.PstatExpandsInOrder : Prop :=
  ∀ (e : Nat) (fmt : Format) (t : Tier) (x : PstatOperands),
    pstat e (instrOf fmt .one t) x =
      [.wr e 0x10 8 x.out, .wr e 0x18 8 x.src1, .wr e 0x20 8 x.stride1, .wr e 0x08 4 x.width,
        .wr e 0x0C 4 x.height, .wr e 0x00 4 (.lit (encode (instrOf fmt .one t)).toNat)] ∧
    pstat e (instrOf fmt .two t) x =
      [.wr e 0x10 8 x.out, .wr e 0x18 8 x.src1, .wr e 0x20 8 x.stride1, .wr e 0x28 8 x.src2,
        .wr e 0x30 8 x.stride2, .wr e 0x08 4 x.width, .wr e 0x0C 4 x.height,
        .wr e 0x00 4 (.lit (encode (instrOf fmt .two t)).toNat)]

/-- The dispatcher's tier is present and the widest present (R115, R36), and a thread that runs the expansion of
R115 comes to its CMD write, the word to be written being that of the dispatcher's tier, with the argument registers
of R114 written, and memory and every other engine as before (the layout of the expansion: log 24). -/
def Obligations.AutoTierIsTheWidestPresent : Prop :=
  (∀ p : Platform, tierPresent p (autoTier (capsValue p)) = true ∧
    ∀ t, tierPresent p t = true → capsBit t ≤ capsBit (autoTier (capsValue p))) ∧
  ∀ (s : State) (t e c w : Nat) (g : Engine) (th : Thread) (fmt : Format) (P : Planes) (x : PstatOperands)
    (pre post : List HostOp), s.engine? e = some g → g.isBusy = false → s.threads[t]? = some th →
    th.status = .ready → c ≠ w → th.pos = pre.length →
    th.program = pre ++ pstatAuto e fmt P x pre.length c w ++ post →
    ∃ n u th' g', runThreadTimes t n s = .next u ∧ u.threads[t]? = some th' ∧ th'.status = .ready ∧
      th'.program[th'.pos]? = some (cmdWord e (.var w)) ∧
      th'.pos + 1 = pre.length + (pstatAuto e fmt P x pre.length c w).length ∧
      evalExpr th'.vars (.var w) = (encode (instrOf fmt P (autoTier (capsValue s.platform)))).toNat ∧
      u.engine? e = some g' ∧ g'.status = g.status ∧ (∀ r ∈ argRegs P, g'.written.get r = true) ∧
      (∀ k, k ≠ e → u.engine? k = s.engine? k) ∧ u.mem = s.mem ∧ u.faults = s.faults
end

