-- ==== Sys2Proof/Laws/Memory.lean ====
section
/-! SUPPORT. The memory laws: read after write, the canonical form, the multi-byte operations. -/

namespace Sys2Proof.Machine

/-- In a list of cells whose addresses all lie above `a`, byte `a` is unlisted. -/
theorem Memory.read_below : ∀ (m : Memory) (a : Nat), (∀ c ∈ m, a < c.1) → m.read a = Memory.unlisted
  | [], _, _ => rfl
  | c :: m, a, h => by
    have h1 : c.1 ≠ a := by have := h c (by simp); omega
    simp only [Memory.read, h1, if_false]
    exact Memory.read_below m a fun d hd => h d (by simp [hd])

/-- Read after write, on canonical memory. -/
theorem Memory.read_write : ∀ (m : Memory), m.wf → ∀ (a b : Nat) (v : Byte),
    (m.write a v).read b = if b = a then v else m.read b
  | [], _, a, b, v => by
    by_cases hv : v = Memory.unlisted
    · simp [Memory.write, hv, Memory.read]
    · by_cases hb : b = a
      · subst hb; simp [Memory.write, hv, Memory.read]
      · simp [Memory.write, hv, Memory.read, hb, Ne.symm hb]
  | c :: m, h, a, b, v => by
    obtain ⟨hs, hn⟩ := h
    rw [List.pairwise_cons] at hs
    have hwf : Memory.wf m := ⟨hs.2, fun d hd => hn d (by simp [hd])⟩
    by_cases h1 : a < c.1
    · have habove : ∀ d ∈ c :: m, a < d.1 := by
        intro d hd
        rcases List.mem_cons.1 hd with rfl | hd
        · exact h1
        · exact h1.trans (hs.1 d hd)
      have hz := Memory.read_below (c :: m) a habove
      by_cases hv : v = Memory.unlisted
      · by_cases hb : b = a
        · subst hb; simp only [Memory.write, h1, if_true, hv]; rw [hz]
        · simp [Memory.write, h1, hv, hb]
      · by_cases hb : b = a
        · subst hb; simp [Memory.write, h1, hv, Memory.read]
        · simp [Memory.write, h1, hv, hb, Memory.read, Ne.symm hb]
    · by_cases h2 : a = c.1
      · subst h2
        have hz := Memory.read_below m c.1 hs.1
        by_cases hv : v = Memory.unlisted
        · by_cases hb : b = c.1
          · subst hb; simp only [Memory.write, lt_irrefl, if_false, hv, if_true]; rw [hz]
          · simp [Memory.write, hv, hb, Memory.read, Ne.symm hb]
        · by_cases hb : b = c.1
          · subst hb; simp [Memory.write, hv, Memory.read]
          · simp [Memory.write, hv, hb, Memory.read, Ne.symm hb]
      · have ih := Memory.read_write m hwf a b v
        simp only [Memory.write, h1, h2, if_false, Memory.read, ih]
        by_cases hcb : c.1 = b
        · have : b ≠ a := by omega
          simp [hcb, this]
        · simp [hcb]

/-- The cells after a write are the written one or old ones. -/
theorem Memory.mem_write : ∀ (m : Memory) (a : Nat) (v : Byte) (c : Host.Cell),
    c ∈ m.write a v → (c = (a, v) ∧ v ≠ Memory.unlisted) ∨ c ∈ m
  | [], a, v, c, h => by
    by_cases hv : v = Memory.unlisted
    · simp [Memory.write, hv] at h
    · simp only [Memory.write, hv, if_false, List.mem_singleton] at h
      exact .inl ⟨h, hv⟩
  | d :: m, a, v, c, h => by
    simp only [Memory.write] at h
    split at h
    · split at h
      · exact .inr h
      · next hv =>
        rcases List.mem_cons.1 h with h | h
        · exact .inl ⟨h, hv⟩
        · exact .inr h
    · split at h
      · split at h
        · exact .inr (by simp [h])
        · next hv =>
          rcases List.mem_cons.1 h with h | h
          · exact .inl ⟨h, hv⟩
          · exact .inr (by simp [h])
      · rcases List.mem_cons.1 h with h | h
        · exact .inr (by simp [h])
        · rcases Memory.mem_write m a v c h with h | h
          · exact .inl h
          · exact .inr (by simp [h])

/-- A write keeps the canonical form. -/
theorem Memory.wf_write : ∀ (m : Memory), m.wf → ∀ (a : Nat) (v : Byte), (m.write a v).wf
  | [], _, a, v => by
    by_cases hv : v = Memory.unlisted
    · simp only [Memory.write, hv, if_true]
      exact ⟨List.Pairwise.nil, by simp⟩
    · simp only [Memory.write, hv, if_false]
      exact ⟨List.pairwise_singleton _ _, by simpa using hv⟩
  | c :: m, h, a, v => by
    obtain ⟨hs, hn⟩ := h
    have hs' := List.pairwise_cons.1 hs
    have hwf : Memory.wf m := ⟨hs'.2, fun d hd => hn d (by simp [hd])⟩
    simp only [Memory.write]
    split
    · next h1 =>
      split
      · exact ⟨hs, hn⟩
      · next hv =>
        refine ⟨List.pairwise_cons.2 ⟨?_, hs⟩, ?_⟩
        · intro d hd
          rcases List.mem_cons.1 hd with rfl | hd
          · exact h1
          · exact h1.trans (hs'.1 d hd)
        · intro d hd
          rcases List.mem_cons.1 hd with rfl | hd
          · exact hv
          · exact hn d hd
    · next h1 =>
      split
      · next h2 =>
        split
        · exact hwf
        · next hv =>
          refine ⟨List.pairwise_cons.2 ⟨?_, hs'.2⟩, ?_⟩
          · intro d hd; rw [h2]; exact hs'.1 d hd
          · intro d hd
            rcases List.mem_cons.1 hd with rfl | hd
            · exact hv
            · exact hwf.2 d hd
      · next h2 =>
        have ih := Memory.wf_write m hwf a v
        refine ⟨List.pairwise_cons.2 ⟨?_, ih.1⟩, ?_⟩
        · intro d hd
          rcases Memory.mem_write m a v d hd with ⟨rfl, _⟩ | hd
          · show c.1 < a; omega
          · exact hs'.1 d hd
        · intro d hd
          rcases List.mem_cons.1 hd with rfl | hd
          · exact hn d (by simp)
          · exact ih.2 d hd

/-- A multi-byte write keeps the canonical form. -/
theorem Memory.wf_writeLE : ∀ (n : Nat) (m : Memory) (a v : Nat), m.wf → (m.writeLE a n v).wf
  | 0, _, _, _, h => h
  | n + 1, m, a, v, h => Memory.wf_writeLE n _ (a + 1) (v / 256) (Memory.wf_write m h a _)

/-- A multi-byte write lists only addresses it wrote or that were listed. -/
theorem Memory.mem_writeLE : ∀ (n : Nat) (m : Memory) (a v : Nat) (c : Host.Cell), c ∈ m.writeLE a n v →
    (a ≤ c.1 ∧ c.1 < a + n) ∨ c ∈ m
  | 0, _, _, _, _, h => .inr h
  | n + 1, m, a, v, c, h => by
    rcases Memory.mem_writeLE n _ (a + 1) (v / 256) c h with h | h
    · exact .inl (by omega)
    · rcases Memory.mem_write m a _ c h with ⟨rfl, _⟩ | h
      · exact .inl ⟨Nat.le_refl a, by show a < a + (n + 1); omega⟩
      · exact .inr h

/-- A multi-byte write leaves every other byte alone. -/
theorem Memory.read_writeLE_outside : ∀ (n : Nat) (m : Memory) (a v b : Nat), m.wf → (b < a ∨ a + n ≤ b) →
    (m.writeLE a n v).read b = m.read b
  | 0, _, _, _, _, _, _ => rfl
  | n + 1, m, a, v, b, h, hb => by
    show ((m.write a _).writeLE (a + 1) n (v / 256)).read b = _
    rw [Memory.read_writeLE_outside n _ (a + 1) (v / 256) b (Memory.wf_write m h a _) (by omega),
      Memory.read_write m h]
    have : b ≠ a := by omega
    simp [this]

/-- Byte `i` of a multi-byte write is byte `i` of the value (R62). -/
theorem Memory.read_writeLE_inside : ∀ (n : Nat) (m : Memory) (a v i : Nat), m.wf → i < n →
    (m.writeLE a n v).read (a + i) = BitVec.ofNat 8 (v / 2 ^ (8 * i))
  | n + 1, m, a, v, 0, h, _ => by
    show ((m.write a _).writeLE (a + 1) n (v / 256)).read (a + 0) = _
    rw [Memory.read_writeLE_outside n _ (a + 1) (v / 256) (a + 0) (Memory.wf_write m h a _) (by omega),
      Memory.read_write m h]
    simp
  | n + 1, m, a, v, i + 1, h, hi => by
    show ((m.write a _).writeLE (a + 1) n (v / 256)).read (a + (i + 1)) = _
    have := Memory.read_writeLE_inside n (m.write a (BitVec.ofNat 8 v)) (a + 1) (v / 256) i
      (Memory.wf_write m h a _) (by omega)
    rw [show a + (i + 1) = a + 1 + i by omega, this, Nat.div_div_eq_div_mul]
    congr 2
    rw [show 8 * (i + 1) = 8 * i + 8 by omega, Nat.pow_add]; omega

/-- A multi-byte read depends only on the bytes it reads. -/
theorem Memory.readLE_congr : ∀ (n : Nat) (m m' : Memory) (a : Nat), (∀ i, i < n → m.read (a + i) = m'.read (a + i)) →
    m.readLE a n = m'.readLE a n
  | 0, _, _, _, _ => rfl
  | n + 1, m, m', a, h => by
    have h0 := h 0 (by omega)
    have ih := Memory.readLE_congr n m m' (a + 1) fun i hi => by
      have := h (i + 1) (by omega)
      rwa [show a + 1 + i = a + (i + 1) by omega]
    simp only [Memory.readLE, ih]
    rw [show m.read a = m'.read a from h0]

/-- A multi-byte read is below 2^(8n). -/
theorem Memory.readLE_lt : ∀ (n : Nat) (m : Memory) (a : Nat), m.readLE a n < 2 ^ (8 * n)
  | 0, _, _ => by simp [Memory.readLE]
  | n + 1, m, a => by
    have ih := Memory.readLE_lt n m (a + 1)
    have hb := (m.read a).isLt
    rw [show 8 * (n + 1) = 8 * n + 8 by omega, Nat.pow_add]
    simp only [Memory.readLE]
    omega

/-- What a multi-byte write wrote, a multi-byte read of the same place reads. -/
theorem Memory.readLE_writeLE : ∀ (n : Nat) (m : Memory) (a v : Nat), m.wf →
    (m.writeLE a n v).readLE a n = v % 2 ^ (8 * n)
  | 0, _, _, _, _ => by simp [Memory.readLE, Nat.mod_one]
  | n + 1, m, a, v, h => by
    have ih := Memory.readLE_writeLE n (m.write a (BitVec.ofNat 8 v)) (a + 1) (v / 256) (Memory.wf_write m h a _)
    have hb : ((m.write a (BitVec.ofNat 8 v)).writeLE (a + 1) n (v / 256)).read a = BitVec.ofNat 8 v := by
      rw [Memory.read_writeLE_outside n _ (a + 1) (v / 256) a (Memory.wf_write m h a _) (by omega),
        Memory.read_write m h]
      simp
    show (((m.write a (BitVec.ofNat 8 v)).writeLE (a + 1) n (v / 256)).read a).toNat +
      256 * ((m.write a (BitVec.ofNat 8 v)).writeLE (a + 1) n (v / 256)).readLE (a + 1) n = _
    rw [hb, ih, BitVec.toNat_ofNat, show 8 * (n + 1) = 8 + 8 * n by omega, Nat.pow_add, Nat.mod_mul]

/-- The high bytes of a multi-byte read are the read of the high bytes. -/
theorem Memory.readLE_add : ∀ (p q : Nat) (m : Memory) (a : Nat),
    m.readLE a (p + q) = m.readLE a p + 2 ^ (8 * p) * m.readLE (a + p) q
  | 0, q, m, a => by simp [Memory.readLE]
  | p + 1, q, m, a => by
    have ih := Memory.readLE_add p q m (a + 1)
    rw [show p + 1 + q = (p + q) + 1 by omega]
    simp only [Memory.readLE, ih]
    rw [show 8 * (p + 1) = 8 * p + 8 by omega, Nat.pow_add, show a + 1 + p = a + (p + 1) by omega]
    ring

/-- Bytes `j` to `j + k` of a multi-byte read (R172). -/
theorem Memory.readLE_slice (m : Memory) (a j k q : Nat) :
    m.readLE a (j + (k + q)) / 2 ^ (8 * j) % 2 ^ (8 * k) = m.readLE (a + j) k := by
  have h1 := Memory.readLE_lt j m a
  rw [Memory.readLE_add j (k + q) m a, Nat.add_mul_div_left _ _ (by positivity), Nat.div_eq_of_lt h1, Nat.zero_add,
    Memory.readLE_add k q m (a + j), Nat.add_mul_mod_self_left, Nat.mod_eq_of_lt (Memory.readLE_lt k m (a + j))]

end Sys2Proof.Machine
end

