-- ==== Sys2Proof/Laws/State.lean ====
section
/-! SUPPORT. One lemma per field per update of the state, so that no proof unfolds a record update. -/

namespace Sys2Proof.Machine

variable (s : State) (e t : Nat)

@[simp] theorem modifyEngine_platform (f : Engine → Engine) : (s.modifyEngine e f).platform = s.platform := rfl
@[simp] theorem modifyEngine_engines (f : Engine → Engine) :
    (s.modifyEngine e f).engines = s.engines.modify e f := rfl
@[simp] theorem modifyEngine_mem (f : Engine → Engine) : (s.modifyEngine e f).mem = s.mem := rfl
@[simp] theorem modifyEngine_unseen (f : Engine → Engine) : (s.modifyEngine e f).unseen = s.unseen := rfl
@[simp] theorem modifyEngine_threads (f : Engine → Engine) : (s.modifyEngine e f).threads = s.threads := rfl
@[simp] theorem modifyEngine_sched (f : Engine → Engine) : (s.modifyEngine e f).sched = s.sched := rfl
@[simp] theorem modifyEngine_faults (f : Engine → Engine) : (s.modifyEngine e f).faults = s.faults := rfl
@[simp] theorem modifyEngine_port (f : Engine → Engine) : (s.modifyEngine e f).port = s.port := rfl
@[simp] theorem modifyEngine_draws (f : Engine → Engine) : (s.modifyEngine e f).draws = s.draws := rfl

@[simp] theorem modifyThread_platform (f : Thread → Thread) : (s.modifyThread t f).platform = s.platform := rfl
@[simp] theorem modifyThread_engines (f : Thread → Thread) : (s.modifyThread t f).engines = s.engines := rfl
@[simp] theorem modifyThread_mem (f : Thread → Thread) : (s.modifyThread t f).mem = s.mem := rfl
@[simp] theorem modifyThread_unseen (f : Thread → Thread) : (s.modifyThread t f).unseen = s.unseen := rfl
@[simp] theorem modifyThread_threads (f : Thread → Thread) :
    (s.modifyThread t f).threads = s.threads.modify t f := rfl
@[simp] theorem modifyThread_sched (f : Thread → Thread) : (s.modifyThread t f).sched = s.sched := rfl
@[simp] theorem modifyThread_faults (f : Thread → Thread) : (s.modifyThread t f).faults = s.faults := rfl
@[simp] theorem modifyThread_port (f : Thread → Thread) : (s.modifyThread t f).port = s.port := rfl
@[simp] theorem modifyThread_draws (f : Thread → Thread) : (s.modifyThread t f).draws = s.draws := rfl

@[simp] theorem advance_platform : (s.advance t).platform = s.platform := rfl
@[simp] theorem advance_engines : (s.advance t).engines = s.engines := rfl
@[simp] theorem advance_mem : (s.advance t).mem = s.mem := rfl
@[simp] theorem advance_unseen : (s.advance t).unseen = s.unseen := rfl
@[simp] theorem advance_threads : (s.advance t).threads = s.threads.modify t Thread.advance := rfl
@[simp] theorem advance_sched : (s.advance t).sched = s.sched := rfl
@[simp] theorem advance_faults : (s.advance t).faults = s.faults := rfl
@[simp] theorem advance_port : (s.advance t).port = s.port := rfl
@[simp] theorem advance_draws : (s.advance t).draws = s.draws := rfl

@[simp] theorem assign_platform (x : Nat) (v : Int) : (s.assign t x v).platform = s.platform := rfl
@[simp] theorem assign_engines (x : Nat) (v : Int) : (s.assign t x v).engines = s.engines := rfl
@[simp] theorem assign_mem (x : Nat) (v : Int) : (s.assign t x v).mem = s.mem := rfl
@[simp] theorem assign_unseen (x : Nat) (v : Int) : (s.assign t x v).unseen = s.unseen := rfl
@[simp] theorem assign_sched (x : Nat) (v : Int) : (s.assign t x v).sched = s.sched := rfl
@[simp] theorem assign_faults (x : Nat) (v : Int) : (s.assign t x v).faults = s.faults := rfl
@[simp] theorem assign_port (x : Nat) (v : Int) : (s.assign t x v).port = s.port := rfl
@[simp] theorem assign_draws (x : Nat) (v : Int) : (s.assign t x v).draws = s.draws := rfl

@[simp] theorem atPort_platform (w : Word) : (s.atPort t e w).platform = s.platform := rfl
@[simp] theorem atPort_engines (w : Word) : (s.atPort t e w).engines = s.engines := rfl
@[simp] theorem atPort_mem (w : Word) : (s.atPort t e w).mem = s.mem := rfl
@[simp] theorem atPort_unseen (w : Word) : (s.atPort t e w).unseen = s.unseen := rfl
@[simp] theorem atPort_threads (w : Word) : (s.atPort t e w).threads = s.threads := rfl
@[simp] theorem atPort_sched (w : Word) : (s.atPort t e w).sched = s.sched := rfl
@[simp] theorem atPort_faults (w : Word) : (s.atPort t e w).faults = s.faults := rfl
@[simp] theorem atPort_port (w : Word) : (s.atPort t e w).port = ⟨t, e, w⟩ := rfl
@[simp] theorem atPort_draws (w : Word) : (s.atPort t e w).draws = s.draws := rfl
@[simp] theorem atPort_engine? (w : Word) (k : Nat) : (s.atPort t e w).engine? k = s.engine? k := rfl

@[simp] theorem openCommand_platform (i : Instr) : (s.openCommand i).platform = s.platform := rfl
@[simp] theorem openCommand_engines (i : Instr) :
    (s.openCommand i).engines =
      s.engines.modify s.port.engine fun g => { g with status := .busy ⟨i, s.port.word, s.port.thread, none⟩ } := rfl
@[simp] theorem openCommand_mem (i : Instr) : (s.openCommand i).mem = s.mem := rfl
@[simp] theorem openCommand_unseen (i : Instr) : (s.openCommand i).unseen = s.unseen := rfl
@[simp] theorem openCommand_threads (i : Instr) :
    (s.openCommand i).threads =
      s.threads.modify s.port.thread fun th => { th with status := .waiting s.port.engine } := rfl
@[simp] theorem openCommand_sched (i : Instr) : (s.openCommand i).sched = s.sched := rfl
@[simp] theorem openCommand_faults (i : Instr) : (s.openCommand i).faults = s.faults := rfl
@[simp] theorem openCommand_port (i : Instr) : (s.openCommand i).port = s.port := rfl
@[simp] theorem openCommand_draws (i : Instr) : (s.openCommand i).draws = s.draws := rfl

variable (acc : Access) (f : CommandFault)

@[simp] theorem raiseFault_platform : (s.raiseFault e t acc f).platform = s.platform := rfl
@[simp] theorem raiseFault_engines :
    (s.raiseFault e t acc f).engines =
      s.engines.modify e fun g => { g with status := g.status.afterFault f } := rfl
@[simp] theorem raiseFault_mem : (s.raiseFault e t acc f).mem = s.mem := rfl
@[simp] theorem raiseFault_unseen : (s.raiseFault e t acc f).unseen = s.unseen := rfl
@[simp] theorem raiseFault_threads :
    (s.raiseFault e t acc f).threads = s.threads.modify t fun th => { th with status := .stopped } := rfl
@[simp] theorem raiseFault_sched : (s.raiseFault e t acc f).sched = s.sched := rfl
@[simp] theorem raiseFault_faults :
    (s.raiseFault e t acc f).faults = s.faults ++ [(⟨e, t, acc, f⟩ : FaultRecord)] := rfl
@[simp] theorem raiseFault_port : (s.raiseFault e t acc f).port = s.port := rfl
@[simp] theorem raiseFault_draws : (s.raiseFault e t acc f).draws = s.draws := rfl

@[simp] theorem writeArg_status (g : Engine) (r : ArgReg) (v : DWord) : (g.writeArg r v).status = g.status := rfl
@[simp] theorem writeArg_datapath (g : Engine) (r : ArgReg) (v : DWord) :
    (g.writeArg r v).datapath = g.datapath := rfl
@[simp] theorem writeArg_args (g : Engine) (r : ArgReg) (v : DWord) : (g.writeArg r v).args = g.args.set v r := rfl
@[simp] theorem writeArg_written (g : Engine) (r : ArgReg) (v : DWord) :
    (g.writeArg r v).written = g.written.mark r := rfl

/-- A command that met no fault leaves its engine idle (R43). -/
@[simp] theorem after_none (i : Instr) (w : Word) (t : Nat) : (PendingCommand.mk i w t none).after = .idle := rfl
/-- A command during which a register operation faulted leaves its engine faulted (R312, log 11). -/
@[simp] theorem after_some (i : Instr) (w : Word) (t : Nat) (f : CommandFault) :
    (PendingCommand.mk i w t (some f)).after = .faulted f := rfl

/-- The engine ends with the fault it held. -/
@[simp] theorem heldFault_after (p : PendingCommand) : p.after.heldFault = p.fault := by
  cases h : p.fault <;> simp [PendingCommand.after, EngineStatus.heldFault, h]

/-- A fault leaves an engine holding a fault: the one just raised, or the one it already held (log 11). -/
theorem heldFault_afterFault (x : EngineStatus) (f : CommandFault) :
    (x.afterFault f).heldFault = some f ∨ (x.afterFault f).heldFault = x.heldFault ∧ x.heldFault ≠ none := by
  cases x with
  | idle => exact .inl rfl
  | faulted g => exact .inr ⟨rfl, by simp [EngineStatus.heldFault]⟩
  | busy p => cases f <;> cases h : p.fault <;> simp [EngineStatus.afterFault, EngineStatus.heldFault, h]

/-! ### Engines and threads by number -/

theorem engine?_modifyEngine (k : Nat) (f : Engine → Engine) :
    (s.modifyEngine e f).engine? k = if e = k then (s.engine? k).map f else s.engine? k := by
  simp only [State.engine?, modifyEngine_engines, List.getElem?_modify]
  split <;> simp

theorem engine?_raiseFault (k : Nat) :
    (s.raiseFault e t acc f).engine? k =
      if e = k then (s.engine? k).map (fun g => { g with status := g.status.afterFault f }) else s.engine? k := by
  simp only [State.engine?, raiseFault_engines, List.getElem?_modify]
  split <;> simp

theorem engine?_openCommand (i : Instr) (k : Nat) :
    (s.openCommand i).engine? k =
      if s.port.engine = k then
        (s.engine? k).map fun g => { g with status := .busy ⟨i, s.port.word, s.port.thread, none⟩ }
      else s.engine? k := by
  simp only [State.engine?, openCommand_engines, List.getElem?_modify]
  split <;> simp

/-! ### A look at memory changes what its thread sees, and the draw counter -/

variable (a n : Nat)

/-- Everything a look can do: nothing where the thread sees every write, else one draw of `HOST_MM` (R83). -/
theorem look_cases :
    (s.look t a n = s ∧ ∀ u ∈ s.unseen, u.thread = t → u.within a n = false) ∨
      (s.look t a n = { s with unseen := lookAt t s.draws a n s.unseen, draws := s.draws + 1 } ∧
        ∃ u ∈ s.unseen, u.thread = t ∧ u.within a n = true) := by
  unfold State.look
  split
  · next h =>
    simp only [List.any_eq_true, Bool.and_eq_true, decide_eq_true_eq] at h
    obtain ⟨u, hu, ht, hw⟩ := h
    exact .inr ⟨rfl, u, hu, ht, hw⟩
  · next h =>
    simp only [List.any_eq_true, Bool.and_eq_true, decide_eq_true_eq, not_exists, not_and, Bool.not_eq_true] at h
    exact .inl ⟨rfl, h⟩

@[simp] theorem look_platform : (s.look t a n).platform = s.platform := by unfold State.look; split <;> rfl
@[simp] theorem look_engines : (s.look t a n).engines = s.engines := by unfold State.look; split <;> rfl
@[simp] theorem look_mem : (s.look t a n).mem = s.mem := by unfold State.look; split <;> rfl
@[simp] theorem look_threads : (s.look t a n).threads = s.threads := by unfold State.look; split <;> rfl
@[simp] theorem look_sched : (s.look t a n).sched = s.sched := by unfold State.look; split <;> rfl
@[simp] theorem look_faults : (s.look t a n).faults = s.faults := by unfold State.look; split <;> rfl
@[simp] theorem look_port : (s.look t a n).port = s.port := by unfold State.look; split <;> rfl

/-! ### Races raised one after another -/

/-- Raising races changes only the engines, the threads and the record, which it extends. -/
theorem raiseRaces_spec (other : Agent) (l : List (Nat × PendingCommand × Nat)) :
    ∀ s : State, (s.raiseRaces other l).platform = s.platform ∧ (s.raiseRaces other l).mem = s.mem ∧
      (s.raiseRaces other l).sched = s.sched ∧ (s.raiseRaces other l).port = s.port ∧
      (s.raiseRaces other l).draws = s.draws ∧
      (s.raiseRaces other l).engines.length = s.engines.length ∧
      s.faults <+: (s.raiseRaces other l).faults := by
  induction l with
  | nil => intro s; simp [State.raiseRaces]
  | cons c rest ih =>
    intro s
    obtain ⟨h1, h2, h3, h4, h5, h6, h7⟩ :=
      ih (s.raiseFault c.1 c.2.1.thread (.command c.2.1.word) (.dataRace other c.2.2))
    refine ⟨h1, h2, h3, h4, h5, ?_, ?_⟩
    · exact h6.trans (by simp)
    · exact (List.prefix_append _ _).trans h7

@[simp] theorem raiseRaces_platform (o : Agent) (l : List (Nat × PendingCommand × Nat)) :
    (s.raiseRaces o l).platform = s.platform := (raiseRaces_spec o l s).1
@[simp] theorem raiseRaces_mem (o : Agent) (l : List (Nat × PendingCommand × Nat)) :
    (s.raiseRaces o l).mem = s.mem := (raiseRaces_spec o l s).2.1
@[simp] theorem raiseRaces_sched (o : Agent) (l : List (Nat × PendingCommand × Nat)) :
    (s.raiseRaces o l).sched = s.sched := (raiseRaces_spec o l s).2.2.1
@[simp] theorem raiseRaces_port (o : Agent) (l : List (Nat × PendingCommand × Nat)) :
    (s.raiseRaces o l).port = s.port := (raiseRaces_spec o l s).2.2.2.1
@[simp] theorem raiseRaces_draws (o : Agent) (l : List (Nat × PendingCommand × Nat)) :
    (s.raiseRaces o l).draws = s.draws := (raiseRaces_spec o l s).2.2.2.2.1
@[simp] theorem raiseRaces_engines_length (o : Agent) (l : List (Nat × PendingCommand × Nat)) :
    (s.raiseRaces o l).engines.length = s.engines.length := (raiseRaces_spec o l s).2.2.2.2.2.1
/-- A fault changes no argument register and no `written` bit (R42, R45). -/
theorem raiseFault_registers :
    (s.raiseFault e t acc f).engines.map Engine.args = s.engines.map Engine.args ∧
      (s.raiseFault e t acc f).engines.map Engine.written = s.engines.map Engine.written := by
  constructor <;>
    · apply List.ext_getElem?
      intro k
      simp only [raiseFault_engines, List.getElem?_map, List.getElem?_modify]
      split <;> cases s.engines[k]? <;> rfl

/-- Nor do races raised one after another (R42, R45, R84). -/
theorem raiseRaces_registers (o : Agent) (l : List (Nat × PendingCommand × Nat)) :
    ∀ s : State, (s.raiseRaces o l).engines.map Engine.args = s.engines.map Engine.args ∧
      (s.raiseRaces o l).engines.map Engine.written = s.engines.map Engine.written := by
  induction l with
  | nil => intro s; exact ⟨rfl, rfl⟩
  | cons c rest ih =>
    intro s
    obtain ⟨args, written⟩ := ih (s.raiseFault c.1 c.2.1.thread (.command c.2.1.word) (.dataRace o c.2.2))
    obtain ⟨args1, written1⟩ := raiseFault_registers s c.1 c.2.1.thread (.command c.2.1.word) (.dataRace o c.2.2)
    exact ⟨args.trans args1, written.trans written1⟩

@[simp] theorem raiseRaces_unseen (o : Agent) (l : List (Nat × PendingCommand × Nat)) :
    ∀ s : State, (s.raiseRaces o l).unseen = s.unseen := by
  induction l with
  | nil => intro s; rfl
  | cons c rest ih => intro s; exact ih _
theorem raiseRaces_faults_prefix (o : Agent) (l : List (Nat × PendingCommand × Nat)) :
    s.faults <+: (s.raiseRaces o l).faults := (raiseRaces_spec o l s).2.2.2.2.2.2

end Sys2Proof.Machine
end

