-- ==== Sys2Proof/Laws/Command.lean ====
section
/-! SUPPORT. What a command can do: one lemma per shared operation of Machine/Command.lean. -/

namespace Sys2Proof.Machine

/-- Every command's meaning is the shared run of its own walk. -/
theorem exec_eq_runCommand (i : Instr) (s : State) : exec i s = runCommand i s := by cases i <;> rfl

/-- A CMD write needs an idle engine; otherwise it is refused, recorded as BAD_REG_ACCESS, or stuck. -/
theorem onIdleEngine_idle {s : State} {g : Engine} (hg : s.engine? s.port.engine = some g) (hi : g.status = .idle)
    (k : Engine → Host.Outcome State Fault Refusal) : onIdleEngine s k = k g := by
  simp [onIdleEngine, hg, hi]

theorem onIdleEngine_next {s t : State} {k : Engine → Host.Outcome State Fault Refusal}
    (h : onIdleEngine s k = .next t) :
    ∃ g, s.engine? s.port.engine = some g ∧
      ((g.status = .idle ∧ k g = .next t) ∨
        (g.isBusy = true ∧
          t = s.raiseFault s.port.engine s.port.thread (.command s.port.word) (.badRegAccess 0 4))) := by
  unfold onIdleEngine at h
  split at h
  · cases h
  · next g hg =>
    refine ⟨g, hg, ?_⟩
    split at h
    · next hst => exact .inl ⟨hst, h⟩
    · next p hst =>
      refine .inr ⟨by simp [Engine.isBusy, hst], ?_⟩
      injection h with h; exact h.symm
    · cases h

/-- The state of two commands racing: every open command that conflicts, then the new one (R84). -/
def raceState (s : State) (l : List (Nat × PendingCommand × Nat)) (e a : Nat) : State :=
  (s.raiseRaces (.engine s.port.engine) l).raiseFault s.port.engine s.port.thread (.command s.port.word)
    (.dataRace (.engine e) a)

/-- Everything a CMD write of a valid word can do. -/
theorem startCommand_next {i : Instr} {s t : State} {started : State → Host.Outcome State Fault Refusal}
    (h : startCommand i s started = .next t) :
    ∃ g, s.engine? s.port.engine = some g ∧
      ((g.isBusy = true ∧
          t = s.raiseFault s.port.engine s.port.thread (.command s.port.word) (.badRegAccess 0 4)) ∨
        (g.status = .idle ∧ ∃ f, startFault s.platform g i s.port.word = some f ∧
          t = s.raiseFault s.port.engine s.port.thread (.command s.port.word) f) ∨
        (g.status = .idle ∧ startFault s.platform g i s.port.word = none ∧
          ∃ e p a rest, conflictsFrom s.port.engine (footprint i g.args) 0 s.engines = (e, p, a) :: rest ∧
            t = raceState s ((e, p, a) :: rest) e a) ∨
        (g.status = .idle ∧ startFault s.platform g i s.port.word = none ∧
          conflictsFrom s.port.engine (footprint i g.args) 0 s.engines = [] ∧
          started (s.openCommand i) = .next t)) := by
  obtain ⟨g, hg, ⟨hst, h⟩ | ⟨hb, rfl⟩⟩ := onIdleEngine_next h
  · refine ⟨g, hg, ?_⟩
    split at h
    · next f hf =>
      injection h with h
      exact .inr (.inl ⟨hst, f, hf, h.symm⟩)
    · next hf =>
      split at h
      · next hc => exact .inr (.inr (.inr ⟨hst, hf, hc, h⟩))
      · next e p a rest hc =>
        injection h with h
        exact .inr (.inr (.inl ⟨hst, hf, e, p, a, rest, hc, h.symm⟩))
  · exact ⟨g, hg, .inl ⟨hb, rfl⟩⟩

/-- A legal race-free CMD write to an idle engine opens the command. -/
theorem startCommand_started {i : Instr} {s : State} {g : Engine} (hg : s.engine? s.port.engine = some g)
    (hi : g.status = .idle) (hf : startFault s.platform g i s.port.word = none)
    (hc : conflictsFrom s.port.engine (footprint i g.args) 0 s.engines = [])
    (started : State → Host.Outcome State Fault Refusal) :
    startCommand i s started = started (s.openCommand i) := by
  simp [startCommand, onIdleEngine_idle hg hi, hf, hc]

/-! ### Completing a command -/

theorem finishCommand_busy {e : Nat} {s : State} {g : Engine} {p : PendingCommand} (hg : s.engine? e = some g)
    (hp : g.status = .busy p) :
    finishCommand e s =
      (({ s with
          mem := writeResult p.instr (commandInputs p.instr s.mem (commandArgs p.instr.planes g.args)) s.mem
            (commandArgs p.instr.planes g.args).out
            (kernelOf p.instr s.mem (commandArgs p.instr.planes g.args) g.datapath).2
          unseen := hideWrite s.mem p.thread s.threads.length (commandArgs p.instr.planes g.args).out
            (recordBytes p.instr.planes) s.unseen }).modifyEngine e
        fun g' => { g' with
          status := p.after
          datapath := (kernelOf p.instr s.mem (commandArgs p.instr.planes g.args) g.datapath).1 }).advance
        p.thread := by
  simp [finishCommand, hg, hp]

theorem finishCommand_not_busy {e : Nat} {s : State} (h : ∀ g, s.engine? e = some g → g.isBusy = false) :
    finishCommand e s = s := by
  unfold finishCommand
  split
  · rfl
  · next g hg =>
    split
    · next p hp => have := h g hg; simp [Engine.isBusy, hp] at this
    · rfl

/-- Completing a command changes memory and who sees it, its engine and its thread only. -/
theorem finishCommand_frame (e : Nat) (s : State) :
    (finishCommand e s).platform = s.platform ∧ (finishCommand e s).sched = s.sched ∧
      (finishCommand e s).faults = s.faults ∧ (finishCommand e s).port = s.port ∧
      (finishCommand e s).draws = s.draws ∧ (finishCommand e s).engines.length = s.engines.length := by
  unfold finishCommand
  split
  · simp
  · split
    · simp
    · simp

@[simp] theorem finishCommand_platform (e : Nat) (s : State) : (finishCommand e s).platform = s.platform :=
  (finishCommand_frame e s).1
@[simp] theorem finishCommand_sched (e : Nat) (s : State) : (finishCommand e s).sched = s.sched :=
  (finishCommand_frame e s).2.1
@[simp] theorem finishCommand_faults (e : Nat) (s : State) : (finishCommand e s).faults = s.faults :=
  (finishCommand_frame e s).2.2.1
@[simp] theorem finishCommand_port (e : Nat) (s : State) : (finishCommand e s).port = s.port :=
  (finishCommand_frame e s).2.2.2.1
@[simp] theorem finishCommand_draws (e : Nat) (s : State) : (finishCommand e s).draws = s.draws :=
  (finishCommand_frame e s).2.2.2.2.1
@[simp] theorem finishCommand_engines_length (e : Nat) (s : State) :
    (finishCommand e s).engines.length = s.engines.length := (finishCommand_frame e s).2.2.2.2.2

/-- Completing engine `e`'s command: every other engine is as before, and `e` keeps its argument registers. -/
theorem engine?_finishCommand (e k : Nat) (s : State) (g' : Engine) (h : (finishCommand e s).engine? k = some g') :
    ∃ g, s.engine? k = some g ∧ g'.args = g.args ∧ g'.written = g.written ∧
      (g' = g ∨ (e = k ∧ ∃ p, g.status = .busy p ∧ g'.status = p.after)) := by
  by_cases hb : ∃ g p, s.engine? e = some g ∧ g.status = .busy p
  · obtain ⟨g, p, hg, hp⟩ := hb
    rw [finishCommand_busy hg hp] at h
    simp only [State.engine?, advance_engines, modifyEngine_engines, List.getElem?_modify] at h
    by_cases hk : e = k
    · subst hk
      simp only [State.engine?] at hg
      simp only [hg, if_true, Option.map_eq_map, Option.map_some, Option.some.injEq] at h
      subst h
      exact ⟨g, hg, rfl, rfl, .inr ⟨rfl, p, hp, rfl⟩⟩
    · simp [hk] at h
      exact ⟨g', h, rfl, rfl, .inl rfl⟩
  · have : finishCommand e s = s := finishCommand_not_busy fun g hg => by
      cases hst : g.status with
      | busy p => exact absurd ⟨g, p, hg, hst⟩ hb
      | idle => simp [Engine.isBusy, hst]
      | faulted f => simp [Engine.isBusy, hst]
    rw [this] at h
    exact ⟨g', h, rfl, rfl, .inl rfl⟩

/-- Opening a command changes no argument register and no `written` bit (R43, R45). -/
theorem openCommand_registers (i : Instr) (s : State) :
    (s.openCommand i).engines.map Engine.args = s.engines.map Engine.args ∧
      (s.openCommand i).engines.map Engine.written = s.engines.map Engine.written := by
  constructor <;>
    · apply List.ext_getElem?
      intro k
      simp only [openCommand_engines, List.getElem?_map, List.getElem?_modify]
      split <;> cases s.engines[k]? <;> rfl

/-- Nor does completing one (R45). -/
theorem finishCommand_registers (e : Nat) (s : State) :
    (finishCommand e s).engines.map Engine.args = s.engines.map Engine.args ∧
      (finishCommand e s).engines.map Engine.written = s.engines.map Engine.written := by
  unfold finishCommand
  split
  · exact ⟨rfl, rfl⟩
  · split
    · constructor <;>
        · apply List.ext_getElem?
          intro k
          simp only [advance_engines, modifyEngine_engines, List.getElem?_map, List.getElem?_modify]
          split <;> cases s.engines[k]? <;> rfl
    · exact ⟨rfl, rfl⟩

/-- The record's cells are the only ones a completion can add. -/
theorem mem_writeResult (i : Instr) (inp : CommandInputs) (m : Memory) (out : Nat) (res : KernelResult)
    (c : Host.Cell) (h : c ∈ writeResult i inp m out res) :
    (out ≤ c.1 ∧ c.1 < out + recordBytes i.planes) ∨ c ∈ m := by
  have three : ∀ c : Host.Cell, c ∈ (((m.writeLE out 4 res.mn.toNat).writeLE (out + 4) 4 res.mx.toNat).writeLE
      (out + 8) 8 (sumBits i.format inp res.sm).toNat) → (out ≤ c.1 ∧ c.1 < out + 16) ∨ c ∈ m := by
    intro c h
    rcases Memory.mem_writeLE _ _ _ _ _ h with h | h
    · exact .inl (by omega)
    rcases Memory.mem_writeLE _ _ _ _ _ h with h | h
    · exact .inl (by omega)
    rcases Memory.mem_writeLE _ _ _ _ _ h with h | h
    · exact .inl (by omega)
    exact .inr h
  unfold writeResult at h
  cases hP : i.planes <;> simp only [hP] at h <;> simp only [recordBytes]
  · exact three c h
  · rcases Memory.mem_writeLE _ _ _ _ _ h with h | h
    · exact .inl (by omega)
    · rcases three c h with h | h
      · exact .inl (by omega)
      · exact .inr h

theorem wf_writeResult (i : Instr) (inp : CommandInputs) (m : Memory) (out : Nat) (res : KernelResult)
    (h : m.wf) : (writeResult i inp m out res).wf := by
  have three := Memory.wf_writeLE 8 _ (out + 8) (sumBits i.format inp res.sm).toNat
    (Memory.wf_writeLE 4 _ (out + 4) res.mx.toNat (Memory.wf_writeLE 4 m out res.mn.toNat h))
  unfold writeResult
  cases i.planes
  · exact three
  · exact Memory.wf_writeLE 8 _ _ _ three

/-- WRITE_RESULT leaves every byte outside the record alone (R69, R139). -/
theorem read_writeResult_outside (i : Instr) (inp : CommandInputs) (m : Memory) (out : Nat) (res : KernelResult)
    (a : Nat) (h : m.wf) (ha : a < out ∨ out + recordBytes i.planes ≤ a) :
    (writeResult i inp m out res).read a = m.read a := by
  have h1 := Memory.wf_writeLE 4 m out res.mn.toNat h
  have h2 := Memory.wf_writeLE 4 _ (out + 4) res.mx.toNat h1
  have h3 := Memory.wf_writeLE 8 _ (out + 8) (sumBits i.format inp res.sm).toNat h2
  have three : (((m.writeLE out 4 res.mn.toNat).writeLE (out + 4) 4 res.mx.toNat).writeLE
      (out + 8) 8 (sumBits i.format inp res.sm).toNat).read a = m.read a := by
    have ha : a < out ∨ out + 16 ≤ a := by
      revert ha; cases i.planes <;> simp only [recordBytes] <;> omega
    rw [Memory.read_writeLE_outside _ _ _ _ _ h2 (by omega), Memory.read_writeLE_outside _ _ _ _ _ h1 (by omega),
      Memory.read_writeLE_outside _ _ _ _ _ h (by omega)]
  unfold writeResult
  cases hP : i.planes
  · exact three
  · rw [hP] at ha
    simp only [recordBytes] at ha
    rw [Memory.read_writeLE_outside _ _ _ _ _ h3 (by omega)]
    exact three

/-- The record's fields are where R70 puts them. -/
theorem writeResult_fields (i : Instr) (inp : CommandInputs) (m : Memory) (out : Nat) (res : KernelResult)
    (h : m.wf) :
    (writeResult i inp m out res).readLE out 4 = res.mn.toNat ∧
      (writeResult i inp m out res).readLE (out + 4) 4 = res.mx.toNat ∧
      (writeResult i inp m out res).readLE (out + 8) 8 = (sumBits i.format inp res.sm).toNat ∧
      (i.planes = .two →
        (writeResult i inp m out res).readLE (out + 16) 8 = (sumBits i.format inp res.df).toNat) := by
  have h1 := Memory.wf_writeLE 4 m out res.mn.toNat h
  have h2 := Memory.wf_writeLE 4 _ (out + 4) res.mx.toNat h1
  have h3 := Memory.wf_writeLE 8 _ (out + 8) (sumBits i.format inp res.sm).toNat h2
  have keep : ∀ (n m' : Nat) (mm : Memory) (b v a k : Nat), mm.wf → (a + k ≤ b) →
      (mm.writeLE b n v).readLE a k = mm.readLE a k := by
    intro n _ mm b v a k hw hle
    exact Memory.readLE_congr k _ _ a fun j hj => Memory.read_writeLE_outside n mm b v (a + j) hw (by omega)
  have e1 : ((m.writeLE out 4 res.mn.toNat).writeLE (out + 4) 4 res.mx.toNat).readLE out 4 = res.mn.toNat := by
    rw [keep 4 0 _ _ _ _ _ h1 (by omega), Memory.readLE_writeLE 4 m _ _ h]
    exact Nat.mod_eq_of_lt res.mn.isLt
  have e2 : ((m.writeLE out 4 res.mn.toNat).writeLE (out + 4) 4 res.mx.toNat).readLE (out + 4) 4 = res.mx.toNat := by
    rw [Memory.readLE_writeLE 4 _ _ _ h1]
    exact Nat.mod_eq_of_lt res.mx.isLt
  have e3 := Memory.readLE_writeLE 8 _ (out + 8) (sumBits i.format inp res.sm).toNat h2
  rw [Nat.mod_eq_of_lt (show (sumBits i.format inp res.sm).toNat < 2 ^ (8 * 8) from (sumBits i.format inp res.sm).isLt)] at e3
  have e4 := Memory.readLE_writeLE 8 _ (out + 16) (sumBits i.format inp res.df).toNat h3
  rw [Nat.mod_eq_of_lt (show (sumBits i.format inp res.df).toNat < 2 ^ (8 * 8) from (sumBits i.format inp res.df).isLt)] at e4
  unfold writeResult
  cases i.planes
  · refine ⟨?_, ?_, e3, by simp⟩
    · rw [keep 8 0 _ _ _ _ _ h2 (by omega), e1]
    · rw [keep 8 0 _ _ _ _ _ h2 (by omega), e2]
  · refine ⟨?_, ?_, ?_, fun _ => e4⟩
    · rw [keep 8 0 _ _ _ _ _ h3 (by omega), keep 8 0 _ _ _ _ _ h2 (by omega), e1]
    · rw [keep 8 0 _ _ _ _ _ h3 (by omega), keep 8 0 _ _ _ _ _ h2 (by omega), e2]
    · rw [keep 8 0 _ _ _ _ _ h3 (by omega), e3]

end Sys2Proof.Machine
end

