-- ==== Sys2Proof/Laws/PerInstr.lean ====
section
/-! SUPPORT. One family of statements per instruction: the syntax of a command and its word agree. -/

namespace Sys2Proof.Laws.EncodingRoundTrip

open Sys2Proof

/-- The command is the one of its three selectors, it is well formed, its word names it, and the word's selector
fields are the command's (30_encoding.md R101 to R105). -/
def Statement (i : Instr) : Prop :=
  i.wellFormed = true ∧ i = instrOf i.format i.planes i.tier ∧ decode (encode i) = .ok i ∧
    formatOf (wordFmt (encode i)) = some i.format ∧ planesOf (wordP2 (encode i)) = i.planes ∧
    tierOf (wordTier (encode i)) = some i.tier ∧ wordRsv (encode i) = 0 ∧ wordOp (encode i) = 0

theorem pstat1U8Sc : Statement .pstat1U8Sc := ⟨rfl, rfl, by decide, by decide, by decide, by decide, by decide, by decide⟩
theorem pstat1U16Sc : Statement .pstat1U16Sc := ⟨rfl, rfl, by decide, by decide, by decide, by decide, by decide, by decide⟩
theorem pstat1F32Sc : Statement .pstat1F32Sc := ⟨rfl, rfl, by decide, by decide, by decide, by decide, by decide, by decide⟩
theorem pstat2U8Sc : Statement .pstat2U8Sc := ⟨rfl, rfl, by decide, by decide, by decide, by decide, by decide, by decide⟩
theorem pstat2U16Sc : Statement .pstat2U16Sc := ⟨rfl, rfl, by decide, by decide, by decide, by decide, by decide, by decide⟩
theorem pstat2F32Sc : Statement .pstat2F32Sc := ⟨rfl, rfl, by decide, by decide, by decide, by decide, by decide, by decide⟩
theorem pstat1U8V128 : Statement .pstat1U8V128 := ⟨rfl, rfl, by decide, by decide, by decide, by decide, by decide, by decide⟩
theorem pstat1U16V128 : Statement .pstat1U16V128 := ⟨rfl, rfl, by decide, by decide, by decide, by decide, by decide, by decide⟩
theorem pstat1F32V128 : Statement .pstat1F32V128 := ⟨rfl, rfl, by decide, by decide, by decide, by decide, by decide, by decide⟩
theorem pstat2U8V128 : Statement .pstat2U8V128 := ⟨rfl, rfl, by decide, by decide, by decide, by decide, by decide, by decide⟩
theorem pstat2U16V128 : Statement .pstat2U16V128 := ⟨rfl, rfl, by decide, by decide, by decide, by decide, by decide, by decide⟩
theorem pstat2F32V128 : Statement .pstat2F32V128 := ⟨rfl, rfl, by decide, by decide, by decide, by decide, by decide, by decide⟩
theorem pstat1U8V256 : Statement .pstat1U8V256 := ⟨rfl, rfl, by decide, by decide, by decide, by decide, by decide, by decide⟩
theorem pstat1U16V256 : Statement .pstat1U16V256 := ⟨rfl, rfl, by decide, by decide, by decide, by decide, by decide, by decide⟩
theorem pstat1F32V256 : Statement .pstat1F32V256 := ⟨rfl, rfl, by decide, by decide, by decide, by decide, by decide, by decide⟩
theorem pstat2U8V256 : Statement .pstat2U8V256 := ⟨rfl, rfl, by decide, by decide, by decide, by decide, by decide, by decide⟩
theorem pstat2U16V256 : Statement .pstat2U16V256 := ⟨rfl, rfl, by decide, by decide, by decide, by decide, by decide, by decide⟩
theorem pstat2F32V256 : Statement .pstat2F32V256 := ⟨rfl, rfl, by decide, by decide, by decide, by decide, by decide, by decide⟩

end Sys2Proof.Laws.EncodingRoundTrip
end

