-- ==== Sys2Proof/Laws/Registers.lean ====
section
/-! SUPPORT. The register map, the argument file and register accesses: one lemma per operation. -/

namespace Sys2Proof.Machine

/-- Every register is reached at its own offset by its own width (R31, R44). -/
@[simp] theorem regAt_self (r : Reg) : regAt (regOffset r) (regWidth r) = some r := by
  rcases r with _ | _ | r
  · decide
  · decide
  · cases r <;> decide

theorem mem_allRegs (r : Reg) : r ∈ allRegs := by
  rcases r with _ | _ | r
  · decide
  · decide
  · cases r <;> decide

/-- No register is reached exactly when none has that offset and width (R44). -/
theorem regAt_eq_none (offset width : Nat) :
    regAt offset width = none ↔ ∀ r, ¬ (regOffset r = offset ∧ regWidth r = width) := by
  unfold regAt
  rw [List.find?_eq_none]
  constructor
  · intro h r hr
    exact h r (mem_allRegs r) (by simp [hr])
  · intro h r _
    simpa using h r

/-- An admitted access reaches its register. -/
theorem onRegister_reg {s : State} {t e : Nat} {acc : Access} {g : Engine} (r : Reg) (hg : s.engine? e = some g)
    (hb : g.isBusy = false) (k : Engine → Reg → Host.Outcome State Fault Refusal) :
    onRegister s t e acc (regOffset r) (regWidth r) k = k g r := by
  simp [onRegister, hg, hb]

/-- Any other access is BAD_REG_ACCESS (R44). -/
theorem onRegister_bad {s : State} {t e offset width : Nat} {acc : Access} {g : Engine} (hg : s.engine? e = some g)
    (hbad : regAt offset width = none ∨ g.isBusy = true) (k : Engine → Reg → Host.Outcome State Fault Refusal) :
    onRegister s t e acc offset width k = .next (s.raiseFault e t acc (.badRegAccess offset width)) := by
  unfold onRegister
  rcases hbad with h | h
  · rw [hg, h]
  · rw [hg]
    cases regAt offset width <;> simp [h]

/-- Marking a register written marks it alone (R42). -/
theorem get_mark (x : WrittenBits) (r q : ArgReg) : (x.mark r).get q = (decide (q = r) || x.get q) := by
  cases r <;> cases q <;> simp [WrittenBits.mark, WrittenBits.get]

/-- A register takes the value reduced to its width (R113). -/
theorem get_set_self (x : ArgFile) (v : DWord) (r : ArgReg) :
    ((x.set v r).get r).toNat = v.toNat % 2 ^ (8 * regWidth (.arg r)) := by
  cases r <;> simp [ArgFile.set, ArgFile.get, regWidth, Nat.mod_eq_of_lt, v.isLt] <;> omega

/-- Setting a register leaves the others alone (R31). -/
theorem get_set_other (x : ArgFile) (v : DWord) (r q : ArgReg) (h : q ≠ r) : (x.set v r).get q = x.get q := by
  cases r <;> cases q <;> first | exact absurd rfl h | rfl

end Sys2Proof.Machine
end

