-- ==== Sys2Proof/Laws/Start.lean ====
section
/-! SUPPORT. What the searches of START and of the race rule find. -/

namespace Sys2Proof.Machine

/-- `firstAddr` finds nothing exactly when no address of the range has the property. -/
theorem firstAddr_eq_none (p : Nat → Bool) : ∀ (n a : Nat),
    firstAddr p a n = none ↔ ∀ b, a ≤ b → b < a + n → p b = false
  | 0, a => by simp only [firstAddr, true_iff]; intro b h1 h2; omega
  | n + 1, a => by
    have ih := firstAddr_eq_none p n (a + 1)
    unfold firstAddr
    split
    · next h =>
      simp only [reduceCtorEq, false_iff]
      intro hall
      have := hall a (Nat.le_refl a) (by omega)
      simp [h] at this
    · next h =>
      rw [ih]
      constructor
      · intro hall b h1 h2
        by_cases hb : b = a
        · subst hb; simpa using h
        · exact hall b (by omega) (by omega)
      · intro hall b h1 h2
        exact hall b (by omega) (by omega)

/-- What `firstAddr` finds is the lowest address of the range with the property. -/
theorem firstAddr_eq_some (p : Nat → Bool) : ∀ (n a b : Nat),
    firstAddr p a n = some b ↔
      a ≤ b ∧ b < a + n ∧ p b = true ∧ ∀ c, a ≤ c → c < b → p c = false
  | 0, a, b => by simp only [firstAddr, reduceCtorEq, false_iff]; omega
  | n + 1, a, b => by
    have ih := firstAddr_eq_some p n (a + 1) b
    unfold firstAddr
    split
    · next h =>
      simp only [Option.some.injEq]
      constructor
      · rintro rfl
        exact ⟨Nat.le_refl _, by omega, h, fun c h1 h2 => by omega⟩
      · rintro ⟨h1, _, _, h4⟩
        by_contra hne
        have := h4 a (Nat.le_refl a) (by omega)
        simp [h] at this
    · next h =>
      rw [ih]
      constructor
      · rintro ⟨h1, h2, h3, h4⟩
        refine ⟨by omega, by omega, h3, fun c hc1 hc2 => ?_⟩
        by_cases hca : c = a
        · subst hca; simpa using h
        · exact h4 c (by omega) hc2
      · rintro ⟨h1, h2, h3, h4⟩
        have : b ≠ a := by rintro rfl; exact h h3
        exact ⟨by omega, by omega, h3, fun c hc1 hc2 => h4 c (by omega) hc2⟩

theorem lowest_eq_none (a b : Option Nat) : lowest a b = none ↔ a = none ∧ b = none := by
  cases a <;> cases b <;> simp [lowest]

theorem writes_iff (f : Footprint) (a : Nat) :
    f.writes a = true ↔ f.out ≤ a ∧ a < f.out + f.outBytes := by
  simp [Footprint.writes]

/-- Two footprints have no conflict exactly when they share no byte that one of them writes (R84). -/
theorem conflict_eq_none (f h : Footprint) : f.conflict h = none ↔ f.compatible h := by
  unfold Footprint.conflict Footprint.compatible
  rw [lowest_eq_none, firstAddr_eq_none, firstAddr_eq_none]
  constructor
  · rintro ⟨h1, h2⟩ a
    refine ⟨?_, ?_⟩
    · rintro ⟨hw, hr⟩
      have hw' := (writes_iff f a).1 hw
      rcases hr with hr | hr
      · have := h2 a hw'.1 hw'.2
        simp [hr] at this
      · have hr' := (writes_iff h a).1 hr
        have := h1 a hr'.1 hr'.2
        simp [hw] at this
    · rintro ⟨hw, hr⟩
      have hw' := (writes_iff h a).1 hw
      have := h1 a hw'.1 hw'.2
      simp [hr] at this
  · intro hall
    refine ⟨fun b hb1 hb2 => ?_, fun b hb1 hb2 => ?_⟩
    · have hw : h.writes b = true := (writes_iff h b).2 ⟨hb1, hb2⟩
      obtain ⟨h1, h2⟩ := hall b
      by_contra hne
      simp only [Bool.not_eq_false, Bool.or_eq_true] at hne
      rcases hne with hne | hne
      · exact h2 ⟨hw, hne⟩
      · exact h1 ⟨hne, .inr hw⟩
    · have hw : f.writes b = true := (writes_iff f b).2 ⟨hb1, hb2⟩
      by_contra hne
      simp only [Bool.not_eq_false] at hne
      exact (hall b).1 ⟨hw, .inl hne⟩

/-- The byte that a conflict records is one on which the two commands conflict (R84, R313). -/
theorem conflictsAt_of_conflict {f h : Footprint} {a : Nat} (hc : f.conflict h = some a) : f.conflictsAt h a := by
  have named : firstAddr (fun a => f.reads a || f.writes a) h.out h.outBytes = some a ∨
      firstAddr h.reads f.out f.outBytes = some a := by
    unfold Footprint.conflict at hc
    cases h1 : firstAddr (fun a => f.reads a || f.writes a) h.out h.outBytes <;>
      cases h2 : firstAddr h.reads f.out f.outBytes <;> simp [h1, h2, lowest] at hc ⊢ <;> omega
  rcases named with hk | hk <;> obtain ⟨lo, hi, hp, _⟩ := (firstAddr_eq_some _ _ _ _).1 hk
  · have hw : h.writes a = true := (writes_iff _ _).2 ⟨lo, hi⟩
    simp only [Bool.or_eq_true] at hp
    exact hp.elim (fun hr => .inr ⟨hw, hr⟩) fun hf => .inl ⟨hf, .inr hw⟩
  · exact .inl ⟨(writes_iff _ _).2 ⟨lo, hi⟩, .inl hp⟩

theorem Footprint.compatible_symm {f h : Footprint} (hc : f.compatible h) : h.compatible f := by
  intro a
  obtain ⟨h1, h2⟩ := hc a
  refine ⟨?_, ?_⟩
  · rintro ⟨hw, hr | hr⟩
    · exact h2 ⟨hw, hr⟩
    · exact h1 ⟨hr, .inr hw⟩
  · rintro ⟨hw, hr⟩
    exact h1 ⟨hw, .inl hr⟩

/-- The search for conflicting open commands finds none exactly when every one is compatible (R84). -/
theorem conflictsFrom_eq_nil (own : Nat) (f : Footprint) : ∀ (l : List Engine) (e : Nat),
    conflictsFrom own f e l = [] ↔
      ∀ k g h, l[k]? = some g → e + k ≠ own → g.openFootprint = some h → h.compatible f
  | [], e => by simp [conflictsFrom]
  | g :: gs, e => by
    have ih := conflictsFrom_eq_nil own f gs (e + 1)
    have split_index : (∀ k g' h, (g :: gs)[k]? = some g' → e + k ≠ own → g'.openFootprint = some h →
        h.compatible f) ↔ (∀ h, e ≠ own → g.openFootprint = some h → h.compatible f) ∧
          (∀ k g' h, gs[k]? = some g' → e + 1 + k ≠ own → g'.openFootprint = some h → h.compatible f) := by
      constructor
      · intro hall
        refine ⟨fun h h1 h2 => hall 0 g h (by simp) (by simpa using h1) h2, fun k g' h h1 h2 h3 => ?_⟩
        exact hall (k + 1) g' h (by simpa using h1) (by omega) h3
      · rintro ⟨h0, hall⟩ k g' h h1 h2 h3
        cases k with
        | zero =>
          simp only [List.getElem?_cons_zero, Option.some.injEq] at h1
          subst h1
          exact h0 h (by simpa using h2) h3
        | succ k => exact hall k g' h (by simpa using h1) (by omega) h3
    rw [split_index, ← ih, conflictsFrom]
    by_cases he : e = own
    · simp [he]
    · simp only [he, if_false, ne_eq, not_false_eq_true, true_implies]
      cases hst : g.status with
      | idle => simp [Engine.openFootprint, hst]
      | faulted c => simp [Engine.openFootprint, hst]
      | busy p =>
        simp only [Engine.openFootprint, hst, Option.some.injEq, forall_eq']
        cases hc : (footprint p.instr g.args).conflict f with
        | none => simp [(conflict_eq_none _ _).1 hc]
        | some a =>
          simp only [reduceCtorEq, false_iff, not_and]
          intro hcomp
          rw [(conflict_eq_none _ _).2 hcomp] at hc
          cases hc

/-- A CMD write finds no conflicting open command exactly when it is race-free (R84). -/
theorem conflicts_eq_nil_iff_raceFree (s : State) (e : Nat) (f : Footprint) :
    conflictsFrom e f 0 s.engines = [] ↔ RaceFree s e f := by
  rw [conflictsFrom_eq_nil]
  constructor
  · intro hall e' g' h hne hg hf
    exact hall e' g' h hg (by omega) hf
  · intro hr k g h hg hne hf
    exact hr k g h (by omega) hg hf

/-- With no engine busy, every command is race-free. -/
theorem raceFree_of_none_busy (s : State) (e : Nat) (f : Footprint) (h : ∀ g ∈ s.engines, g.isBusy = false) :
    RaceFree s e f := by
  intro e' g' fp _ hg hf
  have := h g' (List.mem_of_getElem? hg)
  cases hst : g'.status with
  | busy p => simp [Engine.isBusy, hst] at this
  | idle => simp [Engine.openFootprint, hst] at hf
  | faulted c => simp [Engine.openFootprint, hst] at hf

/-- A plane row's byte is covered when the row is in range. -/
theorem covers_iff (p : PlaneRows) (a : Nat) :
    p.covers a = true ↔ ∃ r, r < p.rows ∧ rowStart p.base p.stride r ≤ (a : Int) ∧
      (a : Int) < rowStart p.base p.stride r + (p.bytes : Int) := by
  simp [PlaneRows.covers, PlaneRows.inRow]

/-! ### Which open commands race (R84) -/

/-- Rows of a list of races name engines in strictly rising order, so each engine at most once. -/
abbrev Rising (l : List (Nat × PendingCommand × Nat)) : Prop := l.Pairwise fun c d => c.1 < d.1

/-- Exactly the conflicting open commands of other engines are listed, with their lowest conflicting byte. -/
theorem mem_conflictsFrom (own : Nat) (f : Footprint) : ∀ (l : List Engine) (e : Nat) (c : Nat × PendingCommand × Nat),
    c ∈ conflictsFrom own f e l ↔
      ∃ k g, l[k]? = some g ∧ c.1 = e + k ∧ c.1 ≠ own ∧ g.status = .busy c.2.1 ∧
        (footprint c.2.1.instr g.args).conflict f = some c.2.2
  | [], e, c => by simp [conflictsFrom]
  | g :: gs, e, c => by
    have ih := mem_conflictsFrom own f gs (e + 1) c
    have tail : (∃ k g', (g :: gs)[k]? = some g' ∧ c.1 = e + k ∧ c.1 ≠ own ∧ g'.status = .busy c.2.1 ∧
        (footprint c.2.1.instr g'.args).conflict f = some c.2.2) ↔
        (c.1 = e ∧ c.1 ≠ own ∧ g.status = .busy c.2.1 ∧
          (footprint c.2.1.instr g.args).conflict f = some c.2.2) ∨ c ∈ conflictsFrom own f (e + 1) gs := by
      rw [ih]
      constructor
      · rintro ⟨k, g', h1, h2, h3⟩
        cases k with
        | zero =>
          simp only [List.getElem?_cons_zero, Option.some.injEq] at h1
          subst h1
          exact .inl ⟨by simpa using h2, h3⟩
        | succ k => exact .inr ⟨k, g', by simpa using h1, by omega, h3⟩
      · rintro (⟨h1, h2⟩ | ⟨k, g', h1, h2, h3⟩)
        · exact ⟨0, g, by simp, by simpa using h1, h2⟩
        · exact ⟨k + 1, g', by simpa using h1, by omega, h3⟩
    rw [tail, conflictsFrom]
    by_cases he : e = own
    · simp only [he, if_true]
      constructor
      · exact .inr
      · rintro (⟨h1, h2, -⟩ | h)
        · exact absurd h1 h2
        · exact h
    · simp only [he, if_false]
      obtain ⟨n, p, a⟩ := c
      split
      · next q hq =>
        split
        · next b hb =>
          simp only [List.mem_cons, Prod.mk.injEq, hq, EngineStatus.busy.injEq]
          constructor
          · rintro (⟨rfl, rfl, rfl⟩ | h)
            · exact .inl ⟨rfl, he, rfl, hb⟩
            · exact .inr h
          · rintro (⟨rfl, -, rfl, h⟩ | h)
            · rw [hb] at h
              exact .inl ⟨rfl, rfl, (Option.some.inj h).symm⟩
            · exact .inr h
        · next hb =>
          simp only [hq, EngineStatus.busy.injEq]
          constructor
          · exact .inr
          · rintro (⟨-, -, rfl, h⟩ | h)
            · rw [hb] at h; cases h
            · exact h
      · next hq =>
        constructor
        · exact .inr
        · rintro (⟨-, -, h, -⟩ | h)
          · exact absurd h (hq p)
          · exact h

theorem rising_conflictsFrom (own : Nat) (f : Footprint) : ∀ (l : List Engine) (e : Nat),
    Rising (conflictsFrom own f e l)
  | [], _ => by simp [conflictsFrom]
  | g :: gs, e => by
    have ih := rising_conflictsFrom own f gs (e + 1)
    have above : ∀ c ∈ conflictsFrom own f (e + 1) gs, e < c.1 := by
      intro c hc
      obtain ⟨k, _, _, h, _⟩ := (mem_conflictsFrom own f gs (e + 1) c).1 hc
      omega
    unfold conflictsFrom
    split
    · exact ih
    · split
      · split
        · exact List.pairwise_cons.2 ⟨above, ih⟩
        · exact ih
      · exact ih

/-- Exactly the open commands that a host access conflicts with are listed, with the lowest conflicting byte. -/
theorem mem_hostRaces (write : Bool) (a n : Nat) : ∀ (l : List Engine) (e : Nat) (c : Nat × PendingCommand × Nat),
    c ∈ hostRaces write a n e l ↔
      ∃ k g, l[k]? = some g ∧ c.1 = e + k ∧ g.status = .busy c.2.1 ∧
        firstAddr (fun b => (footprint c.2.1.instr g.args).writes b ||
          (write && (footprint c.2.1.instr g.args).reads b)) a n = some c.2.2
  | [], e, c => by simp [hostRaces]
  | g :: gs, e, c => by
    have ih := mem_hostRaces write a n gs (e + 1) c
    have tail : (∃ k g', (g :: gs)[k]? = some g' ∧ c.1 = e + k ∧ g'.status = .busy c.2.1 ∧
        firstAddr (fun b => (footprint c.2.1.instr g'.args).writes b ||
          (write && (footprint c.2.1.instr g'.args).reads b)) a n = some c.2.2) ↔
        (c.1 = e ∧ g.status = .busy c.2.1 ∧
          firstAddr (fun b => (footprint c.2.1.instr g.args).writes b ||
            (write && (footprint c.2.1.instr g.args).reads b)) a n = some c.2.2) ∨
          c ∈ hostRaces write a n (e + 1) gs := by
      rw [ih]
      constructor
      · rintro ⟨k, g', h1, h2, h3⟩
        cases k with
        | zero =>
          simp only [List.getElem?_cons_zero, Option.some.injEq] at h1
          subst h1
          exact .inl ⟨by simpa using h2, h3⟩
        | succ k => exact .inr ⟨k, g', by simpa using h1, by omega, h3⟩
      · rintro (⟨h1, h2⟩ | ⟨k, g', h1, h2, h3⟩)
        · exact ⟨0, g, by simp, by simpa using h1, h2⟩
        · exact ⟨k + 1, g', by simpa using h1, by omega, h3⟩
    rw [tail, hostRaces]
    obtain ⟨m, p, b⟩ := c
    split
    · next q hq =>
      simp only [hq, EngineStatus.busy.injEq]
      split
      · next b' hb =>
        simp only [List.mem_cons, Prod.mk.injEq]
        constructor
        · rintro (⟨rfl, rfl, rfl⟩ | h)
          · exact .inl ⟨rfl, rfl, hb⟩
          · exact .inr h
        · rintro (⟨rfl, rfl, h⟩ | h)
          · rw [hb] at h
            exact .inl ⟨rfl, rfl, (Option.some.inj h).symm⟩
          · exact .inr h
      · next hb =>
        constructor
        · exact .inr
        · rintro (⟨-, rfl, h⟩ | h)
          · rw [hb] at h; cases h
          · exact h
    · next hq =>
      constructor
      · exact .inr
      · rintro (⟨-, h, -⟩ | h)
        · exact absurd h (hq p)
        · exact h

theorem rising_hostRaces (write : Bool) (a n : Nat) : ∀ (l : List Engine) (e : Nat),
    Rising (hostRaces write a n e l)
  | [], _ => by simp [hostRaces]
  | g :: gs, e => by
    have ih := rising_hostRaces write a n gs (e + 1)
    have above : ∀ c ∈ hostRaces write a n (e + 1) gs, e < c.1 := by
      intro c hc
      obtain ⟨k, _, _, h, _⟩ := (mem_hostRaces write a n gs (e + 1) c).1 hc
      omega
    unfold hostRaces
    split
    · simp only
      split
      · exact List.pairwise_cons.2 ⟨above, ih⟩
      · exact ih
    · exact ih

/-- An engine that no race names is as before. -/
theorem engine?_raiseRaces_other (o : Agent) (e : Nat) : ∀ (l : List (Nat × PendingCommand × Nat)) (s : State),
    (∀ c ∈ l, c.1 ≠ e) → (s.raiseRaces o l).engine? e = s.engine? e
  | [], _, _ => rfl
  | c :: rest, s, h => by
    have ih := engine?_raiseRaces_other o e rest
      (s.raiseFault c.1 c.2.1.thread (.command c.2.1.word) (.dataRace o c.2.2)) fun d hd => h d (by simp [hd])
    refine ih.trans ?_
    rw [engine?_raiseFault]
    simp [h c (by simp)]

/-- A busy engine that a race names ends faulted with it, and the fault is on record. -/
theorem engine?_raiseRaces_named (o : Agent) {e a : Nat} {p q : PendingCommand} {g : Engine} :
    ∀ (l : List (Nat × PendingCommand × Nat)) (s : State), Rising l → (e, p, a) ∈ l → s.engine? e = some g →
      g.status = .busy q →
      (s.raiseRaces o l).engine? e = some { g with status := .faulted (.dataRace o a) } ∧
        (⟨e, p.thread, .command p.word, .dataRace o a⟩ : FaultRecord) ∈ (s.raiseRaces o l).faults
  | [], _, _, h, _, _ => by simp at h
  | c :: rest, s, hr, h, hg, hq => by
    replace hr := List.pairwise_cons.1 hr
    rcases List.mem_cons.1 h with rfl | hm
    · have other := engine?_raiseRaces_other o e rest
        (s.raiseFault e p.thread (.command p.word) (.dataRace o a)) fun d hd => by have := hr.1 d hd; simp at this; omega
      have grew := raiseRaces_faults_prefix o rest (s := s.raiseFault e p.thread (.command p.word) (.dataRace o a))
      refine ⟨other.trans ?_, grew.subset (by simp)⟩
      rw [engine?_raiseFault]
      simp [hg, hq, EngineStatus.afterFault]
    · have hne : c.1 ≠ e := by have := hr.1 _ hm; simp at this; omega
      have ih := engine?_raiseRaces_named o (q := q) (g := g) rest
        (s.raiseFault c.1 c.2.1.thread (.command c.2.1.word) (.dataRace o c.2.2)) hr.2 hm
      rw [engine?_raiseFault] at ih
      simp only [hne, if_false] at ih
      exact ih hg hq

end Sys2Proof.Machine
end

