-- ==== Sys2Proof/Laws/Step.lean ====
section
/-! SUPPORT. Everything one step can do, said once: `step_move`. -/

namespace Sys2Proof.Machine

/-- The ways in which a step changes the state, besides taking an event off the schedule. -/
inductive Move (s : State) : State → Prop
  | stay : Move s s
  | finish (e : Nat) : Move s (finishCommand e s)
  | reset (h : ∀ g ∈ s.engines, g.isBusy = false) :
      Move s { s with engines := s.engines.map fun _ => Engine.reset }
  | badAccess (e t off w : Nat) (acc : Access) (g : Engine) (hg : s.engine? e = some g) :
      Move s (s.raiseFault e t acc (.badRegAccess off w))
  | badCommand (t e : Nat) (w : Word) (f : CommandFault) (g : Engine) (hg : s.engine? e = some g)
      (hi : g.status = .idle) : Move s ((s.atPort t e w).raiseFault e t (.command w) f)
  | race (t e : Nat) (w : Word) (i : Instr) (g : Engine) (k a : Nat) (p : PendingCommand)
      (rest : List (Nat × PendingCommand × Nat)) (hg : s.engine? e = some g) (hi : g.status = .idle)
      (hc : conflictsFrom e (footprint i g.args) 0 s.engines = (k, p, a) :: rest) :
      Move s (raceState (s.atPort t e w) ((k, p, a) :: rest) k a)
  | begins (t e : Nat) (w : Word) (i : Instr) (g : Engine) (hg : s.engine? e = some g) (hi : g.status = .idle)
      (hf : startFault s.platform g i w = none) (hc : RaceFree s e (footprint i g.args)) :
      Move s ((s.atPort t e w).openCommand i)
  | runs (t e : Nat) (w : Word) (i : Instr) (g : Engine) (hg : s.engine? e = some g) (hi : g.status = .idle)
      (hf : startFault s.platform g i w = none) (hc : RaceFree s e (footprint i g.args)) :
      Move s (finishCommand e ((s.atPort t e w).openCommand i))
  | writeArg (e t : Nat) (r : ArgReg) (v : DWord) (g : Engine) (hg : s.engine? e = some g)
      (hb : g.isBusy = false) : Move s ((s.modifyEngine e fun g => g.writeArg r v).advance t)
  | host (threads : List Thread) (draws : Nat) : Move s { s with threads := threads, draws := draws }
  | store (t a n v : Nat) (ha : a + n ≤ addressSpace) :
      Move s ({ s.raiseRaces (.thread t) (hostRaces true a n 0 s.engines) with
        mem := s.mem.writeLE a n v
        unseen := s.unseen.filter fun u => !u.within a n }.advance t)
  | load (t var a n : Nat) (looked : State)
      (h : looked = (s.raiseRaces (.thread t) (hostRaces false a n 0 s.engines)).look t a n) :
      Move s (looked.assign t var (looked.readSeen t a n))

theorem onRegister_next {s t' : State} {t e off w : Nat} {acc : Access}
    {k : Engine → Reg → Host.Outcome State Fault Refusal} (h : onRegister s t e acc off w k = .next t') :
    ∃ g, s.engine? e = some g ∧
      (((regAt off w = none ∨ g.isBusy = true) ∧ t' = s.raiseFault e t acc (.badRegAccess off w)) ∨
        (∃ r, regAt off w = some r ∧ g.isBusy = false ∧ k g r = .next t')) := by
  unfold onRegister at h
  split at h
  · cases h
  · next g hg =>
    refine ⟨g, hg, ?_⟩
    split at h
    · next hr => injection h with h; exact .inl ⟨.inl hr, h.symm⟩
    · next r hr =>
      split at h
      · next hb => injection h with h; exact .inl ⟨.inr hb, h.symm⟩
      · next hb => exact .inr ⟨r, hr, by simpa using hb, h⟩

/-- A CMD write at a port: the command runs, opens, races or faults. -/
theorem startCommand_move {s t' : State} {t e : Nat} {w : Word} {i : Instr} {atomic : Bool} {g : Engine}
    (hg : s.engine? e = some g) (hb : g.isBusy = false)
    (h : (if atomic then exec i (s.atPort t e w) else startCommand i (s.atPort t e w) .next) = .next t') :
    Move s t' := by
  have key : ∀ started, startCommand i (s.atPort t e w) started = .next t' →
      (∀ u, started u = .next t' → t' = u ∨ t' = finishCommand e u) → Move s t' := by
    intro started hs hk
    obtain ⟨g', hg', hcases⟩ := startCommand_next hs
    simp only [atPort_port, atPort_engine?, atPort_platform, atPort_engines] at hg' hcases
    rw [hg] at hg'
    obtain rfl := Option.some.inj hg'
    rcases hcases with ⟨hbusy, _⟩ | ⟨hi, f, _, rfl⟩ | ⟨hi, _, k, p, a, rest, hc, rfl⟩ | ⟨hi, hf, hc, hst⟩
    · simp [hb] at hbusy
    · exact .badCommand t e w f g hg hi
    · exact .race t e w i g k a p rest hg hi hc
    · have hr := (conflicts_eq_nil_iff_raceFree s e _).1 hc
      rcases hk _ hst with rfl | rfl
      · exact .begins t e w i g hg hi hf hr
      · exact .runs t e w i g hg hi hf hr
  cases atomic
  · exact key _ h fun u hu => .inl (by injection hu with hu; exact hu.symm)
  · simp only [if_true] at h
    rw [exec_eq_runCommand] at h
    exact key _ h fun u hu => .inr (by injection hu with hu; exact hu.symm)

theorem writeRegister_move {atomic : Bool} {s t' : State} {t e off w : Nat} {v : Int}
    (h : writeRegister atomic s t e off w v = .next t') : Move s t' := by
  obtain ⟨g, hg, ⟨_, rfl⟩ | ⟨r, _, hb, hk⟩⟩ := onRegister_next h
  · exact .badAccess e t off w _ g hg
  · cases r with
    | cmd =>
      simp only [writeCmd, atPort_port] at hk
      split at hk
      · obtain ⟨g', hg', ⟨hi, hk⟩ | ⟨hbusy, _⟩⟩ := onIdleEngine_next hk
        · injection hk with hk; subst hk; exact .badCommand t e _ _ g' hg' hi
        · simp only [atPort_engine?, atPort_port] at hg'
          rw [hg] at hg'
          obtain rfl := Option.some.inj hg'
          simp [hb] at hbusy
      · exact startCommand_move hg hb hk
    | caps => injection hk with hk; subst hk; exact .host _ _
    | arg a => injection hk with hk; subst hk; exact .writeArg e t a _ g hg hb

theorem readRegister_move {s t' : State} {t var e off w : Nat}
    (h : readRegister s t var e off w = .next t') : Move s t' := by
  obtain ⟨g, hg, ⟨_, rfl⟩ | ⟨r, _, hb, hk⟩⟩ := onRegister_next h
  · exact .badAccess e t off w _ g hg
  · cases r with
    | cmd => injection hk with hk; subst hk; exact .host _ _
    | caps => injection hk with hk; subst hk; exact .host _ _
    | arg a =>
      simp only at hk
      split at hk
      · injection hk with hk; subst hk; exact .host _ _
      · injection hk with hk; subst hk; exact .host _ _

theorem onHostBytes_next {s t' : State} {addr : Int} {n : Nat} {k : Nat → Host.Outcome State Fault Refusal}
    (h : onHostBytes s addr n k = .next t') :
    0 ≤ addr ∧ addr.toNat + n ≤ addressSpace ∧ firstAddr (inWindow s.platform) addr.toNat n = none ∧
      k addr.toNat = .next t' := by
  unfold onHostBytes at h
  split at h
  · cases h
  · next hr =>
    split at h
    · cases h
    · next hw =>
      simp only [not_or, Int.not_lt] at hr
      refine ⟨hr.1, ?_, hw, h⟩
      have := hr.2
      omega

/-- An accessible host access takes effect (R60, R61). -/
theorem onHostBytes_accessible {s : State} {a n : Nat} (h : HostAccessible s a n)
    (k : Nat → Host.Outcome State Fault Refusal) : onHostBytes s (a : Int) n k = k a := by
  obtain ⟨space, window⟩ := h
  have none : firstAddr (inWindow s.platform) (Int.toNat a) n = none :=
    (firstAddr_eq_none _ _ _).2 fun b hb1 hb2 => window b (by simpa using hb1) (by simpa using hb2)
  unfold onHostBytes
  rw [if_neg (by omega), none]
  simp

theorem hostOp_move {atomic : Bool} {t : Nat} {vars : List (Nat × Int)} {op : HostOp} {s t' : State}
    (h : hostOp atomic t vars op s = .next t') : Move s t' := by
  cases op with
  | wr e off w v => exact writeRegister_move h
  | rd var e off w => exact readRegister_move h
  | st n addr v =>
    simp only [hostOp, storeBytes] at h
    obtain ⟨_, ha, _, hk⟩ := onHostBytes_next h
    injection hk with hk; subst hk; exact .store t _ _ _ ha
  | ld n var addr =>
    simp only [hostOp, loadBytes] at h
    obtain ⟨_, _, _, hk⟩ := onHostBytes_next h
    injection hk with hk; subst hk; exact .load t var _ _ _ rfl
  | letVar var e => injection h with h; subst h; exact .host _ _
  | ifGoto c target =>
    simp only [hostOp] at h
    split at h <;> (injection h with h; subst h; exact .host _ _)

theorem runThread_move {atomic : Bool} {t : Nat} {s t' : State} (h : runThread atomic t s = .next t') :
    Move s t' := by
  unfold runThread at h
  split at h
  · cases h
  · split at h
    · injection h with h; subst h; exact .stay
    · cases h
    · split at h
      · injection h with h; subst h; exact .stay
      · exact hostOp_move h

theorem perform_move {ev : Event} {s t' : State} (h : perform ev s = .next t') : Move s t' := by
  cases ev with
  | run t => exact runThread_move h
  | start t => exact runThread_move h
  | finish e => injection h with h; subst h; exact .finish e
  | reset =>
    simp only [perform, State.resetEngines] at h
    split at h
    · cases h
    · next hb =>
      injection h with h; subst h
      exact .reset fun g hg => by
        simp only [List.any_eq_true, not_exists, not_and, Bool.not_eq_true] at hb
        exact hb g hg
  | idle =>
    simp only [perform] at h
    split at h
    · injection h with h; subst h; exact .stay
    · cases h

/-- A step takes the next event off the schedule and makes one move. -/
theorem step_move {s t : State} (h : step s = .next t) : Move { s with sched := s.sched.tail } t :=
  perform_move h

end Sys2Proof.Machine
end

