-- ==== Sys2Proof/Laws/Vector.lean ====
section
/-! SUPPORT. The lanes of a chunk and of its mask, and the shape of the lane operations. -/

namespace Sys2Proof.Machine

/-- Lane `j` of a chunk of `n` lanes of `q` bytes is the `q` bytes at offset `j·q` (R11, R172). -/
theorem loadChunk_eq (q n : Nat) (m : Memory) (a : Nat) :
    loadChunk (8 * (n * q)) (8 * q) n m a = (List.range n).map fun j => BitVec.ofNat (8 * q) (m.readLE (a + j * q) q) := by
  unfold loadChunk lanesOf
  refine List.map_congr_left fun j hj => ?_
  have hj : j < n := List.mem_range.1 hj
  obtain ⟨r, rfl⟩ : ∃ r, n = j + (1 + r) := ⟨n - j - 1, by omega⟩
  have hbytes : 8 * ((j + (1 + r)) * q) / 8 = j * q + (q + r * q) := by
    rw [Nat.mul_div_cancel_left _ (by norm_num)]
    ring
  have slice := Memory.readLE_slice m a (j * q) q (r * q)
  have bound := Memory.readLE_lt (j * q + (q + r * q)) m a
  apply BitVec.eq_of_toNat_eq
  rw [hbytes, BitVec.extractLsb'_toNat, BitVec.toNat_ofNat, BitVec.toNat_ofNat, Nat.shiftRight_eq_div_pow,
    show j * (8 * q) = 8 * (j * q) by ring, Nat.mod_eq_of_lt (a := m.readLE a _) (by
      refine bound.trans_eq ?_
      congr 1
      ring),
    slice, Nat.mod_eq_of_lt (Memory.readLE_lt q m (a + j * q))]

@[simp] theorem length_loadChunk (W w n : Nat) (m : Memory) (a : Nat) : (loadChunk W w n m a).length = n := by
  simp [loadChunk, lanesOf]

@[simp] theorem length_laneMask (w n width k : Nat) : (laneMask w n width k).length = n := by
  unfold laneMask idxLanes
  split <;> simp

@[simp] theorem length_sel {α : Type} (M : List Bool) (X : List α) (N : α) :
    (sel M X N).length = min M.length X.length := by simp [sel]

@[simp] theorem length_sad8w (D : Nat) (X : List (BitVec 8)) : (sad8w D X).length = D := by simp [sad8w]

@[simp] theorem length_splitSum (D : Nat) (X : List (BitVec 16)) : (splitSum D X).length = D := by simp [splitSum]

@[simp] theorem length_addLanes (V X : List DWord) : (addLanes V X).length = min V.length X.length := by
  simp [addLanes]

@[simp] theorem length_widenAddHalf (V : List F64) (X : List F32) :
    (widenAddHalf V X).length = min V.length X.length := by simp [widenAddHalf]

end Sys2Proof.Machine
end

