-- ==== Sys2Proof/Laws/Visibility.lean ====
section
/-! SUPPORT. What a host thread sees of memory: one lemma per operation of HOST_MM's part of the state. -/

namespace Sys2Proof.Machine

/-- Where a thread sees every write, it sees memory's own bytes (R113). -/
theorem readSeen_eq_readLE (s : State) (t : Nat) : ∀ (n a : Nat),
    (∀ u ∈ s.unseen, u.thread = t → u.within a n = false) → s.readSeen t a n = s.mem.readLE a n
  | 0, _, _ => rfl
  | n + 1, a, h => by
    have first : s.unseen.find? (Unseen.isAt t a) = none := by
      rw [List.find?_eq_none]
      intro u hu hat
      simp only [Unseen.isAt, Bool.and_eq_true, decide_eq_true_eq] at hat
      have := h u hu hat.1
      simp [Unseen.within, hat.2] at this
    have rest := readSeen_eq_readLE s t n (a + 1) fun u hu ht => by
      have := h u hu ht
      simp only [Unseen.within, Bool.and_eq_false_iff, decide_eq_false_iff_not] at this ⊢
      omega
    simp only [State.readSeen, Memory.readLE, State.byteSeen, first, rest]

/-- Seeing more writes removes unseen ones and adds none. -/
theorem mem_seeOldest (t a : Nat) : ∀ (k : Nat) (l : List Unseen) (u : Unseen), u ∈ seeOldest t a k l → u ∈ l
  | 0, _, _, h => h
  | k + 1, _, u, h => List.mem_of_mem_eraseP (mem_seeOldest t a k _ u h)

/-- Nor does a look add any. -/
theorem mem_lookAt (t look : Nat) : ∀ (n a : Nat) (l : List Unseen) (u : Unseen), u ∈ lookAt t look a n l → u ∈ l
  | 0, _, _, _, h => h
  | n + 1, a, _, u, h => mem_seeOldest t a _ _ u (mem_lookAt t look n (a + 1) _ u h)

theorem isAt_iff {t a : Nat} {u : Unseen} : Unseen.isAt t a u = true ↔ u.thread = t ∧ u.addr = a := by
  simp [Unseen.isAt]

/-- The bytes a thread sees depend on memory and the unseen writes alone. -/
theorem readSeen_congr {s u : State} (hm : u.mem = s.mem) (hu : u.unseen = s.unseen) (t : Nat) : ∀ (n a : Nat),
    u.readSeen t a n = s.readSeen t a n
  | 0, _ => rfl
  | n + 1, a => by
    have byte : u.byteSeen t a = s.byteSeen t a := by simp only [State.byteSeen, hm, hu]
    rw [State.readSeen, State.readSeen, byte, readSeen_congr hm hu t n (a + 1)]

/-- Two different places have no unseen write in common. -/
theorem isAt_other {t a k b : Nat} {u : Unseen} (h : k ≠ t ∨ b ≠ a) (hu : Unseen.isAt t a u = true) :
    Unseen.isAt k b u = false := by
  rw [Bool.eq_false_iff]
  intro hkb
  rw [isAt_iff] at hu hkb
  omega

/-- Seeing more of one byte leaves every other thread and byte alone. -/
theorem filter_seeOldest_other {t a k b : Nat} (h : k ≠ t ∨ b ≠ a) : ∀ (m : Nat) (l : List Unseen),
    (seeOldest t a m l).filter (Unseen.isAt k b) = l.filter (Unseen.isAt k b)
  | 0, _ => rfl
  | m + 1, l => by
    rw [seeOldest, filter_seeOldest_other h m]
    induction l with
    | nil => rfl
    | cons c l ih =>
      rw [List.eraseP_cons]
      by_cases hc : Unseen.isAt t a c = true
      · simp [hc, isAt_other h hc]
      · simp [hc, List.filter_cons, ih]

/-- Seeing more of a byte drops the oldest of its unseen writes. -/
theorem filter_seeOldest_self {t a : Nat} : ∀ (m : Nat) (l : List Unseen),
    (seeOldest t a m l).filter (Unseen.isAt t a) = (l.filter (Unseen.isAt t a)).drop m
  | 0, _ => rfl
  | m + 1, l => by
    have one : ∀ l : List Unseen,
        (l.eraseP (Unseen.isAt t a)).filter (Unseen.isAt t a) = (l.filter (Unseen.isAt t a)).drop 1 := by
      intro l
      induction l with
      | nil => rfl
      | cons c l ih =>
        rw [List.eraseP_cons]
        by_cases hc : Unseen.isAt t a c = true
        · simp [hc]
        · simp [hc, ih]
    rw [seeOldest, filter_seeOldest_self m, one, List.drop_drop, Nat.add_comm]

/-- A look leaves every other thread, and every byte outside, alone. -/
theorem filter_lookAt_other {t look k b : Nat} : ∀ (n a : Nat) (l : List Unseen), (k ≠ t ∨ b < a ∨ a + n ≤ b) →
    (lookAt t look a n l).filter (Unseen.isAt k b) = l.filter (Unseen.isAt k b)
  | 0, _, _, _ => rfl
  | n + 1, a, l, h => by
    rw [lookAt, filter_lookAt_other n (a + 1) _ (by omega), filter_seeOldest_other (by omega)]

/-- Of a byte looked at, as many more writes are seen as `HOST_MM` says, the oldest first (R83, log 15). -/
theorem filter_lookAt_self {t look b : Nat} : ∀ (n a : Nat) (l : List Unseen), a ≤ b → b < a + n →
    (lookAt t look a n l).filter (Unseen.isAt t b) =
      (l.filter (Unseen.isAt t b)).drop (Config.hostMM t b look)
  | 0, _, _, h1, h2 => by omega
  | n + 1, a, l, h1, h2 => by
    rw [lookAt]
    by_cases hab : a = b
    · subst hab
      rw [filter_lookAt_other n (a + 1) _ (by omega), filter_seeOldest_self]
    · rw [filter_lookAt_self n (a + 1) _ (by omega) (by omega), filter_seeOldest_other (by omega)]

/-- What a thread sees of a byte depends on the unseen writes at that place alone. -/
theorem byteSeen_congr {s u : State} {t a : Nat} (hm : u.mem.read a = s.mem.read a)
    (hu : u.unseen.filter (Unseen.isAt t a) = s.unseen.filter (Unseen.isAt t a)) : u.byteSeen t a = s.byteSeen t a := by
  simp only [State.byteSeen, ← List.head?_filter, hu, hm]

/-- What is unseen once a command has written: what was, or a byte of its record that another thread does not see. -/
theorem mem_hideWrite (m : Memory) (t threads a n : Nat) (l : List Unseen) (u : Unseen)
    (h : u ∈ hideWrite m t threads a n l) :
    (u ∈ l ∧ ¬ (u.thread = t ∧ u.within a n = true)) ∨
      (u.thread ≠ t ∧ u.thread < threads ∧ u.within a n = true ∧ u.old = m.read u.addr) := by
  simp only [hideWrite, List.mem_append, List.mem_filter, List.mem_flatMap, List.mem_map, List.mem_range,
    decide_eq_true_eq, Bool.not_eq_true', Bool.and_eq_false_iff, decide_eq_false_iff_not] at h
  rcases h with ⟨hu, h⟩ | ⟨k, ⟨hk, hne⟩, j, hj, rfl⟩
  · refine .inl ⟨hu, fun ⟨ht, hw⟩ => ?_⟩
    rcases h with h | h
    · exact h ht
    · simp [h] at hw
  · exact .inr ⟨hne, hk, by simp [Unseen.within, hj], rfl⟩

/-- The issuing thread sees its command's writes (R82). -/
theorem hideWrite_issuer (m : Memory) (t threads a n : Nat) (l : List Unseen) (u : Unseen)
    (h : u ∈ hideWrite m t threads a n l) (ht : u.thread = t) : u.within a n = false := by
  rcases mem_hideWrite m t threads a n l u h with ⟨_, h⟩ | ⟨h, _⟩
  · simpa [ht] using h
  · exact absurd ht h

end Sys2Proof.Machine
end

