-- ==== Sys2Proof/Tests/Slice0.lean ====
section
/-! SUPPORT. Tests: expected values come from 95_test_vectors.md and 30_encoding.md R105, never from the model; and
one witness theorem for every obligation with hypotheses. -/

namespace Sys2Proof.Tests

-- One thread: every elaboration thread would reserve its own large stack under the memory limit.
set_option Elab.async false

open Sys2Proof Sys2Proof.Machine

/-! ### A small machine: the baseline of the fault vectors, with a second plane written too -/

/-- The fault vectors' admitted memory, with both vector tiers. -/
def plat : Platform where
  engineBase := [0xFFFFFFFFFFFFFF80, 0xFFFFFFFFFFFFFFC0]
  hasT128 := true
  hasT256 := true
  admitR := [⟨0x1000, 0x1100⟩, ⟨0x2000, 0x2100⟩]
  admitW := [⟨0x1000, 0x1100⟩, ⟨0x2000, 0x2100⟩]

/-- The fault vectors' platform: HAS_T256 = 0. -/
def plat128 : Platform := { plat with hasT256 := false }

/-- The baseline argument registers: OUT = 0x2000, SRC1 = 0x1000, strides 16, SRC2 = 0x1080, 4 × 1. -/
def args : ArgFile := ⟨0x2000, 0x1000, 16, 0x1080, 16, 4, 1⟩

/-- An engine whose argument registers have all been written. -/
def armed (x : ArgFile) : Engine := ⟨x, ⟨true, true, true, true, true, true, true⟩, .idle, Datapath.reset⟩

/-- Engine 0 with argument registers `x`, engine 1 after reset, two host threads, thread 0 writing CMD. -/
def demo (p : Platform) (g : Engine) (m : Memory) (w : Word) : State :=
  { State.resetWith p with
    engines := [g, Engine.reset]
    mem := m
    threads := [⟨[], 0, [], .ready⟩, ⟨[], 0, [], .ready⟩]
    port := ⟨0, 0, w⟩ }

/-- Bytes stored from an address on. -/
def bytesFrom (m : Memory) (a : Nat) : List Byte → Memory
  | [] => m
  | b :: bs => bytesFrom (m.write a b) (a + 1) bs

/-- The memory of samples of `sz` bytes: plane 1 at 0x1000, plane 2 at 0x1080. -/
def planes (sz : Nat) (s1 s2 : List Nat) : Memory :=
  let bytes := fun s : List Nat => s.flatMap (bytesOfWord sz)
  bytesFrom (bytesFrom [] 0x1000 (bytes s1)) 0x1080 (bytes s2)

/-- A run of a command on one row of samples: min, max, sum and diffSum of the record, if no fault is recorded. -/
def resultOf (i : Instr) (s1 s2 : List Nat) : Option (Nat × Nat × Nat × Nat) :=
  let x : ArgFile := { args with stride1 := 64, stride2 := 64, width := BitVec.ofNat 32 s1.length }
  match exec i (demo plat (armed x) (planes (sampleSize i.format) s1 s2) (encode i)) with
  | .next t =>
    if t.faults = [] then
      some (t.mem.readLE 0x2000 4, t.mem.readLE 0x2004 4, t.mem.readLE 0x2008 8, t.mem.readLE 0x2010 8)
    else none
  | _ => none

/-- The fault that a CMD write of `w` records on the fault vectors' platform, and the bytes it changed. -/
def faultOf (g : Engine) (w : Word) : List CommandFault × Memory :=
  match writeRegister true (demo plat128 g [] 0) 0 0 0 4 (w.toNat : Int) with
  | .next t => (t.faults.map fun r => r.fault, t.mem)
  | _ => ([], [])

/-- The value that a register read of thread 0 gives, on a platform and an engine. -/
def readOf (p : Platform) (g : Engine) (r : Reg) : Option Int :=
  match readRegister (demo p g [] 0) 0 7 0 (regOffset r) (regWidth r) with
  | .next t => t.threads[0]?.map fun th => readVar th.vars 7
  | _ => none

/-! ### WellFormed smoke tests: each check refuses an ill-formed term -/

theorem test_wf_good_platform : plat.wellFormed = true ∧ Platform.reference.wellFormed = true := by decide
theorem test_wf_no_engine : ({ plat with engineBase := [] } : Platform).wellFormed = false := by decide
theorem test_wf_window_past_end :
    ({ plat with engineBase := [0xFFFFFFFFFFFFFFF0] } : Platform).wellFormed = false := by decide
theorem test_wf_windows_overlap :
    ({ plat with engineBase := [0x8000, 0x8020] } : Platform).wellFormed = false := by decide
theorem test_wf_memory_past_end :
    ({ plat with admitR := [⟨0, 2 ^ 64 + 1⟩] } : Platform).wellFormed = false := by decide
theorem test_wf_memory_in_window :
    ({ plat with engineBase := [0x2040] } : Platform).wellFormed = false := by decide
theorem test_wf_missing_engine : programWellFormed 2 [.wr 2 0 4 (.lit 0)] = false := by decide
theorem test_wf_missing_engine_read : programWellFormed 2 [.rd 0 2 0 4] = false := by decide
theorem test_wf_goto_past_end :
    programWellFormed 2 [.letVar 0 (.lit 1), .ifGoto ⟨.eq, .var 0, .lit 1⟩ 2] = false := by decide
theorem test_wf_good_program :
    programWellFormed 2 [.wr 1 0 4 (.lit 0), .ifGoto ⟨.eq, .lit 1, .lit 1⟩ 0] = true := by decide
/-- R106: no command has an operand field that could be ill-formed; what is ill-formed is a word. -/
theorem test_wf_commands : ∀ i : Instr, i.wellFormed = true := fun _ => rfl

/-! ### Decoding: the words of R105's table, and E5 to E11 -/

theorem test_decode_sc :
    decodeTableWord 32 0x00 = some .pstat1U8Sc ∧ decodeTableWord 32 0x01 = some .pstat1U16Sc ∧
      decodeTableWord 32 0x02 = some .pstat1F32Sc ∧ decodeTableWord 32 0x04 = some .pstat2U8Sc ∧
      decodeTableWord 32 0x05 = some .pstat2U16Sc ∧ decodeTableWord 32 0x06 = some .pstat2F32Sc := by decide
theorem test_decode_v128 :
    decodeTableWord 32 0x08 = some .pstat1U8V128 ∧ decodeTableWord 32 0x09 = some .pstat1U16V128 ∧
      decodeTableWord 32 0x0A = some .pstat1F32V128 ∧ decodeTableWord 32 0x0C = some .pstat2U8V128 ∧
      decodeTableWord 32 0x0D = some .pstat2U16V128 ∧ decodeTableWord 32 0x0E = some .pstat2F32V128 := by decide
theorem test_decode_v256 :
    decodeTableWord 32 0x10 = some .pstat1U8V256 ∧ decodeTableWord 32 0x11 = some .pstat1U16V256 ∧
      decodeTableWord 32 0x12 = some .pstat1F32V256 ∧ decodeTableWord 32 0x14 = some .pstat2U8V256 ∧
      decodeTableWord 32 0x15 = some .pstat2U16V256 ∧ decodeTableWord 32 0x16 = some .pstat2F32V256 := by decide
/-- Bit by bit from R100: RSV, OP 000, TIER 10, P2 1, FMT 01. -/
theorem test_decode_bits : decode 0b00000000000000000000000000010101 = .ok .pstat2U16V256 := by decide
theorem test_decode_reserved :
    decode 0x03 = .error .reservedFormat ∧ decode 0x07 = .error .reservedFormat ∧
      decode 0x0B = .error .reservedFormat ∧ decode 0x18 = .error .reservedTier ∧
      decode 0x1E = .error .reservedTier ∧ decode 0x20 = .error .reservedOp ∧
      decode 0x100 = .error .reservedBits ∧ decode 0x80000010 = .error .reservedBits := by decide
theorem test_decode_other_length : decodeBytes [0, 0] = .error (.notOneWord 2) := by decide
theorem test_mnemonic : instrOfMnemonic "pstat2.u16.v256".toList = some .pstat2U16V256 := by decide

/-! ### One run per command: V1, V2, V3, V12, V20, V27, V4 -/

theorem test_V1_sc : resultOf .pstat1U8Sc [10, 20, 5, 250] [] = some (5, 250, 285, 0) := by decide +kernel
theorem test_V1_v128 : resultOf .pstat1U8V128 [10, 20, 5, 250] [] = some (5, 250, 285, 0) := by decide +kernel
theorem test_V1_v256 : resultOf .pstat1U8V256 [10, 20, 5, 250] [] = some (5, 250, 285, 0) := by decide +kernel
theorem test_V2_sc : resultOf .pstat2U8Sc [10, 20, 5, 250] [12, 18, 5, 0] = some (5, 250, 285, 254) := by
  decide +kernel
theorem test_V2_v128 : resultOf .pstat2U8V128 [10, 20, 5, 250] [12, 18, 5, 0] = some (5, 250, 285, 254) := by
  decide +kernel
theorem test_V2_v256 : resultOf .pstat2U8V256 [10, 20, 5, 250] [12, 18, 5, 0] = some (5, 250, 285, 254) := by
  decide +kernel
theorem test_V3_sc : resultOf .pstat1U16Sc [65535] [] = some (65535, 65535, 65535, 0) := by decide +kernel
theorem test_V3_v128 : resultOf .pstat1U16V128 [65535] [] = some (65535, 65535, 65535, 0) := by decide +kernel
theorem test_V3_v256 : resultOf .pstat1U16V256 [65535] [] = some (65535, 65535, 65535, 0) := by decide +kernel
theorem test_V12_sc : resultOf .pstat2U16Sc [0, 65535] [65535, 0] = some (0, 65535, 65535, 131070) := by
  decide +kernel
theorem test_V12_v128 : resultOf .pstat2U16V128 [0, 65535] [65535, 0] = some (0, 65535, 65535, 131070) := by
  decide +kernel
theorem test_V12_v256 : resultOf .pstat2U16V256 [0, 65535] [65535, 0] = some (0, 65535, 65535, 131070) := by
  decide +kernel

/-- min, max, sum and diffSum of a walk before WRITE_RESULT, so that no free value is involved. -/
def walkOf (i : Instr) (s1 s2 : List Nat) : Nat × Nat × Nat × Nat :=
  let x : Args := ⟨0x2000, 0x1000, 64, 0x1080, 64, s1.length, 1⟩
  let k := (kernelOf i (planes (sampleSize i.format) s1 s2) x Datapath.reset).2
  (k.mn.toNat, k.mx.toNat, k.sm.toNat, k.df.toNat)

/-- The samples of V27. -/
def v27 : List Nat := [0x25000000, 0, 0x3F800000, 0x25000000, 0x25000000, 0x25000000]

theorem test_V27_sc : walkOf .pstat1F32Sc v27 [] = (0, 0x3F800000, 0x3FF0000000000000, 0) := by decide +kernel
theorem test_V27_v128 : walkOf .pstat1F32V128 v27 [] = (0, 0x3F800000, 0x3FF0000000000001, 0) := by decide +kernel
theorem test_V27_v256 : walkOf .pstat1F32V256 v27 [] = (0, 0x3F800000, 0x3FF0000000000002, 0) := by decide +kernel
theorem test_V4_sc : resultOf .pstat2F32Sc [0x3FC00000, 0xC0000000] [0x3F800000, 0xC0200000] =
    some (0xC0000000, 0x3FC00000, 0xBFE0000000000000, 0x3FF0000000000000) := by decide +kernel
theorem test_V4_v128 : resultOf .pstat2F32V128 [0x3FC00000, 0xC0000000] [0x3F800000, 0xC0200000] =
    some (0xC0000000, 0x3FC00000, 0xBFE0000000000000, 0x3FF0000000000000) := by decide +kernel
theorem test_V4_v256 : resultOf .pstat2F32V256 [0x3FC00000, 0xC0000000] [0x3F800000, 0xC0200000] =
    some (0xC0000000, 0x3FC00000, 0xBFE0000000000000, 0x3FF0000000000000) := by decide +kernel

/-! ### A second run where the first would miss a likely slip: tails, the bias boundary, NaN, -0.0, overflow -/

/-- V5c: 31 samples of 100 with 0x00 planted past the row. -/
theorem test_V5c : resultOf .pstat1U8V256 (List.replicate 31 100) [] = some (100, 100, 3100, 0) := by decide +kernel
/-- V5d: the planted lane is 0xFFFF. -/
theorem test_V5d : walkOf .pstat1U16V128 (List.replicate 7 1000) [] = (1000, 1000, 7000, 0) := by decide +kernel
theorem test_V13 : resultOf .pstat1U16V256 [0, 32767, 32768, 65535] [] = some (0, 65535, 131070, 0) := by
  decide +kernel
theorem test_V14 : resultOf .pstat2U16V128 [0, 1000, 2000, 3000, 4000, 5000, 6000, 7000, 8000]
    [9000, 8000, 7000, 6000, 5000, 4000, 3000, 2000, 1000] = some (0, 8000, 36000, 41000) := by decide +kernel
/-- V21: the NaN samples never reach min and max; the sum is a NaN. -/
theorem test_V21 :
    let r := walkOf .pstat1F32V256 [0x7FC00000, 0x40400000, 0xBF800000, 0x7FC00000, 0x40000000] []
    r.1 = 0xBF800000 ∧ r.2.1 = 0x40400000 ∧ isNaNEnc 52 11 r.2.2.1 = true := by decide +kernel
theorem test_V22 : resultOf .pstat1F32V128 [0, 0x80000000] [] = some (0x80000000, 0, 0, 0) := by decide +kernel
/-- V24: every sample a NaN leaves the seeds. -/
theorem test_V24 : (walkOf .pstat1F32Sc [0x7FC00000, 0x7FC00000, 0x7FC00000] []).1 = 0x7F800000 ∧
    (walkOf .pstat1F32Sc [0x7FC00000, 0x7FC00000, 0x7FC00000] []).2.1 = 0xFF800000 := by decide +kernel
theorem test_V26 : walkOf .pstat2F32Sc [0x7F7FFFFF, 0x3F800000] [0xFF7FFFFF, 0x3F800000] =
    (0x3F800000, 0x7F7FFFFF, 0x47EFFFFFE0000000, 0x7FF0000000000000) := by decide +kernel

/-! ### Reduction primitives and the datapath: V43, V46, V50 to V58 -/

theorem test_V43 : sad8w 2 ((List.range 16).map fun k => BitVec.ofNat 8 (k + 1)) = [36, 100] := by decide +kernel
theorem test_V42 : splitSum 2 [0x1234, 0xFFFF, 0x0100, 0x00FF, 0x8001, 0, 0, 0] = [70706, 32769] := by decide +kernel
theorem test_V46 : absDiffU16 0 65535 = 65535 := by decide
theorem test_V50 : hminU8 ([5, 20, 10, 250] ++ List.replicate 12 255) = 5 := by decide +kernel
theorem test_V51 : hmaxU8 ([10, 20, 5, 250] ++ List.replicate 12 0) = 250 := by decide +kernel
theorem test_V52 : hminI16 (List.replicate 7 0x7FFF ++ [0x8005]) = 0x8005 ∧ unbias 0x8005 = 5 := by decide +kernel
theorem test_V53 : hmaxI16 (0x7FFF :: List.replicate 7 0x8000) = 0x7FFF ∧ unbias 0x7FFF = 65535 := by decide +kernel
theorem test_V54 : hminU16 (40000 :: List.replicate 14 65535 ++ [32768]) = 32768 ∧
    hmaxU16 (40000 :: List.replicate 14 0 ++ [32768]) = 40000 := by decide +kernel
theorem test_V55 : hsumU64 [0xFFFFFFFFFFFFFFFF, 2] = 1 ∧ hsumU64 [1, 2, 3, 4] = 10 := by decide +kernel
theorem test_V56 : hminF32 ([0, 0x3F800000, 0x80000000, 0x40000000] ++ List.replicate 4 0x7F800000) = 0x80000000 ∧
    hmaxF32 [0x80000000, 0, 0xBF800000, 0xFF800000] = 0 := by decide +kernel
/-- V57: the tree's pairing shows; V57b: opposite infinities give a NaN. -/
theorem test_V57 : hsumF64 [0x3FF0000000000000, 0, 0x3CA0000000000000, 0x3CA0000000000000] = 0x3FF0000000000000 ∧
    isNaN64 (hsumF64 [0x7FF0000000000000, 0xFFF0000000000000]) = true := by decide +kernel

/-! ### Registers: G1 to G8 -/

theorem test_G1 : readOf plat128 (armed args) .caps = some 3 := by decide
theorem test_G2 : readOf plat (armed args) .caps = some 7 := by decide
theorem test_G3 : readOf { plat128 with hasT128 := false } (armed args) .caps = some 1 := by decide
theorem test_G5 : readOf plat (armed args) .cmd = some 0 := by decide
/-- G6: a negative stride is its 64-bit two's complement. -/
theorem test_G6 :
    (match writeRegister true (demo plat Engine.reset [] 0) 0 0 0x20 8 (-16) with
      | .next t => t.engines[0]?.map fun g => (g.args.stride1, g.written.stride1)
      | _ => none) = some (0xFFFFFFFFFFFFFFF0, true) := by decide
/-- G7: the value is a draw; that the read completes and counts it is all that is fixed. -/
theorem test_G7 :
    (match readRegister (demo plat Engine.reset [] 0) 0 7 0 0x08 4 with
      | .next t => some (t.faults, t.draws)
      | _ => none) = some ([], 1) := by decide

/-! ### Faults: F1 to F11, the fault alone recorded and no memory written -/

theorem test_F1 : faultOf (armed args) 3 = ([.illegalCommand 3], []) := by decide +kernel
theorem test_F1b : faultOf Engine.reset 0x18 = ([.illegalCommand 0x18], []) := by decide +kernel
theorem test_F2 : faultOf (armed args) 0x10 = ([.tierUnavailable 0x10], []) := by decide +kernel
theorem test_F2b : faultOf Engine.reset 0x10 = ([.tierUnavailable 0x10], []) := by decide +kernel
theorem test_F3 : faultOf { armed args with written := ⟨true, true, true, false, false, true, false⟩ } 0 =
    ([.uninitArg .height], []) := by decide +kernel
theorem test_F3b : faultOf { armed args with written := ⟨true, true, true, false, false, true, true⟩ } 4 =
    ([.uninitArg .src2], []) := by decide +kernel
theorem test_F3c : faultOf Engine.reset 0 = ([.uninitArg .out], []) := by decide +kernel
theorem test_F4 : faultOf (armed { args with width := 0 }) 0 = ([.badGeometry 0 1], []) := by decide +kernel
theorem test_F4b : faultOf (armed { args with height := 0, stride1 := 1 }) 0 = ([.badGeometry 4 0], []) := by
  decide +kernel
theorem test_F5 : faultOf (armed { args with stride1 := 3 }) 0 = ([.badStride 1 3], []) := by decide +kernel
theorem test_F5b : faultOf (armed { args with stride1 := -16 }) 0 = ([.badStride 1 (-16)], []) := by decide +kernel
theorem test_F5c : faultOf (armed { args with stride1 := 7, src1 := 0x1001 }) 1 = ([.badStride 1 7], []) := by
  decide +kernel
theorem test_F6 : faultOf (armed { args with src1 := 0x1001 }) 1 = ([.misaligned .src1], []) := by decide +kernel
theorem test_F6b : faultOf (armed { args with stride1 := 9 }) 1 = ([.misaligned .stride1], []) := by decide +kernel
theorem test_F6c : faultOf (armed { args with out := 0x2004 }) 0 = ([.misaligned .out], []) := by decide +kernel
theorem test_F6d : (faultOf (armed { args with src1 := 0x1001 }) 0).1 = [] := by decide +kernel
theorem test_F7 : faultOf (armed { args with src1 := 0xFFFFFFFFFFFFFFF8, width := 16 }) 0 =
    ([.addressOverflow .src1], []) := by decide +kernel
theorem test_F7b : faultOf (armed { args with out := 0xFFFFFFFFFFFFFFF0 }) 4 = ([.addressOverflow .out], []) ∧
    faultOf (armed { args with out := 0xFFFFFFFFFFFFFFF0 }) 0 = ([.accessFault 0xFFFFFFFFFFFFFFF0], []) := by
  decide +kernel
theorem test_F8 : (faultOf (armed { args with out := 0x1008 }) 0).1 = [] ∧
    faultOf (armed { args with out := 0x1008 }) 8 = ([.outputOverlap 0x1008], []) := by decide +kernel
theorem test_F9 : (faultOf (armed { args with src1 := 0x10F8, width := 8 }) 0).1 = [] ∧
    faultOf (armed { args with src1 := 0x10F8, width := 8 }) 8 = ([.accessFault 0x1100], []) := by decide +kernel
theorem test_F9c : faultOf (armed { args with out := 0x20F0 }) 4 = ([.accessFault 0x2100], []) := by decide +kernel
theorem test_F11 :
    (match writeRegister true (demo plat128 (armed args) [] 0) 0 0 0x10 4 0x2000 with
      | .next t => t.faults.map fun r => r.fault
      | _ => []) = [.badRegAccess 0x10 4] := by decide +kernel
theorem test_F11b :
    (match readRegister (demo plat128 (armed args) [] 0) 0 7 0 0x38 4 with
      | .next t => t.faults.map fun r => r.fault
      | _ => []) = [.badRegAccess 0x38 4] := by decide +kernel

/-- Engine 0 running the baseline command for thread 0. -/
def busy : Engine := { armed args with status := .busy ⟨.pstat1U8Sc, 0, 0, none⟩ }

/-- F10: thread 1's store into the running command's plane. -/
theorem test_F10 :
    (match storeBytes (demo plat128 busy [] 0) 1 1 0x1002 0 with
      | .next t => t.faults.map fun r => r.fault
      | _ => []) = [.dataRace (.thread 1) 0x1002] := by decide +kernel

/-- Engine 1 running PSTAT1.U8.SC on the shared plane with OUT = `out`, and engine 0 about to start its own. -/
def twoEngines (out : DWord) : State :=
  { demo plat128 (armed args) [] 0 with
    engines := [armed args, { armed { args with out := out } with status := .busy ⟨.pstat1U8Sc, 0, 1, none⟩ }] }

theorem test_F10b : (match startCommand .pstat1U8Sc (twoEngines 0x2040) .next with
      | .next t => (t.faults.map fun r => r.fault, t.engines.map Engine.isBusy)
      | _ => ([], [])) = ([], [true, true]) := by decide +kernel
theorem test_F10c : (match exec .pstat1U8Sc (twoEngines 0x2000) with
      | .next t => t.faults.map fun r => r.fault
      | _ => []) = [.dataRace (.engine 0) 0x2000, .dataRace (.engine 1) 0x2000] := by decide +kernel
/-- F11c: the access to a busy engine is reported, the running command stays, and the engine will end faulted. -/
theorem test_F11c :
    (match writeRegister true (demo plat128 busy [] 0) 1 0 0x08 4 8 with
      | .next t => (t.faults.map fun r => (r.thread, r.fault), t.engines[0]?.map fun g => g.status)
      | _ => ([], none)) =
      ([(1, .badRegAccess 0x08 4)], some (.busy ⟨.pstat1U8Sc, 0, 0, some (.badRegAccess 0x08 4)⟩)) := by decide +kernel
/-- F11c and U24: the command completes and writes its record; then the engine is faulted. -/
theorem test_F11c_completion :
    (let held : Engine := { busy with status := .busy ⟨.pstat1U8Sc, 0, 0, some (.badRegAccess 0x08 4)⟩ }
      let t := finishCommand 0 (demo plat128 held (planes 1 [10, 20, 5, 250] []) 0)
      (t.mem.readLE 0x2008 8, t.engines[0]?.map fun g => g.status)) =
      (285, some (.faulted (.badRegAccess 0x08 4))) := by decide +kernel

/-- R82, R83: after PSTAT1.U8.SC of thread 0 (V1's samples) thread 0 sees the sum's low byte, thread 1 not yet; a store
by thread 0 over it is seen by both (log 15). -/
theorem test_R83 :
    let u := finishCommand 0 (demo plat busy (planes 1 [10, 20, 5, 250] []) 0)
    (match storeBytes u 0 1 0x2008 9 with
      | .next w => ([u.byteSeen 0 0x2008, u.byteSeen 1 0x2008, w.byteSeen 0 0x2008, w.byteSeen 1 0x2008],
          u.unseen.length, w.unseen.length)
      | _ => ([], 0, 0)) = ([0x1D, 0, 9, 9], 16, 15) := by decide +kernel

/-! ### Witnesses: for every obligation with hypotheses, a concrete state and operands that meet them -/

/-- The demo engine is ready for every one of the 18 commands. -/
theorem demo_ready (i : Instr) (m : Memory) (w : Word) : ReadyToRun (demo plat (armed args) m w) i (armed args) := by
  have legal : LegalStart plat (armed args) i := by cases i <;> decide +kernel
  have none_busy : ∀ g ∈ [armed args, Engine.reset], g.isBusy = false := by decide
  exact ⟨rfl, rfl, legal, raceFree_of_none_busy _ _ _ none_busy⟩

/-- One more boundary: the record directly above the plane's last byte, at the lowest legal stride. -/
theorem demo_ready_boundary : ReadyToRun (demo plat (armed { args with out := 0x1008, stride1 := 4 }) [] 0) .pstat1U8Sc
    (armed { args with out := 0x1008, stride1 := 4 }) := by
  refine ⟨rfl, rfl, ?_, raceFree_of_none_busy _ _ _ ?_⟩ <;> decide +kernel

/-- Whether a step goes on to a next state. -/
def goesOn (o : Host.Outcome State Fault Refusal) : Bool :=
  match o with
  | .next _ => true
  | _ => false

theorem exists_next_of_goesOn {o : Host.Outcome State Fault Refusal} (h : goesOn o = true) : ∃ t, o = .next t := by
  cases o with
  | next t => exact ⟨t, rfl⟩
  | fault f => cases h
  | refused r => cases h

theorem witness_InvalidWordsFaultIllegalCommand :
    (demo plat (armed args) [] 3).engine? 0 = some (armed args) ∧ (armed args).status = .idle ∧
      ∀ i, decode 3 ≠ .ok i := by
  refine ⟨rfl, rfl, fun i => ?_⟩
  cases i <;> decide

/-- Thread 0 about to write CMD of engine 0. -/
def atCmd : State :=
  { demo plat (armed args) [] 0 with threads := [⟨[cmdWord 0 (.lit 0x15)], 0, [], .ready⟩], sched := [.run 0] }

/-- Both events that let thread 0 write CMD. -/
theorem witness_StepRunsTheDecodedCommand :
    nextEvent atCmd = .run 0 ∧ nextEvent { atCmd with sched := [.start 0] } = .start 0 ∧
      atCmd.threads[0]? = some ⟨[cmdWord 0 (.lit 0x15)], 0, [], .ready⟩ ∧
      [cmdWord 0 (.lit 0x15)][0]? = some (cmdWord 0 (.lit 0x15)) ∧
      BitVec.ofNat 32 (transactionValue 4 (evalExpr [] (.lit 0x15))) = 0x15 ∧ decode 0x15 = .ok .pstat2U16V256 ∧
      atCmd.engine? 0 = some (armed args) ∧ (armed args).isBusy = false := by decide +kernel

theorem witness_PlacedCommandRunsNext :
    State.reset.engine? 0 = some Engine.reset ∧ Engine.reset.isBusy = false := by decide

theorem witness_CommandIsItsOpeningThenItsCompletion :
    ReadyToRun (demo plat (armed args) [] 0) .pstat2F32V256 (armed args) ∧
      ∀ g, ¬ ReadyToRun (demo plat Engine.reset [] 0) .pstat1U8Sc g := by
  refine ⟨demo_ready _ _ _, fun g h => ?_⟩
  obtain ⟨hg, -, hl, -⟩ := h
  obtain rfl : Engine.reset = g := by simpa [demo, State.engine?] using hg
  exact absurd hl.2.1 (by decide)

theorem witness_ReadyCommandCompletesAndChangesNothingElse :
    ∀ i, ReadyToRun (demo plat (armed args) [] (encode i)) i (armed args) := fun i => demo_ready i _ _

theorem witness_ScalarIntegerCommandsWriteTheContract :
    ∀ i : Instr, i.tier = .sc → i.format ≠ .f32 →
      ReadyToRun (demo plat (armed args) [] (encode i)) i (armed args) ∧ Memory.wf [] :=
  fun i _ _ => ⟨demo_ready i _ _, by decide⟩

theorem witness_VectorByteCommandsWriteTheContract :
    Instr.pstat2U8V256.tier ≠ .sc ∧ Instr.pstat2U8V256.format = .u8 ∧ Memory.wf [] ∧
      ReadyToRun (demo plat (armed args) [] 0x14) .pstat2U8V256 (armed args) :=
  ⟨by decide, rfl, by decide, demo_ready _ _ _⟩

theorem witness_VectorWordCommandsWriteTheContract :
    Instr.pstat2U16V128.tier ≠ .sc ∧ Instr.pstat2U16V128.format = .u16 ∧ Memory.wf [] ∧
      ReadyToRun (demo plat (armed args) [] 0x0D) .pstat2U16V128 (armed args) :=
  ⟨by decide, rfl, by decide, demo_ready _ _ _⟩

theorem witness_FloatCommandsWriteTheOrderedExtrema :
    Instr.pstat1F32V128.format = .f32 ∧ Memory.wf [] ∧
      ReadyToRun (demo plat (armed args) [] 0x0A) .pstat1F32V128 (armed args) :=
  ⟨rfl, by decide, demo_ready _ _ _⟩

theorem witness_ScalarFloatCommandsWriteTheLeftToRightSums :
    Instr.pstat2F32Sc.tier = .sc ∧ Instr.pstat2F32Sc.format = .f32 ∧ Instr.pstat2F32Sc.planes = .two ∧ Memory.wf [] ∧
      ReadyToRun (demo plat (armed args) [] 0x06) .pstat2F32Sc (armed args) :=
  ⟨rfl, rfl, rfl, by decide, demo_ready _ _ _⟩

theorem witness_VectorFloatCommandsWriteTheLaneSums :
    (tierWidth Instr.pstat2F32V128.tier = some 128 ∧
        ReadyToRun (demo plat (armed args) [] 0x0E) .pstat2F32V128 (armed args)) ∧
      (tierWidth Instr.pstat2F32V256.tier = some 256 ∧
        ReadyToRun (demo plat (armed args) [] 0x16) .pstat2F32V256 (armed args)) ∧
      Memory.wf [] :=
  ⟨⟨rfl, demo_ready _ _ _⟩, ⟨rfl, demo_ready _ _ _⟩, by decide⟩

theorem witness_TiersAgree :
    Instr.pstat2U16Sc.format = Instr.pstat2U16V128.format ∧
      Instr.pstat2U16Sc.planes = Instr.pstat2U16V128.planes ∧ Instr.pstat2U16Sc.format ≠ .f32 := by decide

/-- Two memories that differ in an over-read byte of plane 1 only. -/
theorem witness_OverReadBytesNeverMatter :
    SameSamples .pstat2U8V128 (commandArgs .two args) [(0x1003, 7)] [(0x1003, 7), (0x1004, 9)] := by
  intro r hr j hj
  have hr : r = 0 := by
    have : (commandArgs .two args).height = 1 := rfl
    omega
  have hj : j < 4 := hj
  subst hr
  interval_cases j <;> decide +kernel

theorem witness_SameInputsWriteTheSameRecord :
    ReadyToRun (demo plat (armed args) [(0x1003, 7)] 0) .pstat1U8V128 (armed args) ∧
      ReadyToRun (demo plat (armed { args with src2 := 0 }) [(0x1003, 7), (0x1004, 9)] 0) .pstat1U8V128
        (armed { args with src2 := 0 }) ∧
      Memory.wf [(0x1003, 7)] ∧ Memory.wf [(0x1003, 7), (0x1004, 9)] ∧
      commandArgs .one args = commandArgs .one { args with src2 := 0 } ∧
      SameSamples .pstat1U8V128 (commandArgs .one args) [(0x1003, 7)] [(0x1003, 7), (0x1004, 9)] := by
  refine ⟨demo_ready _ _ _, ⟨rfl, rfl, ?_, raceFree_of_none_busy _ _ _ ?_⟩, by decide, by decide, by decide, ?_⟩
  · decide +kernel
  · decide
  · intro r hr j hj
    have hr : r = 0 := by
      have : (commandArgs .one args).height = 1 := rfl
      omega
    have hj : j < 4 := hj
    subst hr
    interval_cases j <;> decide +kernel

theorem witness_AbsentTierFaults :
    IdleAtPort (demo plat128 (armed args) [] 0x10) (armed args) ∧
      (capsValue plat128).getLsbD (capsBit Instr.pstat1U8V256.tier) = false := ⟨⟨rfl, rfl⟩, by decide⟩

/-- The first register of R320's order, and the last. -/
theorem witness_UnwrittenArgumentFaults :
    (IdleAtPort (demo plat Engine.reset [] 0) Engine.reset ∧ LegalTier plat .pstat1U8Sc ∧
      argRegs Instr.pstat1U8Sc.planes = [] ++ ArgReg.out :: [.src1, .stride1, .width, .height] ∧
      Engine.reset.written.get .out = false) ∧
    (let g : Engine := { armed args with written := ⟨true, true, true, true, true, true, false⟩ };
      IdleAtPort (demo plat g [] 4) g ∧ LegalTier plat .pstat2U8Sc ∧
      argRegs Instr.pstat2U8Sc.planes = [.out, .src1, .stride1, .src2, .stride2, .width] ++ ArgReg.height :: [] ∧
      (∀ q ∈ [ArgReg.out, .src1, .stride1, .src2, .stride2, .width], g.written.get q = true) ∧
      g.written.get .height = false) :=
  ⟨⟨⟨rfl, rfl⟩, by decide, rfl, rfl⟩, ⟨rfl, rfl⟩, by decide, rfl, by decide, rfl⟩

/-- WIDTH = 0, HEIGHT = 0, a stride one below WIDTH × sz in plane 1, and in plane 2 with plane 1 exactly at it. -/
theorem witness_BadGeometryAndStrideFault :
    (∀ x ∈ [{ args with width := 0 }, { args with height := 0 }, { args with stride1 := 3 },
        { args with stride1 := 4, stride2 := 3 }],
      IdleAtPort (demo plat (armed x) [] 4) (armed x) ∧ LegalWritten (armed x) .pstat2U8Sc) ∧
    LegalTier plat .pstat2U8Sc ∧
    (commandArgs .two { args with width := 0 }).width = 0 ∧ (commandArgs .two { args with height := 0 }).height = 0 ∧
    (commandArgs .two { args with stride1 := 3 }).stride1 < 4 ∧
    (commandArgs .two { args with stride1 := 4, stride2 := 3 }).stride1 = 4 ∧
    (commandArgs .two { args with stride1 := 4, stride2 := 3 }).stride2 < 4 := by
  refine ⟨?_, by decide, by decide, by decide, by decide, by decide, by decide⟩
  intro x hx
  refine ⟨⟨rfl, rfl⟩, ?_⟩
  intro q _
  cases q <;> rfl

theorem witness_MisalignedOperandFaults :
    (∀ x ∈ [{ args with src1 := 0x1001 }, { args with stride1 := 17 }, { args with src2 := 0x1081 },
        { args with stride2 := 17 }, { args with out := 0x2004 }],
      IdleAtPort (demo plat (armed x) [] 5) (armed x) ∧ LegalDimensions (armed x) .pstat2U16Sc ∧
        LegalStrides (armed x) .pstat2U16Sc ∧ ¬ LegalAlignment (armed x) .pstat2U16Sc) ∧
    LegalTier plat .pstat2U16Sc ∧ LegalWritten (armed args) .pstat2U16Sc ∧
    LegalAlignment (armed args) .pstat2U16Sc := by
  refine ⟨?_, by decide, by decide, by decide⟩
  intro x hx
  refine ⟨⟨rfl, rfl⟩, ?_⟩
  revert x
  decide +kernel

/-- The plane's last byte, or the record's, at 2^64. -/
theorem witness_AddressOverflowFaults :
    (∀ x ∈ [{ args with src1 := 0xFFFFFFFFFFFFFFFD }, { args with src2 := 0xFFFFFFFFFFFFFFFD },
        { args with out := 0xFFFFFFFFFFFFFFF0 }],
      IdleAtPort (demo plat (armed x) [] 4) (armed x) ∧ LegalDimensions (armed x) .pstat2U8Sc ∧
        LegalStrides (armed x) .pstat2U8Sc ∧ LegalAlignment (armed x) .pstat2U8Sc ∧
        ¬ LegalRange (armed x) .pstat2U8Sc) ∧
    LegalTier plat .pstat2U8Sc ∧ LegalWritten (armed args) .pstat2U8Sc := by
  refine ⟨?_, by decide, by decide⟩
  intro x hx
  refine ⟨⟨rfl, rfl⟩, ?_⟩
  revert x
  decide +kernel

/-- F8b: the record starts in the over-read region. -/
theorem witness_OutputOverlapFaults :
    let x := { args with out := 0x1008 }
    let f := footprint .pstat1U8V128 x
    IdleAtPort (demo plat (armed x) [] 8) (armed x) ∧ LegalTier plat .pstat1U8V128 ∧
      LegalWritten (armed x) .pstat1U8V128 ∧ LegalDimensions (armed x) .pstat1U8V128 ∧
      LegalStrides (armed x) .pstat1U8V128 ∧ LegalAlignment (armed x) .pstat1U8V128 ∧
      LegalRange (armed x) .pstat1U8V128 ∧ f.reads 0x1008 = true ∧ f.writes 0x1008 = true ∧
      ∀ b, f.reads b = true → f.writes b = true → 0x1008 ≤ b := by
  refine ⟨⟨rfl, rfl⟩, by decide, by decide, by decide, by decide, by decide, by decide +kernel, by decide +kernel,
    by decide +kernel, ?_⟩
  intro b _ hw
  exact ((writes_iff _ _).1 hw).1

/-- F9c: the record leaves the writable memory at 0x2100, and every byte read is admitted. -/
theorem witness_UnadmittedByteFaults :
    let x := { args with out := 0x20F0 }
    let f := footprint .pstat2U8Sc x
    IdleAtPort (demo plat (armed x) [] 4) (armed x) ∧ LegalTier plat .pstat2U8Sc ∧
      LegalWritten (armed x) .pstat2U8Sc ∧ LegalDimensions (armed x) .pstat2U8Sc ∧
      LegalStrides (armed x) .pstat2U8Sc ∧ LegalAlignment (armed x) .pstat2U8Sc ∧
      LegalRange (armed x) .pstat2U8Sc ∧ LegalApart (armed x) .pstat2U8Sc ∧ NotAdmitted plat f 0x2100 ∧
      ∀ b, NotAdmitted plat f b → 0x2100 ≤ b := by
  refine ⟨⟨rfl, rfl⟩, by decide, by decide, by decide, by decide, by decide, by decide +kernel, by decide +kernel,
    .inr ⟨by decide +kernel, by decide +kernel⟩, ?_⟩
  intro b hb
  by_contra hlt
  rcases hb with ⟨hr, hn⟩ | ⟨hw, hn⟩
  · have hr : (rowStart 0x1000 16 0 ≤ (b : Int) ∧ (b : Int) < rowStart 0x1000 16 0 + 4) ∨
        (rowStart 0x1080 16 0 ≤ (b : Int) ∧ (b : Int) < rowStart 0x1080 16 0 + 4) := by
      simpa [Footprint.reads, footprint, planeRows, commandArgs, args, Instr.planes, Instr.format, Instr.tier,
        rowBytes, tierWidth, sampleSize, PlaneRows.covers, PlaneRows.inRow, List.range_succ] using hr
    simp only [rowStart] at hr
    have : (0x1000 ≤ b ∧ b < 0x1004) ∨ (0x1080 ≤ b ∧ b < 0x1084) := by omega
    rcases this with ⟨h1, h2⟩ | ⟨h1, h2⟩ <;> interval_cases b <;> revert hn <;> decide +kernel
  · have h := ((writes_iff _ _).1 hw).1
    have h : 0x20F0 ≤ b := h
    have h2 : b < 0x2100 := by omega
    interval_cases b <;> revert hn <;> decide +kernel

theorem witness_FaultingCommandWritesNothing :
    (match exec .pstat1U8Sc (demo plat Engine.reset [] 0) with
      | .next t => t.faults
      | _ => []) ≠ (demo plat Engine.reset [] 0).faults := by decide +kernel

theorem witness_FaultedEngineIsStuck :
    (demo plat { armed args with status := .faulted (.uninitArg .out) } [] 0).engine? 0 =
      some { armed args with status := .faulted (.uninitArg .out) } := rfl

/-- Stores at the first and last byte read and the last byte written, loads at the first byte written and over the
whole plane read, and a store to the byte directly above the plane. -/
theorem witness_RacingHostAccessFaultsTheOpenCommand :
    let s := demo plat busy [] 0
    let f := footprint .pstat1U8Sc args
    s.engine? 0 = some busy ∧ busy.status = .busy ⟨.pstat1U8Sc, 0, 0, none⟩ ∧
      (∀ a ∈ [0x1000, 0x1003, 0x200F, 0x2000, 0x1004], HostAccessible s a 1) ∧ HostAccessible s 0x1000 4 ∧
      f.reads 0x1000 = true ∧ f.reads 0x1003 = true ∧ f.writes 0x200F = true ∧ f.writes 0x2000 = true ∧
      (f.reads 0x1004 = false ∧ f.writes 0x1004 = false) ∧
      ∀ b, 0x1000 ≤ b → b < 0x1000 + 4 → f.writes b = false := by
  refine ⟨rfl, rfl, ?_, ⟨by decide, ?_⟩, by decide +kernel, by decide +kernel, by decide +kernel,
    by decide +kernel, by decide +kernel, ?_⟩
  · intro a ha
    refine ⟨by revert a; decide, fun b h1 h2 => ?_⟩
    obtain rfl : b = a := by omega
    revert b
    decide +kernel
  · intro b h1 h2
    interval_cases b <;> decide +kernel
  · intro b h1 h2
    interval_cases b <;> decide +kernel

theorem witness_ConflictingCommandsBothRace :
    IdleAtPort (twoEngines 0x2000) (armed args) ∧ LegalStart plat128 (armed args) .pstat1U8Sc ∧
      (twoEngines 0x2000).engine? 1 = some { armed args with status := .busy ⟨.pstat1U8Sc, 0, 1, none⟩ } ∧
      ¬ (footprint .pstat1U8Sc args).compatible (footprint .pstat1U8Sc args) := by
  refine ⟨⟨rfl, rfl⟩, by decide +kernel, rfl, fun h => ?_⟩
  exact (h 0x2000).1 ⟨by decide +kernel, .inr (by decide +kernel)⟩

/-- The byte directly below the record. -/
theorem witness_NonRacingStoreCommutesWithCompletion :
    (demo plat busy [] 0).mem.wf ∧ (demo plat busy [] 0).engine? 0 = some busy ∧
      LegalStart plat busy .pstat1U8Sc ∧ HostAccessible (demo plat busy [] 0) 0x1FFF 1 ∧
      ∀ b, 0x1FFF ≤ b → b < 0x1FFF + 1 →
        (footprint .pstat1U8Sc busy.args).reads b = false ∧ (footprint .pstat1U8Sc busy.args).writes b = false := by
  refine ⟨by decide, rfl, by decide +kernel, ⟨by decide, fun b h1 h2 => ?_⟩, fun b h1 h2 => ?_⟩ <;> interval_cases b
  · decide +kernel
  exact ⟨by decide +kernel, by decide +kernel⟩

/-- For the register statements: an engine that is not busy, a thread, a register written and one not; and a step whose
event is no write of OUT. -/
theorem witness_ArgumentRegistersHoldWhatWasWritten :
    ((demo plat (armed args) [] 0).engine? 0 = some (armed args) ∧ (armed args).isBusy = false ∧
      ∀ r, (armed args).written.get r = true) ∧
    ((∃ u, step atCmd = .next u) ∧ atCmd.engine? 0 = some (armed args) ∧ nextEvent atCmd ≠ .reset ∧
      ∀ v, [cmdWord 0 (.lit 0x15)][0]? ≠ some (wrReg 0 (.arg .out) v)) ∧
    let s := demo plat Engine.reset [] 0
    s.engine? 0 = some Engine.reset ∧ Engine.reset.isBusy = false ∧ s.threads[0]? = some ⟨[], 0, [], .ready⟩ ∧
      (∀ r, Engine.reset.written.get r = false) ∧ ∃ t, exec .pstat1U8Sc s = .next t :=
  ⟨⟨rfl, rfl, fun r => by cases r <;> rfl⟩,
    ⟨exists_next_of_goesOn (by decide +kernel), rfl, by decide, fun v => by simp [cmdWord, wrReg, regOffset]⟩,
    rfl, rfl, rfl, fun r => by cases r <;> rfl, exists_next_of_goesOn (by decide +kernel)⟩

theorem witness_CapsIsHardwired :
    (demo plat (armed args) [] 0).engine? 0 = some (armed args) ∧ (armed args).isBusy = false ∧
      (demo plat (armed args) [] 0).threads[0]? = some ⟨[], 0, [], .ready⟩ := ⟨rfl, rfl, rfl⟩

theorem witness_CmdReadsZero :
    (demo plat (armed args) [] 0).engine? 1 = some Engine.reset ∧ Engine.reset.isBusy = false ∧
      (demo plat (armed args) [] 0).threads[1]? = some ⟨[], 0, [], .ready⟩ := ⟨rfl, rfl, rfl⟩

/-- Engine 0 running the baseline command, a register operation having faulted on it meanwhile (log 11). -/
def busyHeld : Engine := { busy with status := .busy ⟨.pstat1U8Sc, 0, 0, some (.badRegAccess 0x08 4)⟩ }

/-- Bad: a reserved offset, one past the window, another width, a busy engine, with or without a fault that it holds.
Not bad: a register at its own, and a CMD write, which goes on. -/
theorem witness_BadRegisterAccessFaults :
    (∀ r, ¬ (regOffset r = 0x38 ∧ regWidth r = 4)) ∧ (∀ r, ¬ (regOffset r = 0x40 ∧ regWidth r = 8)) ∧
      (∀ r, ¬ (regOffset r = 0x30 ∧ regWidth r = 4)) ∧ busy.isBusy = true ∧
      (demo plat busy [] 0).engine? 0 = some busy ∧
      (busyHeld.isBusy = true ∧ (demo plat busyHeld [] 0).engine? 0 = some busyHeld) ∧
      (regOffset (.arg .stride2) = 0x30 ∧ regWidth (.arg .stride2) = 8 ∧ (armed args).isBusy = false) ∧
      (regOffset .cmd = 0 ∧ regWidth .cmd = 4) ∧
      ∃ u, writeRegister true (demo plat (armed args) [] 0) 0 0 0 4 0 = .next u := by
  refine ⟨?_, ?_, ?_, rfl, rfl, ⟨rfl, rfl⟩, ⟨rfl, rfl, rfl⟩, ⟨rfl, rfl⟩,
    exists_next_of_goesOn (by decide +kernel)⟩ <;>
    · intro r
      rcases r with _ | _ | r
      · decide
      · decide
      · cases r <;> decide

theorem witness_MemoryIsLittleEndian : Memory.wf [(0x1000, 1), (0x1001, 255)] := by decide

/-- A thread that sees every write, and one that does not see the last byte of those it loads. -/
theorem witness_HostStoreThenLoadReturnsTheValue :
    let s := { demo plat (armed args) [] 0 with unseen := [⟨1, 0x3007, 5⟩] }
    s.mem.wf ∧ s.threads[1]? = some ⟨[], 0, [], .ready⟩ ∧ s.threads[0]? = some ⟨[], 0, [], .ready⟩ ∧
      (∀ r ∈ s.unseen, r.thread = 0 → r.within 0x3000 8 = false) ∧
      (∃ r ∈ s.unseen, r.thread = 1 ∧ r.within 0x3000 8 = true) ∧ HostAccessible s 0x3000 8 := by
  refine ⟨by decide, rfl, rfl, by decide, ⟨_, List.mem_cons_self, by decide⟩, ⟨by decide, fun b h1 h2 => ?_⟩⟩
  interval_cases b <;> decide +kernel

theorem witness_HostControlMovesThePosition :
    let s := { demo plat (armed args) [] 0 with
      threads := [⟨[.letVar 0 (.lit 1), .ifGoto ⟨.eq, .lit 1, .lit 1⟩ 0], 1, [], .ready⟩,
        ⟨[.letVar 0 (.lit 1)], 0, [], .ready⟩] }
    (∃ th, s.threads[0]? = some th ∧ th.status = .ready ∧
      th.program[th.pos]? = some (.ifGoto ⟨.eq, .lit 1, .lit 1⟩ 0)) ∧
    ∃ th, s.threads[1]? = some th ∧ th.status = .ready ∧ th.program[th.pos]? = some (.letVar 0 (.lit 1)) :=
  ⟨⟨_, rfl, rfl, rfl⟩, _, rfl, rfl, rfl⟩

theorem witness_WaitingThreadPerformsNothing :
    ({ demo plat busy [] 0 with threads := [⟨[], 0, [], .waiting 0⟩] } : State).threads[0]? =
      some ⟨[], 0, [], .waiting 0⟩ := rfl

theorem witness_OpenCommandsComplete :
    (demo plat busy [] 0).engine? 0 = some busy ∧ busy.status = .busy ⟨.pstat1U8Sc, 0, 0, none⟩ ∧
      busyHeld.status = .busy ⟨.pstat1U8Sc, 0, 0, some (.badRegAccess 0x08 4)⟩ ∧
      ((demo plat busy [] 0).mem.wf ∧ 1 < (demo plat busy [] 0).threads.length ∧
        (footprint .pstat1U8Sc busy.args).writes 0x200F = true) ∧
      (demo plat busy [] 0).sched = [] ∧ ∃ g ∈ (demo plat busy [] 0).engines, g.isBusy = true :=
  ⟨rfl, rfl, rfl, ⟨by decide, by decide, by decide +kernel⟩, rfl, busy, by simp [demo], rfl⟩

theorem witness_ResetClearsTheEnginesOnly :
    ∀ g ∈ (demo plat { armed args with status := .faulted (.uninitArg .out) } [] 0).engines, g.isBusy = false := by
  decide

theorem witness_ResetWhileBusyIsRefused : ∃ g ∈ (demo plat busy [] 0).engines, g.isBusy = true :=
  ⟨busy, by simp [demo], rfl⟩

/-- A state with a stored byte and a program satisfies the invariant, and its step goes on. -/
theorem witness_StepKeepsTheInvariant :
    ({ atCmd with mem := [(0x1000, 9)] } : State).Inv ∧
      ∃ t, step { atCmd with mem := [(0x1000, 9)] } = .next t := by
  refine ⟨?_, ?_⟩
  · have idle : ∀ e g, ({ atCmd with mem := [(0x1000, 9)] } : State).engine? e = some g → g.status = .idle := by
      intro e g h
      have all : ∀ g ∈ atCmd.engines, g.status = .idle := by decide
      exact all g (List.mem_of_getElem? h)
    refine ⟨by decide, by decide, by decide, by decide, ?_, ?_, ?_⟩
    · intro e g p hg hp
      rw [idle e g hg] at hp
      cases hp
    · intro e e' g g' f f' _ hg _ hf _
      simp [Engine.openFootprint, idle e g hg] at hf
    · intro e g f hg hf
      simp [EngineStatus.heldFault, idle e g hg] at hf
  · exact exists_next_of_goesOn (by decide +kernel)

theorem witness_StepKeepsMemoryCanonical :
    Memory.wf [(0x1000, 9)] ∧ ∃ t, step { atCmd with mem := [(0x1000, 9)] } = .next t :=
  ⟨by decide, exists_next_of_goesOn (by decide +kernel)⟩

theorem witness_StepKeepsPlatformAndFaultRecord :
    ∃ t, step (State.reset.withFetchWord 32 0) = .next t := exists_next_of_goesOn (by decide +kernel)

/-- U8 at V256 fills its index lanes' range exactly at 2^8 lanes or fewer. -/
theorem witness_TailMaskCoversTheRemainder : (32 ≤ 2 ^ 8 ∧ 31 < 32) ∧ (256 ≤ 2 ^ 8 ∧ 255 < 256) := by decide

theorem witness_ByteSumsAreExact : (List.replicate 32 (255 : BitVec 8)).length = 8 * 4 ∧ 3 < 4 := by decide

theorem witness_SplitSumsAreExact : (List.replicate 16 (0xFFFF : BitVec 16)).length = 4 * 4 ∧ 3 < 4 := by decide

theorem witness_TreeFoldsUpperHalfOntoLowerHalf : 1 ≤ 1 ∧ ([1, 2] : List DWord).length = 2 * 1 := by decide

theorem witness_IntegerReductionsGiveTheExtremumAndTheSum :
    (List.replicate 32 (7 : BitVec 8)).length = 2 ^ 5 ∧ ([7] : List (BitVec 16)).length = 2 ^ 0 ∧
      ([0xFFFFFFFFFFFFFFFF, 2] : List DWord).length = 2 ^ 1 := by decide

theorem witness_FloatReductionsGiveTheOrderedExtrema :
    ([0x80000000, 0, 0x7F800000, 0xFF800000] : List F32).length = 2 ^ 2 ∧
      ∀ x ∈ ([0x80000000, 0, 0x7F800000, 0xFF800000] : List F32), isNaN32 x = false := by
  refine ⟨rfl, ?_⟩
  simp only [List.forall_mem_cons, List.not_mem_nil, false_imp_iff, implies_true, and_true]
  decide +kernel

theorem witness_FloatOrderIsStrictAndTotal :
    flt 0xBF800000 0x80000000 = true ∧ flt 0x80000000 0 = true ∧ isNaN32 0x7F800000 = false ∧
      isNaN32 0xFF800000 = false ∧ (0x7F800000 : F32) ≠ 0xFF800000 := by decide +kernel

/-- Operands that meet each premise of `IsSum`: a NaN, infinities of different and of the same sign, an infinity and a
finite value, a zero sum, a tie, the least sum that overflows, and the same of the other sign. -/
theorem witness_AdditionRoundsToNearestEven :
    isNaNEnc 52 11 0x7FF0000000000001 = true ∧ isInfEnc 52 11 0x7FF0000000000000 = true ∧
      isInfEnc 52 11 0xFFF0000000000000 = true ∧
      signOf 52 11 0x7FF0000000000000 ≠ signOf 52 11 0xFFF0000000000000 ∧
      IsFinite 52 11 0x3FF0000000000000 ∧ IsFinite 52 11 0x3CA0000000000000 ∧ IsFinite 52 11 0xBFF0000000000000 ∧
      valueOf 52 11 0x3FF0000000000000 + valueOf 52 11 0xBFF0000000000000 = 0 ∧
      valueOf 52 11 0x3FF0000000000000 + valueOf 52 11 0x3CA0000000000000 < overflowBound 52 11 ∧
      IsFinite 52 11 0x7FEFFFFFFFFFFFFF ∧ IsFinite 52 11 0x7C90000000000000 ∧
      valueOf 52 11 0x7FEFFFFFFFFFFFFF + valueOf 52 11 0x7C90000000000000 = overflowBound 52 11 ∧
      valueOf 52 11 0xFFEFFFFFFFFFFFFF + valueOf 52 11 0xFC90000000000000 = -overflowBound 52 11 := by
  simp only [IsFinite]
  decide +kernel

/-- IEEE 754: a tie goes to even, half a step above the greatest finite value goes to the infinity, one less does not. -/
theorem test_add_f64 : addF64 0x3FF0000000000000 0x3CA0000000000000 = 0x3FF0000000000000 ∧
    addF64 0x7FEFFFFFFFFFFFFF 0x7C90000000000000 = 0x7FF0000000000000 ∧
    addF64 0x7FEFFFFFFFFFFFFF 0x7C8FFFFFFFFFFFFF = 0x7FEFFFFFFFFFFFFF := by decide +kernel

theorem witness_WideningIsExact :
    isNaN32 0x7F800001 = true ∧ isNaN32 0x7F7FFFFF = false ∧ isInfEnc 23 8 0x7F7FFFFF = false ∧
      isNaN32 1 = false ∧ isInfEnc 23 8 1 = false := by decide +kernel

/-- Thread 0 at the first operation of an expansion of R115, with one operation before it. -/
def atAuto : State :=
  let x : PstatOperands :=
    ⟨.lit 0x2000, .lit 0x1000, .lit 16, .lit 0x1080, .lit 16, .lit 4, .lit 1⟩
  { demo plat128 Engine.reset [] 0 with
    threads := [⟨[.letVar 2 (.lit 0)] ++ pstatAuto 0 .u8 .two x 1 0 1 ++ [], 1, [], .ready⟩] }

theorem witness_AutoTierIsTheWidestPresent :
    tierPresent plat .v256 = true ∧ atAuto.engine? 0 = some Engine.reset ∧ Engine.reset.isBusy = false ∧
      ∃ th, atAuto.threads[0]? = some th ∧ th.status = .ready ∧ th.pos = [HostOp.letVar 2 (.lit 0)].length ∧
        th.program = [.letVar 2 (.lit 0)] ++
          pstatAuto 0 .u8 .two ⟨.lit 0x2000, .lit 0x1000, .lit 16, .lit 0x1080, .lit 16, .lit 4, .lit 1⟩
            [HostOp.letVar 2 (.lit 0)].length 0 1 ++ [] :=
  ⟨by decide, rfl, rfl, _, rfl, rfl, rfl, rfl⟩

/-- R115, P3: where V128 is the widest tier, the run comes to the CMD write with PSTAT2.U8.V128's word. -/
theorem test_auto_word :
    (match runThreadTimes 0 12 atAuto with
      | .next t => t.threads[0]?.map fun th => (th.program[th.pos]?, readVar th.vars 1)
      | _ => none) = some (some (cmdWord 0 (.var 1)), 0x0C) := by decide +kernel

end Sys2Proof.Tests
end

/-! Proofs about the floating-point primitives (Machine/Float.lean): sign and magnitude of an encoding, the value of a
magnitude, rounding to nearest, addition and widening. They are stated for every format with a fraction bit and two
exponent bits, and the last section reads them off for binary32 and binary64. -/

namespace Sys2Proof.Machine

/-! ### Sign and magnitude of an encoding -/

section Encoding

variable {fw ew : Nat}

theorem infEnc_lt_signBit : infEnc fw ew < signBit fw ew := by
  have : signBit fw ew = 2 ^ ew * 2 ^ fw := by rw [signBit, Nat.add_comm, pow_add]
  rw [this]
  exact Nat.mul_lt_mul_of_pos_right (Nat.sub_lt (by positivity) one_pos) (by positivity)

theorem magEnc_lt_signBit (x : Nat) : magEnc fw ew x < signBit fw ew :=
  Nat.mod_lt _ (by unfold signBit; positivity)

theorem magEnc_of_lt {m : Nat} (h : m < signBit fw ew) : magEnc fw ew m = m := Nat.mod_eq_of_lt h

/-- An encoding is its sign put on its magnitude. -/
theorem withSign_signOf_magEnc {x : Nat} (h : x < 2 * signBit fw ew) :
    withSign fw ew (signOf fw ew x) (magEnc fw ew x) = x := by
  by_cases hs : signBit fw ew ≤ x
  · have : x % signBit fw ew = x - signBit fw ew := by
      rw [Nat.mod_eq_sub_mod hs, Nat.mod_eq_of_lt (by omega)]
    simp only [withSign, signOf, magEnc, hs, decide_true, if_true, this]
    omega
  · simp [withSign, signOf, magEnc, hs, Nat.mod_eq_of_lt (not_le.1 hs)]

theorem withSign_lt {m : Nat} (neg : Bool) (h : m < signBit fw ew) : withSign fw ew neg m < 2 * signBit fw ew := by
  unfold withSign
  split <;> omega

@[simp] theorem magEnc_withSign {m : Nat} (neg : Bool) (h : m < signBit fw ew) :
    magEnc fw ew (withSign fw ew neg m) = m := by
  cases neg <;> simp [withSign, magEnc, Nat.mod_eq_of_lt h]

@[simp] theorem signOf_withSign {m : Nat} (neg : Bool) (h : m < signBit fw ew) :
    signOf fw ew (withSign fw ew neg m) = neg := by
  cases neg <;> simp [withSign, signOf, h]

theorem valueOf_withSign {m : Nat} (neg : Bool) (h : m < signBit fw ew) :
    valueOf fw ew (withSign fw ew neg m) = if neg then -(magValue fw m : Int) else magValue fw m := by
  simp only [valueOf, signOf_withSign neg h, magEnc_withSign neg h]

/-- The sign bit does not move the last bit of the fraction. -/
theorem withSign_mod_two (hfw : 1 ≤ fw) (neg : Bool) (m : Nat) : withSign fw ew neg m % 2 = m % 2 := by
  have : signBit fw ew = 2 * 2 ^ (fw + ew - 1) := by rw [signBit, ← pow_succ']; congr 1; omega
  unfold withSign
  split <;> omega

theorem negEnc_eq (x : Nat) :
    negEnc fw ew x = if signBit fw ew ≤ x then magEnc fw ew x else signBit fw ew + magEnc fw ew x := by
  by_cases h : signBit fw ew ≤ x <;> simp [negEnc, withSign, signOf, h]

theorem isNaNEnc_of_isInfEnc {x : Nat} (h : isInfEnc fw ew x = true) : isNaNEnc fw ew x = false := by
  simp only [isInfEnc, isNaNEnc, decide_eq_true_eq, decide_eq_false_iff_not] at h ⊢
  omega

theorem isFinite_iff {x : Nat} : IsFinite fw ew x ↔ magEnc fw ew x < infEnc fw ew := by
  simp only [IsFinite, isNaNEnc, isInfEnc, decide_eq_false_iff_not]
  omega

theorem quietNaN_lt_signBit (hfw : 1 ≤ fw) : quietNaN fw ew < signBit fw ew := by
  have hs : signBit fw ew = infEnc fw ew + 2 ^ fw := by
    rw [signBit, infEnc, ← Nat.succ_mul, Nat.succ_eq_add_one, Nat.sub_add_cancel Nat.one_le_two_pow, ← pow_add,
      Nat.add_comm]
  have : 2 ^ (fw - 1) < 2 ^ fw := Nat.pow_lt_pow_right (by norm_num) (by omega)
  rw [quietNaN, hs]
  omega

theorem isNaNEnc_quietNaN (hfw : 1 ≤ fw) : isNaNEnc fw ew (quietNaN fw ew) = true := by
  have : 0 < 2 ^ (fw - 1) := by positivity
  simp only [isNaNEnc, magEnc_of_lt (quietNaN_lt_signBit hfw), decide_eq_true_eq]
  rw [quietNaN]
  omega

end Encoding

/-! ### The value of a magnitude -/

section Magnitude

variable {fw ew : Nat}

/-- A magnitude of exponent step `k` and significand `a` is worth `a · 2^k` units; `a = 2^(fw+1)` is the carry into the
next exponent, and a subnormal has `k = 0`. -/
theorem magValue_scaled {k a : Nat} (ha : a ≤ 2 ^ (fw + 1)) (hk : k = 0 ∨ 2 ^ fw ≤ a) :
    magValue fw (k * 2 ^ fw + a) = a * 2 ^ k := by
  have hpos : 0 < 2 ^ fw := by positivity
  rw [pow_succ] at ha
  by_cases hsub : a < 2 ^ fw
  · obtain rfl : k = 0 := by omega
    simp [magValue, Nat.div_eq_of_lt hsub]
  obtain ⟨f, rfl⟩ : ∃ f, a = 2 ^ fw + f := ⟨a - 2 ^ fw, by omega⟩
  have hm : k * 2 ^ fw + (2 ^ fw + f) = f + (k + 1) * 2 ^ fw := by ring
  rw [magValue, hm, Nat.add_mul_div_right _ _ hpos, Nat.add_mul_mod_self_right]
  rcases (show f < 2 ^ fw ∨ f = 2 ^ fw by omega) with hf | rfl
  · simp [Nat.div_eq_of_lt hf, Nat.mod_eq_of_lt hf]
  · have : 1 + (k + 1) - 1 = k + 1 := by omega
    simp only [Nat.div_self hpos, Nat.mod_self, this, pow_succ]
    rw [if_neg (by omega)]
    ring

/-- Every magnitude has an exponent step and a significand. -/
theorem exists_scaled (m : Nat) :
    ∃ k a, m = k * 2 ^ fw + a ∧ a < 2 ^ (fw + 1) ∧ (k = 0 ∨ 2 ^ fw ≤ a) := by
  have hmod : m % 2 ^ fw < 2 ^ fw := Nat.mod_lt _ (by positivity)
  have hdiv : 2 ^ fw * (m / 2 ^ fw) + m % 2 ^ fw = m := Nat.div_add_mod m _
  cases hE : m / 2 ^ fw with
  | zero => exact ⟨0, m, by simp, by rw [hE] at hdiv; rw [pow_succ]; omega, .inl rfl⟩
  | succ k =>
    refine ⟨k, 2 ^ fw + m % 2 ^ fw, ?_, by rw [pow_succ]; omega, .inr (by omega)⟩
    rw [hE] at hdiv
    linarith

/-- The numeric order of magnitudes is that of their encodings. -/
theorem strictMono_magValue (fw : Nat) : StrictMono (magValue fw) := by
  refine strictMono_nat_of_lt_succ fun m => ?_
  obtain ⟨k, a, rfl, ha, hk⟩ := exists_scaled (fw := fw) m
  rw [Nat.add_assoc, magValue_scaled ha.le hk, magValue_scaled ha (by omega)]
  exact Nat.mul_lt_mul_of_pos_right (Nat.lt_succ_self a) (by positivity)

@[simp] theorem magValue_zero (fw : Nat) : magValue fw 0 = 0 := by simp [magValue]

theorem magValue_eq_zero {m : Nat} : magValue fw m = 0 ↔ m = 0 := by
  simpa using (strictMono_magValue fw).injective.eq_iff (a := m) (b := 0)

/-- Every significand of `fw + 1` bits times every power of two is the value of a magnitude. -/
theorem exists_magValue_eq (j : Nat) : ∀ a, a < 2 ^ (fw + 1) → ∃ m, magValue fw m = a * 2 ^ j := by
  induction j with
  | zero => exact fun a ha => ⟨a, by simpa using magValue_scaled (k := 0) ha.le (.inl rfl)⟩
  | succ j ih =>
    intro a ha
    by_cases h : 2 ^ fw ≤ a
    · exact ⟨_, magValue_scaled ha.le (.inr h)⟩
    · obtain ⟨m, hm⟩ := ih (2 * a) (by rw [pow_succ]; omega)
      exact ⟨m, by rw [hm, pow_succ]; ring⟩

theorem magValue_infEnc (hew : 1 ≤ ew) : magValue fw (infEnc fw ew) = 2 ^ fw * 2 ^ (2 ^ ew - 2) := by
  have h2 : 2 ≤ 2 ^ ew := by simpa using Nat.pow_le_pow_right (n := 2) (by norm_num) hew
  have hinf : infEnc fw ew = (2 ^ ew - 2) * 2 ^ fw + 2 ^ fw := by
    rw [infEnc, ← Nat.succ_mul]; congr 1; omega
  rw [hinf, magValue_scaled (by rw [pow_succ]; omega) (.inr le_rfl)]

/-- The least magnitude that rounds to infinity lies half way between the greatest finite value and the next power of
two, which `magValue` gives infinity. -/
theorem two_mul_overflowBound (hew : 2 ≤ ew) :
    2 * overflowBound fw ew = magValue fw (infEnc fw ew - 1) + magValue fw (infEnc fw ew) := by
  have h4 : 4 ≤ 2 ^ ew := by simpa using Nat.pow_le_pow_right (n := 2) (by norm_num) hew
  obtain ⟨t, ht⟩ : ∃ t, 2 ^ ew = t + 4 := ⟨2 ^ ew - 4, by omega⟩
  have hpos : 0 < 2 ^ fw := by positivity
  have hgreatest : infEnc fw ew - 1 = (t + 1) * 2 ^ fw + (2 ^ (fw + 1) - 1) := by
    have : infEnc fw ew = (t + 1) * 2 ^ fw + 2 ^ (fw + 1) := by
      rw [infEnc, ht, show t + 4 - 1 = t + 3 by omega, pow_succ]; ring
    rw [this]
    have : 0 < 2 ^ (fw + 1) := by positivity
    omega
  rw [magValue_infEnc (by omega), hgreatest,
    magValue_scaled (Nat.sub_le _ _) (.inr (by rw [pow_succ]; omega)), overflowBound, ht]
  simp only [Nat.add_sub_cancel, show t + 4 - 2 = t + 2 by omega, Nat.cast_mul, Nat.cast_sub Nat.one_le_two_pow]
  push_cast
  ring

theorem overflowBound_pos : 0 < overflowBound fw ew := by
  have : 1 < 2 ^ (fw + 2) := Nat.one_lt_two_pow (by omega)
  exact Int.natCast_pos.2 (Nat.mul_pos (by omega) (by positivity))

end Magnitude

/-! ### Rounding a magnitude to nearest, ties to even -/

section Rounding

variable {fw ew : Nat}

/-- `R` is a magnitude nearest to `n` units, and the even one of two equally near (R13), whatever the greatest finite
value: `IsNearestEven` without sign and bound. -/
def IsNearestMag (fw R n : Nat) : Prop :=
  ∀ m, ((magValue fw R : Int) - n).natAbs ≤ ((magValue fw m : Int) - n).natAbs ∧
    (((magValue fw R : Int) - n).natAbs = ((magValue fw m : Int) - n).natAbs → magValue fw m ≠ magValue fw R →
      R % 2 = 0)

theorem isNearestMag_of_magValue_eq {R n : Nat} (h : magValue fw R = n) : IsNearestMag fw R n :=
  fun m => ⟨by omega, fun htie hne => by omega⟩

/-- A magnitude nearest to a value that the format has is worth that value. -/
theorem IsNearestMag.magValue_eq {R n m : Nat} (h : IsNearestMag fw R n) (hm : magValue fw m = n) :
    magValue fw R = n := by
  have := (h m).1
  omega

/-- Between two neighbours the nearer one, and half way the even one, is nearest among all magnitudes. -/
theorem isNearestMag_of_neighbours {R e n : Nat} (lo : magValue fw e ≤ n) (hi : n < magValue fw (e + 1))
    (h : (R = e ∧ 2 * n < magValue fw e + magValue fw (e + 1)) ∨
      (R = e + 1 ∧ magValue fw e + magValue fw (e + 1) < 2 * n) ∨
      (2 * n = magValue fw e + magValue fw (e + 1) ∧ (R = e ∨ R = e + 1) ∧ R % 2 = 0)) :
    IsNearestMag fw R n := by
  intro m
  have hmono := (strictMono_magValue fw).monotone
  have hm : magValue fw m ≤ magValue fw e ∨ magValue fw (e + 1) ≤ magValue fw m :=
    (Nat.lt_or_ge e m).elim (fun h => .inr (hmono h)) (fun h => .inl (hmono h))
  rcases h with ⟨rfl, h⟩ | ⟨rfl, h⟩ | ⟨h, rfl | rfl, heven⟩ <;> constructor <;> omega

/-- The rounded magnitude of `n` units with no bound on the exponent. -/
def roundMag (fw n : Nat) : Nat := (n.log2 - fw) * 2 ^ fw + roundShift n (n.log2 - fw)

/-- The significand of `n` at its exponent step fits the format, and is normal unless the step is 0. -/
theorem significand_bounds (fw n : Nat) :
    n / 2 ^ (n.log2 - fw) < 2 ^ (fw + 1) ∧ (n.log2 - fw = 0 ∨ 2 ^ fw ≤ n / 2 ^ (n.log2 - fw)) := by
  constructor
  · rw [Nat.div_lt_iff_lt_mul (by positivity), ← pow_add]
    exact Nat.lt_log2_self.trans_le (Nat.pow_le_pow_right (by norm_num) (by omega))
  · by_cases h : n.log2 ≤ fw
    · exact .inl (by omega)
    · right
      have hn : n ≠ 0 := by rintro rfl; simp at h
      rw [Nat.le_div_iff_mul_le (by positivity), ← pow_add, show fw + (n.log2 - fw) = n.log2 by omega]
      exact Nat.log2_self_le hn

theorem roundMag_isNearestMag (hfw : 1 ≤ fw) (n : Nat) : IsNearestMag fw (roundMag fw n) n := by
  obtain ⟨hq, hk⟩ := significand_bounds fw n
  rw [roundMag, roundShift]
  generalize n.log2 - fw = k at *
  have hdiv : n / 2 ^ k * 2 ^ k + n % 2 ^ k = n := Nat.div_add_mod' n _
  have hmod : n % 2 ^ k < 2 ^ k := Nat.mod_lt _ (by positivity)
  have lo : magValue fw (k * 2 ^ fw + n / 2 ^ k) = n / 2 ^ k * 2 ^ k := magValue_scaled hq.le hk
  have hi : magValue fw (k * 2 ^ fw + n / 2 ^ k + 1) = n / 2 ^ k * 2 ^ k + 2 ^ k := by
    rw [Nat.add_assoc, magValue_scaled hq (by omega), Nat.succ_mul]
  have parity : (k * 2 ^ fw + n / 2 ^ k) % 2 = n / 2 ^ k % 2 := by
    obtain ⟨f, rfl⟩ : ∃ f, fw = f + 1 := ⟨fw - 1, by omega⟩
    rw [pow_succ, ← Nat.mul_assoc]
    omega
  apply isNearestMag_of_neighbours (e := k * 2 ^ fw + n / 2 ^ k)
  · omega
  · omega
  · simp only [lo, hi]
    split <;> omega

theorem roundEnc_eq_min (hew : 2 ≤ ew) (n : Nat) : roundEnc fw ew n = min (roundMag fw n) (infEnc fw ew) := by
  by_cases h : n < 2 ^ (fw + 1)
  · have hlog : n.log2 - fw = 0 := by
      rcases Nat.eq_zero_or_pos n with rfl | hn
      · simp
      · have := (Nat.log2_lt hn.ne').2 h
        omega
    have hraw : roundMag fw n = n := by simp [roundMag, roundShift, hlog, Nat.mod_one]
    have hinf : 2 ^ (fw + 1) ≤ infEnc fw ew := by
      have h4 : 4 ≤ 2 ^ ew := by simpa using Nat.pow_le_pow_right (n := 2) (by norm_num) hew
      rw [pow_succ', infEnc]
      exact Nat.mul_le_mul_right _ (by omega)
    rw [roundEnc, if_pos h, hraw]
    omega
  · rw [roundEnc, if_neg h]
    rfl

/-- The greatest finite magnitude is odd, so a tie with it goes to infinity. -/
theorem greatest_finite_odd (hfw : 1 ≤ fw) (hew : 1 ≤ ew) : (infEnc fw ew - 1) % 2 = 1 := by
  obtain ⟨f, rfl⟩ : ∃ f, fw = f + 1 := ⟨fw - 1, by omega⟩
  have h2 : 2 ≤ 2 ^ ew := by simpa using Nat.pow_le_pow_right (n := 2) (by norm_num) hew
  have : 0 < infEnc (f + 1) ew := Nat.mul_pos (by omega) (by positivity)
  have : infEnc (f + 1) ew = 2 * ((2 ^ ew - 1) * 2 ^ f) := by rw [infEnc, pow_succ]; ring
  omega

/-- A nearest magnitude is finite exactly below the overflow bound. -/
theorem IsNearestMag.lt_infEnc_iff (hfw : 1 ≤ fw) (hew : 2 ≤ ew) {R n : Nat} (h : IsNearestMag fw R n) :
    R < infEnc fw ew ↔ (n : Int) < overflowBound fw ew := by
  have hbound := two_mul_overflowBound (fw := fw) hew
  have hodd := greatest_finite_odd (ew := ew) hfw (by omega)
  have hmono := strictMono_magValue fw
  have hlast : magValue fw (infEnc fw ew - 1) < magValue fw (infEnc fw ew) := hmono (by omega)
  constructor
  · intro hR
    have hle : magValue fw R ≤ magValue fw (infEnc fw ew - 1) := hmono.monotone (by omega)
    obtain ⟨near, even⟩ := h (infEnc fw ew)
    by_contra hn
    have htie : magValue fw R = magValue fw (infEnc fw ew - 1) := by omega
    have := hmono.injective htie
    have := even (by omega) (by omega)
    omega
  · intro hn
    by_contra hR
    have hle : magValue fw (infEnc fw ew) ≤ magValue fw R := hmono.monotone (not_lt.1 hR)
    have := (h (infEnc fw ew - 1)).1
    omega

/-- Below the overflow bound `roundEnc` is finite and nearest (R13). -/
theorem roundEnc_isNearestMag (hfw : 1 ≤ fw) (hew : 2 ≤ ew) {n : Nat} (hn : (n : Int) < overflowBound fw ew) :
    roundEnc fw ew n < infEnc fw ew ∧ IsNearestMag fw (roundEnc fw ew n) n := by
  have near := roundMag_isNearestMag hfw n
  have hlt := (near.lt_infEnc_iff hfw hew).2 hn
  rw [roundEnc_eq_min hew, min_eq_left hlt.le]
  exact ⟨hlt, near⟩

/-- From the overflow bound on `roundEnc` is infinity (R13). -/
theorem roundEnc_overflow (hfw : 1 ≤ fw) (hew : 2 ≤ ew) {n : Nat} (hn : overflowBound fw ew ≤ n) :
    roundEnc fw ew n = infEnc fw ew := by
  have := (roundMag_isNearestMag hfw n).lt_infEnc_iff hfw hew
  rw [roundEnc_eq_min hew, min_eq_right]
  omega

/-- A value that the format has below infinity is rounded to itself. -/
theorem roundEnc_exact (hfw : 1 ≤ fw) (hew : 2 ≤ ew) {n m : Nat} (hm : magValue fw m = n)
    (hlt : m < infEnc fw ew) : roundEnc fw ew n = m := by
  have hR : roundMag fw n = m :=
    (strictMono_magValue fw).injective (((roundMag_isNearestMag hfw n).magValue_eq hm).trans hm.symm)
  rw [roundEnc_eq_min hew, hR, min_eq_left hlt.le]

/-- A nearest magnitude keeps its place among all encodings when it and the exact value take one sign: no encoding of
the other sign is nearer than zero. -/
theorem isNearestEven_withSign (hfw : 1 ≤ fw) {R n : Nat} (neg : Bool) (hR : R < infEnc fw ew)
    (near : IsNearestMag fw R n) :
    IsNearestEven fw ew (withSign fw ew neg R) (if neg then -(n : Int) else n) := by
  have hsign : R < signBit fw ew := hR.trans infEnc_lt_signBit
  refine ⟨isFinite_iff.2 (by rwa [magEnc_withSign neg hsign]), fun c _ _ => ?_⟩
  rw [withSign_mod_two hfw, valueOf_withSign neg hsign, valueOf]
  by_cases hs : signOf fw ew c = neg
  · obtain ⟨nearer, tie⟩ := near (magEnc fw ew c)
    rw [hs]
    split <;> omega
  · obtain ⟨nearer, tie⟩ := near 0
    rw [magValue_zero] at nearer tie
    rw [Bool.eq_not_of_ne hs]
    cases neg <;> simp only [Bool.not_true, Bool.not_false, if_true, if_false, Bool.false_eq_true] <;> omega

end Rounding

/-! ### Addition -/

section Addition

variable {fw ew x y : Nat}

theorem addEnc_of_nan (h : isNaNEnc fw ew x = true ∨ isNaNEnc fw ew y = true) :
    addEnc fw ew x y = quietNaN fw ew := by
  simp [addEnc, h]

theorem addEnc_of_inf_inf (hx : isInfEnc fw ew x = true) (hy : isInfEnc fw ew y = true) :
    addEnc fw ew x y = if signOf fw ew x = signOf fw ew y then x else quietNaN fw ew := by
  simp [addEnc, isNaNEnc_of_isInfEnc hx, isNaNEnc_of_isInfEnc hy, hx, hy]

theorem addEnc_of_inf_finite (hx : isInfEnc fw ew x = true) (hy : IsFinite fw ew y) : addEnc fw ew x y = x := by
  simp [addEnc, isNaNEnc_of_isInfEnc hx, hx, hy.1, hy.2]

theorem addEnc_of_finite_inf (hx : IsFinite fw ew x) (hy : isInfEnc fw ew y = true) : addEnc fw ew x y = y := by
  simp [addEnc, isNaNEnc_of_isInfEnc hy, hy, hx.1, hx.2]

theorem addEnc_of_zero (hx : IsFinite fw ew x) (hy : IsFinite fw ew y)
    (h : valueOf fw ew x + valueOf fw ew y = 0) :
    addEnc fw ew x y = withSign fw ew (signOf fw ew x && signOf fw ew y) 0 := by
  simp [addEnc, hx.1, hx.2, hy.1, hy.2, h]

theorem addEnc_of_ne_zero (hx : IsFinite fw ew x) (hy : IsFinite fw ew y)
    (h : valueOf fw ew x + valueOf fw ew y ≠ 0) :
    addEnc fw ew x y = withSign fw ew (decide (valueOf fw ew x + valueOf fw ew y < 0))
      (roundEnc fw ew (valueOf fw ew x + valueOf fw ew y).natAbs) := by
  simp [addEnc, hx.1, hx.2, hy.1, hy.2, h]

/-- The sum's encoding has the format's bits. -/
theorem addEnc_lt (hfw : 1 ≤ fw) (hew : 2 ≤ ew) (hx : x < 2 * signBit fw ew) (hy : y < 2 * signBit fw ew) :
    addEnc fw ew x y < 2 * signBit fw ew := by
  have hnan := quietNaN_lt_signBit (ew := ew) hfw
  have hinf := infEnc_lt_signBit (fw := fw) (ew := ew)
  have hround : ∀ n, roundEnc fw ew n < signBit fw ew := fun n => by
    rw [roundEnc_eq_min hew]; omega
  simp only [addEnc]
  split
  · omega
  split
  · split <;> omega
  split
  · exact hy
  split
  · exact withSign_lt _ (by omega)
  · exact withSign_lt _ (hround _)

/-- Two negative operands with an exact sum of zero are two -0.0. -/
theorem signs_of_zero_sum (hx : x < 2 * signBit fw ew) (hy : y < 2 * signBit fw ew)
    (h : valueOf fw ew x + valueOf fw ew y = 0) :
    (signOf fw ew x = true ∧ signOf fw ew y = true) ↔ (x = signBit fw ew ∧ y = signBit fw ew) := by
  constructor
  · rintro ⟨sx, sy⟩
    simp only [valueOf, sx, sy, if_true] at h
    have mx : magEnc fw ew x = 0 := magValue_eq_zero (fw := fw).1 (by omega)
    have my : magEnc fw ew y = 0 := magValue_eq_zero (fw := fw).1 (by omega)
    constructor
    · simpa [sx, mx, withSign] using (withSign_signOf_magEnc hx).symm
    · simpa [sy, my, withSign] using (withSign_signOf_magEnc hy).symm
  · rintro ⟨rfl, rfl⟩
    simp [signOf]

/-- `addEnc` is IEEE addition, to nearest and ties to even, in every format (R13). -/
theorem isSum_addEnc (hfw : 1 ≤ fw) (hew : 2 ≤ ew) (hx : x < 2 * signBit fw ew) (hy : y < 2 * signBit fw ew) :
    IsSum fw ew x y (addEnc fw ew x y) where
  nan h := by rw [addEnc_of_nan h, isNaNEnc_quietNaN hfw]
  oppositeInfinities ix iy hs := by rw [addEnc_of_inf_inf ix iy, if_neg hs, isNaNEnc_quietNaN hfw]
  sameInfinities ix iy hs := by rw [addEnc_of_inf_inf ix iy, if_pos hs]
  infinityLeft := addEnc_of_inf_finite
  infinityRight := addEnc_of_finite_inf
  zero fx fy h := by
    rw [addEnc_of_zero fx fy h, withSign]
    simp only [Bool.and_eq_true, signs_of_zero_sum hx hy h, Nat.add_zero]
  nearest fx fy lo hi := by
    by_cases h : valueOf fw ew x + valueOf fw ew y = 0
    · have near : IsNearestMag fw 0 0 := isNearestMag_of_magValue_eq (magValue_zero fw)
      have hinf : 0 < infEnc fw ew := by have := greatest_finite_odd (ew := ew) hfw (by omega); omega
      rw [addEnc_of_zero fx fy h, h]
      simpa using isNearestEven_withSign hfw (signOf fw ew x && signOf fw ew y) hinf near
    · rw [addEnc_of_ne_zero fx fy h]
      generalize valueOf fw ew x + valueOf fw ew y = n at *
      obtain ⟨hlt, near⟩ := roundEnc_isNearestMag hfw hew (n := n.natAbs) (by omega)
      have hn : n = if decide (n < 0) = true then -(n.natAbs : Int) else n.natAbs := by
        simp only [decide_eq_true_eq]
        split <;> omega
      have := isNearestEven_withSign hfw (decide (n < 0)) hlt near
      rwa [← hn] at this
  overflow fx fy h := by
    have hpos : 0 < overflowBound fw ew := overflowBound_pos
    rw [addEnc_of_ne_zero fx fy (by omega), roundEnc_overflow hfw hew (by omega), withSign, if_neg (by simp; omega)]
  negativeOverflow fx fy h := by
    have hpos : 0 < overflowBound fw ew := overflowBound_pos
    rw [addEnc_of_ne_zero fx fy (by omega), roundEnc_overflow hfw hew (by omega), withSign, if_pos (by simp; omega)]

end Addition

/-! ### binary32 and binary64 -/

theorem addF64_toNat (a b : F64) : (addF64 a b).toNat = addEnc 52 11 a.toNat b.toNat :=
  Nat.mod_eq_of_lt (addEnc_lt (by norm_num) (by norm_num) a.isLt b.isLt)

/-- Flipping bit 31 negates a binary32 encoding. -/
theorem xor_signBit_toNat (b : F32) : (b ^^^ 0x80000000).toNat = negEnc 23 8 b.toNat := by
  have hb : b.toNat < 2 ^ 32 := b.isLt
  have mag : (b.toNat ^^^ 2 ^ 31) % 2 ^ 31 = b.toNat % 2 ^ 31 := by
    rw [Nat.xor_mod_two_pow, Nat.mod_self, Nat.xor_zero]
  have sign : (b.toNat ^^^ 2 ^ 31) / 2 ^ 31 = b.toNat / 2 ^ 31 ^^^ 1 := by
    rw [Nat.xor_div_two_pow, Nat.div_self (by norm_num)]
  have flipped := Nat.div_add_mod (b.toNat ^^^ 2 ^ 31) (2 ^ 31)
  have sb : signBit 23 8 = 2 ^ 31 := rfl
  have xor : (b ^^^ 0x80000000).toNat = b.toNat ^^^ 2 ^ 31 := BitVec.toNat_xor _ _
  rw [negEnc_eq, magEnc, sb, xor, ← flipped, mag, sign]
  obtain h | h : b.toNat / 2 ^ 31 = 0 ∨ b.toNat / 2 ^ 31 = 1 := by omega
  · rw [h, if_neg (by omega), Nat.zero_xor, Nat.mul_one]
  · rw [h, if_pos (by omega), Nat.xor_self, Nat.mul_zero, Nat.zero_add]

theorem subF32_toNat (a b : F32) : (subF32 a b).toNat = addEnc 23 8 a.toNat (b ^^^ 0x80000000).toNat := by
  rw [subF32, ← xor_signBit_toNat]
  exact Nat.mod_eq_of_lt (addEnc_lt (by norm_num) (by norm_num) a.isLt (b ^^^ 0x80000000).isLt)

theorem absF32_getLsbD (x : F32) (k : Nat) : (absF32 x).getLsbD k = (x.getLsbD k && decide (k < 31)) := by
  have mask : (0x7FFFFFFF : F32).getLsbD k = decide (k < 31) := Nat.testBit_two_pow_sub_one 31 k
  rw [absF32, BitVec.getLsbD_and, mask]

/-- The binary64 magnitude that a finite binary32 value widens to: the same value in the smaller units, below
infinity. -/
theorem exists_widened {m : Nat} (hm : m < infEnc 23 8) :
    ∃ r, magValue 52 r = magValue 23 m * 2 ^ 925 ∧ r < infEnc 52 11 := by
  obtain ⟨k, a, rfl, ha, hk⟩ := exists_scaled (fw := 23) m
  obtain ⟨r, hr⟩ := exists_magValue_eq (fw := 52) (k + 925) a (ha.trans (by norm_num))
  have hval : magValue 52 r = magValue 23 (k * 2 ^ 23 + a) * 2 ^ 925 := by
    rw [hr, magValue_scaled ha.le hk, pow_add, Nat.mul_assoc]
  refine ⟨r, hval, (strictMono_magValue 52).lt_iff_lt.1 ?_⟩
  calc magValue 52 r = magValue 23 (k * 2 ^ 23 + a) * 2 ^ 925 := hval
    _ < magValue 23 (infEnc 23 8) * 2 ^ 925 :=
      Nat.mul_lt_mul_of_pos_right (strictMono_magValue 23 hm) (by positivity)
    _ ≤ magValue 52 (infEnc 52 11) := by
      rw [magValue_infEnc (by norm_num), magValue_infEnc (by norm_num), ← pow_add, ← pow_add, ← pow_add]
      exact Nat.pow_le_pow_right (by norm_num) (by norm_num)

/-- A finite binary32 value keeps its sign and is worth the same in binary64. -/
theorem f32ToF64_finite {x : F32} (hx : IsFinite 23 8 x.toNat) :
    ∃ r, (f32ToF64 x).toNat = withSign 52 11 (signOf 23 8 x.toNat) r ∧ r < infEnc 52 11 ∧
      magValue 52 r = magValue 23 (magEnc 23 8 x.toNat) * 2 ^ 925 := by
  obtain ⟨r, hr, hlt⟩ := exists_widened (isFinite_iff.1 hx)
  refine ⟨r, ?_, hlt, hr⟩
  have hbits : withSign 52 11 (signOf 23 8 x.toNat) r < 2 ^ 64 := withSign_lt _ (hlt.trans infEnc_lt_signBit)
  simp only [f32ToF64, isNaN32, hx.1, hx.2, roundEnc_exact (by norm_num) (by norm_num) hr hlt, if_false,
    Bool.false_eq_true, BitVec.toNat_ofNat, Nat.mod_eq_of_lt hbits]

theorem f32ToF64_of_nan {x : F32} (h : isNaN32 x = true) : isNaN64 (f32ToF64 x) = true := by
  simp only [f32ToF64, h, if_true]
  decide

/-- Exponent all ones over a fraction that is not 0 is a NaN, whatever the sign (R13). -/
theorem isNaN64_append (sign : BitVec 1) {fraction : BitVec 52} (h : fraction ≠ 0) :
    isNaN64 ((sign ++ (0x7FF : BitVec 11)) ++ fraction) = true := by
  have hpos : fraction.toNat ≠ 0 := fun h0 => h (BitVec.eq_of_toNat_eq h0)
  have hf : fraction.toNat < 2 ^ 52 := fraction.isLt
  have hval : ((sign ++ (0x7FF : BitVec 11)) ++ fraction).toNat =
      (sign.toNat * 2 ^ 11 + 0x7FF) * 2 ^ 52 + fraction.toNat := by
    rw [BitVec.toNat_append, BitVec.toNat_append, ← Nat.shiftLeft_add_eq_or_of_lt hf,
      ← Nat.shiftLeft_add_eq_or_of_lt (BitVec.isLt _), Nat.shiftLeft_eq, Nat.shiftLeft_eq]
    rfl
  simp only [isNaN64, isNaNEnc, magEnc, infEnc, signBit, decide_eq_true_eq, hval]
  omega

end Sys2Proof.Machine

/-! Proofs about what every step keeps: the platform, the number of engines, the recorded faults, and the draw
counter's growth. -/

namespace Sys2Proof.Machine

/-- Every move keeps the platform and the number of engines, and only extends the fault record (R9, R312, R323,
R332). -/
theorem Move.keeps {s t : State} (h : Move s t) :
    t.platform = s.platform ∧ s.faults <+: t.faults ∧ t.engines.length = s.engines.length := by
  cases h with
  | stay | finish | reset | badAccess | badCommand | begins | runs | writeArg | host => simp
  | race t e w i g k a p rest =>
    have grew := raiseRaces_faults_prefix (s.atPort t e w) (.engine e) ((k, p, a) :: rest)
    refine ⟨?_, grew.trans (List.prefix_append _ _), ?_⟩ <;> simp [raceState]
  | store t a n v =>
    have grew := raiseRaces_faults_prefix s (.thread t) (hostRaces true a n 0 s.engines)
    exact ⟨by simp, grew, by simp⟩
  | load t var a n looked hl =>
    subst hl
    simp [raiseRaces_faults_prefix]

/-! ### The draw counter (log 6)

`Move.host` leaves the counter open, so its growth is followed along the operations that can draw. -/

theorem look_draws_le (s : State) (t a n : Nat) : s.draws ≤ (s.look t a n).draws := by
  obtain ⟨same, _⟩ | ⟨looked, _⟩ := look_cases s t a n
  · rw [same]
  · rw [looked]
    exact Nat.le_succ _

@[simp] theorem raceState_draws (s : State) (l : List (Nat × PendingCommand × Nat)) (e a : Nat) :
    (raceState s l e a).draws = s.draws := by
  simp [raceState]

/-- A CMD write draws nothing, whatever it goes on to once the command has begun. -/
theorem startCommand_draws {i : Instr} {s t : State} {started : State → Host.Outcome State Fault Refusal}
    (h : startCommand i s started = .next t) (hs : ∀ u, started u = .next t → t.draws = u.draws) :
    t.draws = s.draws := by
  obtain ⟨g, _, ⟨_, rfl⟩ | ⟨_, f, _, rfl⟩ | ⟨_, _, e, p, a, rest, _, rfl⟩ | ⟨_, _, _, hk⟩⟩ := startCommand_next h
  · simp
  · simp
  · simp
  · simpa using hs _ hk

theorem writeCmd_draws {atomic : Bool} {s t : State} (h : writeCmd atomic s = .next t) : t.draws = s.draws := by
  unfold writeCmd at h
  split at h
  · obtain ⟨g, _, ⟨_, hk⟩ | ⟨_, rfl⟩⟩ := onIdleEngine_next h
    · injection hk with hk
      simp [← hk]
    · simp
  · next i _ =>
    cases atomic with
    | false => exact startCommand_draws h fun u hu => by injection hu with hu; rw [hu]
    | true =>
      rw [if_pos rfl, exec_eq_runCommand] at h
      exact startCommand_draws h fun u hu => by injection hu with hu; simp [← hu]

theorem writeRegister_draws {atomic : Bool} {s t' : State} {t e off w : Nat} {v : Int}
    (h : writeRegister atomic s t e off w v = .next t') : t'.draws = s.draws := by
  obtain ⟨g, _, ⟨_, rfl⟩ | ⟨r, _, _, hk⟩⟩ := onRegister_next h
  · simp
  · cases r with
    | cmd => simpa using writeCmd_draws hk
    | caps | arg => injection hk with hk; simp [← hk]

/-- A register read draws at most once (R45). -/
theorem readRegister_draws_le {s t' : State} {t var e off w : Nat}
    (h : readRegister s t var e off w = .next t') : s.draws ≤ t'.draws := by
  obtain ⟨g, _, ⟨_, rfl⟩ | ⟨r, _, _, hk⟩⟩ := onRegister_next h
  · simp
  · cases r with
    | cmd | caps => injection hk with hk; simp [← hk]
    | arg a =>
      dsimp only at hk
      split at hk <;> (injection hk with hk; simp [← hk])

theorem hostOp_draws_le {atomic : Bool} {t : Nat} {vars : List (Nat × Int)} {op : HostOp} {s t' : State}
    (h : hostOp atomic t vars op s = .next t') : s.draws ≤ t'.draws := by
  cases op with
  | wr e off w v => exact (writeRegister_draws h).ge
  | rd var e off w => exact readRegister_draws_le h
  | st n addr v =>
    simp only [hostOp, storeBytes] at h
    obtain ⟨_, _, _, hk⟩ := onHostBytes_next h
    injection hk with hk
    simp [← hk]
  | ld n var addr =>
    simp only [hostOp, loadBytes] at h
    obtain ⟨_, _, _, hk⟩ := onHostBytes_next h
    injection hk with hk
    rw [← hk, assign_draws]
    exact (raiseRaces_draws s _ _).ge.trans (look_draws_le _ _ _ _)
  | letVar var e => injection h with h; simp [← h]
  | ifGoto c target =>
    simp only [hostOp] at h
    split at h <;> (injection h with h; simp [← h])

theorem runThread_draws_le {atomic : Bool} {t : Nat} {s t' : State} (h : runThread atomic t s = .next t') :
    s.draws ≤ t'.draws := by
  unfold runThread at h
  split at h
  · cases h
  · split at h
    · injection h with h; rw [h]
    · cases h
    · split at h
      · injection h with h; rw [h]
      · exact hostOp_draws_le h

theorem perform_draws_le {ev : Event} {s t : State} (h : perform ev s = .next t) : s.draws ≤ t.draws := by
  cases ev with
  | run | start => exact runThread_draws_le h
  | finish e => injection h with h; simp [← h]
  | reset =>
    simp only [perform, State.resetEngines] at h
    split at h
    · cases h
    · injection h with h; simp [← h]
  | idle =>
    simp only [perform] at h
    split at h
    · injection h with h; rw [h]
    · cases h

end Sys2Proof.Machine

/-! ### The obligations settled: O45, O55, O56, O58 -/

section

open Sys2Proof Sys2Proof.Machine

/-- Settles O45: what one move keeps, and what the performed event does to the draw counter. -/
theorem stepKeepsPlatformAndFaultRecord : Obligations.StepKeepsPlatformAndFaultRecord := by
  intro s t h
  obtain ⟨platform, faults, engines⟩ := (step_move h).keeps
  exact ⟨platform, faults, engines, perform_draws_le (s := { s with sched := s.sched.tail }) h⟩

/-- Settles O55: both sums are `addEnc`, which is IEEE addition in every format. -/
theorem additionRoundsToNearestEven : Obligations.AdditionRoundsToNearestEven := by
  refine ⟨fun a b => ?_, fun a b => ?_, fun x => ⟨?_, fun k hk => ?_⟩⟩
  · rw [addF64_toNat]
    exact isSum_addEnc (by norm_num) (by norm_num) a.isLt b.isLt
  · rw [subF32_toNat]
    exact isSum_addEnc (by norm_num) (by norm_num) a.isLt (b ^^^ 0x80000000).isLt
  · simp only [absF32_getLsbD, lt_irrefl, decide_false, Bool.and_false]
  · simp only [absF32_getLsbD, hk, decide_true, Bool.and_true]

/-- Settles O56: a finite value has an encoding of its own in binary64, which rounding gives back. -/
theorem wideningIsExact : Obligations.WideningIsExact := by
  refine fun x => ⟨f32ToF64_of_nan, ?_, ?_, fun hnan hinf => ?_⟩
  · rintro rfl; decide
  · rintro rfl; decide
  · obtain ⟨r, hbits, hlt, hval⟩ := f32ToF64_finite ⟨hnan, hinf⟩
    have hsign : r < signBit 52 11 := hlt.trans infEnc_lt_signBit
    obtain ⟨notNaN, notInf⟩ : IsFinite 52 11 (f32ToF64 x).toNat :=
      isFinite_iff.2 (by rwa [hbits, magEnc_withSign _ hsign])
    refine ⟨?_, notNaN, notInf, by rw [hbits, signOf_withSign _ hsign]⟩
    rw [hbits, valueOf_withSign _ hsign, hval, valueOf]
    split <;> simp only [Nat.cast_mul, Nat.cast_pow, Nat.cast_ofNat, neg_mul]

/-- Settles O58: the fraction that `nanResult` writes is never 0. -/
theorem nanResultIsSomeNan : Obligations.NanResultIsSomeNan := by
  intro inp
  apply isNaN64_append
  split
  · decide
  · assumption

end

/-! Proofs about START's checks: each finds nothing exactly under its own condition of R135, so together they pass
exactly for a legal command; and what faults a start can raise. -/

namespace Sys2Proof.Machine

/-! ### Read footprints -/

/-- The read footprint holds exactly the bytes of its rows (R66). -/
theorem Footprint.reads_iff (f : Footprint) (a : Nat) :
    f.reads a = true ↔ ∃ p ∈ f.planes, ∃ r, r < p.rows ∧ ∃ j, j < p.bytes ∧ p.byteAt r j = (a : Int) := by
  simp only [Footprint.reads, List.any_eq_true, covers_iff]
  refine exists_congr fun p => and_congr_right fun _ => exists_congr fun r => and_congr_right fun _ => ?_
  constructor
  · rintro ⟨lo, hi⟩
    exact ⟨((a : Int) - rowStart p.base p.stride r).toNat, by omega, by simp only [PlaneRows.byteAt]; omega⟩
  · rintro ⟨j, hj, h⟩
    simp only [PlaneRows.byteAt] at h
    omega

/-- With a stride that is not negative no row starts below address 0 (R65). -/
theorem rowStart_nonneg {base r : Nat} {stride : Int} (hs : 0 ≤ stride) : 0 ≤ rowStart base stride r := by
  unfold rowStart
  positivity

theorem rowStart_mono {base r r' : Nat} {stride : Int} (hs : 0 ≤ stride) (h : r ≤ r') :
    rowStart base stride r ≤ rowStart base stride r' := by
  unfold rowStart
  have : (r : Int) * stride ≤ (r' : Int) * stride := mul_le_mul_of_nonneg_right (by omega) hs
  omega

/-- A row of at least one sample reads at least one byte (R66). -/
theorem rowBytes_pos (tier : Tier) (fmt : Format) {width : Nat} (h : 1 ≤ width) : 1 ≤ rowBytes tier fmt width := by
  cases tier <;> cases fmt <;> simp only [rowBytes, tierWidth, sampleSize, laneCount, ceilDiv] <;> omega

/-- The last byte of the last row reaches highest, so a plane that does not overflow lies in the address space. -/
theorem overflows_eq_false_iff {p : PlaneRows} (hs : 0 ≤ p.stride) (hr : 1 ≤ p.rows) (hb : 1 ≤ p.bytes) :
    p.overflows = false ↔
      ∀ r, r < p.rows → ∀ j, j < p.bytes → 0 ≤ p.byteAt r j ∧ p.byteAt r j < (addressSpace : Int) := by
  rw [PlaneRows.overflows, decide_eq_false_iff_not, not_lt]
  constructor
  · intro h r hr' j hj
    have start := rowStart_nonneg (base := p.base) (r := r) hs
    have below := rowStart_mono (base := p.base) hs (show r ≤ p.rows - 1 by omega)
    simp only [PlaneRows.byteAt]
    omega
  · intro h
    obtain ⟨-, top⟩ := h (p.rows - 1) (by omega) (p.bytes - 1) (by omega)
    simp only [PlaneRows.byteAt] at top
    omega

/-- A search over rows finds nothing exactly when no byte of the rows has the property. -/
theorem firstFrom_eq_none (q : PlaneRows) (p : Nat → Bool) : ∀ (n r : Nat),
    q.firstFrom p r n = none ↔
      ∀ k, r ≤ k → k < r + n → ∀ j, j < q.bytes → p (rowAddr q.base q.stride k + j) = false
  | 0, r => by simp only [PlaneRows.firstFrom, true_iff]; omega
  | n + 1, r => by
    have row : firstAddr p (rowAddr q.base q.stride r) q.bytes = none ↔
        ∀ j, j < q.bytes → p (rowAddr q.base q.stride r + j) = false := by
      rw [firstAddr_eq_none]
      refine ⟨fun h j hj => h _ (by omega) (by omega), fun h b lo hi => ?_⟩
      have := h (b - rowAddr q.base q.stride r) (by omega)
      rwa [Nat.add_sub_cancel' lo] at this
    rw [PlaneRows.firstFrom]
    split
    · next a ha =>
      simp only [reduceCtorEq, false_iff]
      intro h
      rw [row.2 (h r (by omega) (by omega))] at ha
      cases ha
    · next hnone =>
      rw [firstFrom_eq_none q p n (r + 1)]
      refine ⟨fun h k lo hi => ?_, fun h k lo hi => h k (by omega) (by omega)⟩
      obtain rfl | hlt := Nat.eq_or_lt_of_le lo
      · exact row.1 hnone
      · exact h k (by omega) (by omega)

/-- The search of a plane finds nothing exactly when no byte of its rows has the property. -/
theorem first_eq_none {q : PlaneRows} (hs : 0 ≤ q.stride) (p : Nat → Bool) :
    q.first p = none ↔ ∀ r, r < q.rows → ∀ j, j < q.bytes → p (q.byteAt r j).toNat = false := by
  have byte (r j : Nat) : (q.byteAt r j).toNat = rowAddr q.base q.stride r + j := by
    have := rowStart_nonneg (base := q.base) (r := r) hs
    simp only [PlaneRows.byteAt, rowAddr]
    omega
  simp [PlaneRows.first, firstFrom_eq_none, byte]

theorem foldl_lowest_eq_none {α : Type} (f : α → Option Nat) : ∀ (l : List α) (acc : Option Nat),
    l.foldl (fun acc q => lowest acc (f q)) acc = none ↔ acc = none ∧ ∀ q ∈ l, f q = none
  | [], acc => by simp
  | q :: l, acc => by
    rw [List.foldl_cons, foldl_lowest_eq_none f l, lowest_eq_none]
    simp [and_assoc]

/-! ### The checks of START, one by one (R135) -/

variable {p : Platform} {g : Engine} {i : Instr}

theorem checkTier_eq_none (w : Word) : checkTier p i w = none ↔ LegalTier p i := by
  simp [checkTier]

theorem checkWritten_eq_none : checkWritten g i = none ↔ LegalWritten g i := by
  simp [checkWritten, List.find?_eq_none]

theorem checkGeometry_eq_none : checkGeometry (commandArgs i.planes g.args) = none ↔ LegalDimensions g i := by
  simp only [checkGeometry, ite_eq_right_iff, reduceCtorEq, imp_false, LegalDimensions]
  omega

theorem checkStride_eq_none : checkStride i (commandArgs i.planes g.args) = none ↔ LegalStrides g i := by
  simp only [checkStride, LegalStrides]
  generalize commandArgs i.planes g.args = x
  split_ifs <;> simp_all

theorem checkAligned_eq_none : checkAligned i (commandArgs i.planes g.args) = none ↔ LegalAlignment g i := by
  simp only [checkAligned, LegalAlignment]
  generalize commandArgs i.planes g.args = x
  split_ifs <;> simp_all

/-- The planes a command reads: the first, and the second of a two-plane command (R66, R103). -/
theorem mem_planeRows (i : Instr) (x : Args) (q : PlaneRows) :
    q ∈ planeRows i x ↔ q = ⟨x.src1, x.stride1, x.height, rowBytes i.tier i.format x.width⟩ ∨
      (i.planes = .two ∧ q = ⟨x.src2, x.stride2, x.height, rowBytes i.tier i.format x.width⟩) := by
  unfold planeRows
  cases i.planes <;> simp

/-- A plane that a legal geometry gives a command: at least a row of at least a byte, and strides that are not
negative (R134). -/
theorem planeRows_bounds (hd : LegalDimensions g i) (hs : LegalStrides g i) :
    ∀ q ∈ planeRows i (commandArgs i.planes g.args), 0 ≤ q.stride ∧ 1 ≤ q.rows ∧ 1 ≤ q.bytes := by
  obtain ⟨hw, hh⟩ := hd
  obtain ⟨hs1, hs2⟩ := hs
  have bytes := rowBytes_pos i.tier i.format hw
  intro q hq
  obtain rfl | ⟨two, rfl⟩ := (mem_planeRows i _ q).1 hq
  · exact ⟨(Int.natCast_nonneg _).trans hs1, hh, bytes⟩
  · exact ⟨(Int.natCast_nonneg _).trans (hs2 two), hh, bytes⟩

theorem checkRange_eq_none (hd : LegalDimensions g i) (hs : LegalStrides g i) :
    checkRange i (commandArgs i.planes g.args) = none ↔ LegalRange g i := by
  have bounds := planeRows_bounds hd hs
  have planes : checkRange i (commandArgs i.planes g.args) = none ↔
      (∀ q ∈ planeRows i (commandArgs i.planes g.args), q.overflows = false) ∧
        (commandArgs i.planes g.args).out + recordBytes i.planes ≤ addressSpace := by
    simp only [checkRange, mem_planeRows]
    generalize commandArgs i.planes g.args = x
    split_ifs <;> simp_all
  rw [planes, LegalRange]
  refine and_congr (forall₂_congr fun q hq => ?_) Iff.rfl
  obtain ⟨stride, rows, bytes⟩ := bounds q hq
  exact overflows_eq_false_iff stride rows bytes

theorem checkOverlap_eq_none : checkOverlap (footprint i g.args) = none ↔ LegalApart g i := by
  simp only [checkOverlap, Option.map_eq_none_iff, firstAddr_eq_none, Bool.eq_false_iff, ne_eq, Footprint.reads_iff,
    LegalApart]
  constructor
  · rintro h q hq r hr j hj ⟨lo, hi⟩
    exact h (q.byteAt r j).toNat (by omega) (by omega) ⟨q, hq, r, hr, j, hj, by omega⟩
  · rintro h b lo hi ⟨q, hq, r, hr, j, hj, hb⟩
    exact h q hq r hr j hj ⟨by omega, by omega⟩

theorem checkAccess_eq_none (hd : LegalDimensions g i) (hs : LegalStrides g i) :
    checkAccess p (footprint i g.args) = none ↔ LegalAccess p g i := by
  have bounds := planeRows_bounds hd hs
  simp only [checkAccess, Option.map_eq_none_iff, lowest_eq_none, foldl_lowest_eq_none, firstAddr_eq_none, true_and,
    LegalAccess]
  refine and_congr (forall₂_congr fun q hq => ?_) ?_
  · simp [first_eq_none (bounds q hq).1]
  · constructor
    · intro h j hj
      simpa using h _ (Nat.le_add_right _ j) (by omega)
    · intro h b lo hi
      have := h (b - (footprint i g.args).out) (by omega)
      rw [Nat.add_sub_cancel' lo] at this
      simp [this]

/-- START's checks pass exactly for a legal command (R135). -/
theorem startFault_eq_none_iff (w : Word) : startFault p g i w = none ↔ LegalStart p g i := by
  simp only [startFault, Option.or_eq_none_iff, checkTier_eq_none, checkWritten_eq_none, checkGeometry_eq_none,
    checkStride_eq_none, checkAligned_eq_none, checkOverlap_eq_none, LegalStart]
  refine and_congr_right fun _ => and_congr_right fun _ => and_congr_right fun hd => and_congr_right fun hs =>
    and_congr_right fun _ => ?_
  rw [checkRange_eq_none hd hs, checkAccess_eq_none hd hs]

end Sys2Proof.Machine

/-! Proofs about the invariant of every step: each operation of the machine keeps it, so every move does. -/

namespace Sys2Proof.Machine

/-! ### Engine states (R43) -/

theorem isBusy_eq_true_iff (g : Engine) : g.isBusy = true ↔ ∃ p, g.status = .busy p := by
  unfold Engine.isBusy
  split <;> simp_all

theorem isBusy_of_faulted {g : Engine} {f : CommandFault} (h : g.status = .faulted f) : g.isBusy = false := by
  simp [Engine.isBusy, h]

/-! ### Engines that follow from the engines before -/

/-- How engine `e` of a state that follows another comes from the engine it was: a command open in it was open before
with the same registers, and a fault it holds was held before or is on record. -/
structure Engine.Follows (g' g : Engine) (e : Nat) (record : List FaultRecord) : Prop where
  opened : ∀ p', g'.status = .busy p' → g'.args = g.args ∧ g'.written = g.written ∧
    ∃ p, g.status = .busy p ∧ p'.instr = p.instr ∧ p'.word = p.word
  held : ∀ f, g'.status.heldFault = some f →
    g.status.heldFault = some f ∨ ∃ r ∈ record, r.engine = e ∧ r.fault = f

theorem Engine.Follows.refl (g : Engine) (e : Nat) (record : List FaultRecord) : g.Follows g e record :=
  ⟨fun p hp => ⟨rfl, rfl, p, hp, rfl, rfl⟩, fun _ h => .inl h⟩

/-- START's checks read an engine's argument registers and `written` bits only. -/
theorem startFault_congr (p : Platform) {g g' : Engine} (i : Instr) (w : Word) (ha : g'.args = g.args)
    (hw : g'.written = g.written) : startFault p g' i w = startFault p g i w := by
  simp only [startFault, checkWritten, ha, hw]

theorem Engine.Follows.openFootprint {g' g : Engine} {e : Nat} {record : List FaultRecord} {f : Footprint}
    (h : g'.Follows g e record) (hf : g'.openFootprint = some f) : g.openFootprint = some f := by
  unfold Engine.openFootprint at hf
  split at hf
  · next p' hp' =>
    obtain ⟨args, -, p, hp, instr, -⟩ := h.opened p' hp'
    simpa [Engine.openFootprint, hp, instr, args] using hf
  · cases hf

/-- A change whose engines follow from those before, and whose memory stays sound, keeps the invariant. -/
theorem State.Inv.of_follows {s u : State} (h : s.Inv) (platform : u.platform = s.platform)
    (length : u.engines.length = s.engines.length) (record : s.faults ⊆ u.faults) (canonical : u.mem.wf)
    (inSpace : ∀ c ∈ u.mem, c.1 < addressSpace) (unseenInSpace : ∀ v ∈ u.unseen, v.addr < addressSpace)
    (engines : ∀ e g', u.engine? e = some g' → ∃ g, s.engine? e = some g ∧ g'.Follows g e u.faults) : u.Inv where
  canonical := canonical
  inSpace := inSpace
  unseenInSpace := unseenInSpace
  engineCount := by rw [length, platform, h.engineCount]
  openLegal := by
    intro e g' p' hg' hp'
    obtain ⟨g, hg, hfrom⟩ := engines e g' hg'
    obtain ⟨args, written, p, hp, instr, word⟩ := hfrom.opened p' hp'
    rw [platform, startFault_congr _ _ _ args written, instr, word]
    exact h.openLegal e g p hg hp
  openCompatible := by
    intro e k g' d' f f' hne hg' hd' hf hf'
    obtain ⟨g, hg, hgf⟩ := engines e g' hg'
    obtain ⟨d, hd, hdf⟩ := engines k d' hd'
    exact h.openCompatible e k g d f f' hne hg hd (hgf.openFootprint hf) (hdf.openFootprint hf')
  faultRecorded := by
    intro e g' f hg' hheld
    obtain ⟨g, hg, hfrom⟩ := engines e g' hg'
    obtain hold | hnew := hfrom.held f hheld
    · obtain ⟨r, hr, he, hf⟩ := h.faultRecorded e g f hg hold
      exact ⟨r, record hr, he, hf⟩
    · exact hnew

/-! ### Each operation keeps the invariant -/

/-- The invariant speaks of the platform, the engines, memory and the record only. -/
theorem State.Inv.congr {s u : State} (h : s.Inv) (platform : u.platform = s.platform) (engines : u.engines = s.engines)
    (mem : u.mem = s.mem) (unseen : u.unseen = s.unseen) (faults : u.faults = s.faults) : u.Inv :=
  h.of_follows platform (by rw [engines]) (by rw [faults]; exact List.Subset.refl _) (mem ▸ h.canonical)
    (mem ▸ h.inSpace) (unseen ▸ h.unseenInSpace) fun e g' hg' =>
      ⟨g', by rwa [State.engine?, engines] at hg', Engine.Follows.refl _ _ _⟩

theorem State.Inv.atPort {s : State} (h : s.Inv) (t e : Nat) (w : Word) : (s.atPort t e w).Inv :=
  h.congr rfl rfl rfl rfl rfl

/-- A fault leaves a busy engine's command as it is, if the engine is busy still (R312, R321). -/
theorem afterFault_eq_busy {x : EngineStatus} {f : CommandFault} {p' : PendingCommand}
    (h : x.afterFault f = .busy p') : ∃ p, x = .busy p ∧ p'.instr = p.instr ∧ p'.word = p.word := by
  cases x with
  | idle => cases h
  | faulted g => cases h
  | busy p =>
    cases f <;> simp only [EngineStatus.afterFault, EngineStatus.busy.injEq, reduceCtorEq] at h
    exact ⟨p, rfl, by rw [← h], by rw [← h]⟩

/-- Taking a fault keeps the invariant: the fault that its engine then holds is on record (R312). -/
theorem State.Inv.raiseFault {s : State} (h : s.Inv) (e t : Nat) (acc : Access) (f : CommandFault) :
    (s.raiseFault e t acc f).Inv := by
  refine h.of_follows rfl (by simp) (by simp) h.canonical h.inSpace h.unseenInSpace fun k g' hg' => ?_
  rw [engine?_raiseFault] at hg'
  split at hg'
  · next hk =>
    subst hk
    obtain ⟨g, hg, rfl⟩ := Option.map_eq_some_iff.1 hg'
    refine ⟨g, hg, fun p' hp' => ⟨rfl, rfl, afterFault_eq_busy hp'⟩, fun f' hf' => ?_⟩
    obtain hnew | ⟨hold, -⟩ := heldFault_afterFault g.status f
    · obtain rfl : f = f' := Option.some.inj (hnew.symm.trans hf')
      exact .inr ⟨_, List.mem_append_right _ (List.mem_singleton_self _), rfl, rfl⟩
    · exact .inl (hold.symm.trans hf')
  · exact ⟨g', hg', Engine.Follows.refl _ _ _⟩

theorem State.Inv.raiseRaces (o : Agent) : ∀ (l : List (Nat × PendingCommand × Nat)) {s : State}, s.Inv →
    (s.raiseRaces o l).Inv
  | [], _, h => h
  | (e, p, a) :: rest, _, h => State.Inv.raiseRaces o rest (h.raiseFault e p.thread (.command p.word) (.dataRace o a))

/-- A legal race-free command that opens is legal and compatible with the commands open elsewhere (R84, R135). -/
theorem State.Inv.openCommand {s : State} (h : s.Inv) {i : Instr} {g : Engine}
    (hg : s.engine? s.port.engine = some g) (hf : startFault s.platform g i s.port.word = none)
    (hc : RaceFree s s.port.engine (footprint i g.args)) : (s.openCommand i).Inv := by
  have engine (e : Nat) (g' : Engine) (hg' : (s.openCommand i).engine? e = some g') :
      (e = s.port.engine ∧ g' = { g with status := .busy ⟨i, s.port.word, s.port.thread, none⟩ }) ∨
        (e ≠ s.port.engine ∧ s.engine? e = some g') := by
    rw [engine?_openCommand] at hg'
    split at hg'
    · next he =>
      subst he
      rw [hg] at hg'
      exact .inl ⟨rfl, (Option.some.inj hg').symm⟩
    · next he => exact .inr ⟨Ne.symm he, hg'⟩
  refine ⟨h.canonical, h.inSpace, h.unseenInSpace, ?_, ?_, ?_, ?_⟩
  · simpa using h.engineCount
  · intro e g' p hg' hp
    obtain ⟨rfl, rfl⟩ | ⟨-, hold⟩ := engine e g' hg'
    · obtain rfl := EngineStatus.busy.inj hp
      exact (startFault_congr _ i _ rfl rfl).trans hf
    · exact h.openLegal e g' p hold hp
  · intro e k g' d' f f' hne hg' hd' hf hf'
    obtain ⟨rfl, rfl⟩ | ⟨he, hgo⟩ := engine e g' hg' <;> obtain ⟨rfl, rfl⟩ | ⟨hk, hdo⟩ := engine k d' hd'
    · exact absurd rfl hne
    · obtain rfl := Option.some.inj hf
      exact Footprint.compatible_symm (hc k d' f' hk hdo hf')
    · obtain rfl := Option.some.inj hf'
      exact hc e g' f he hgo hf
    · exact h.openCompatible e k g' d' f f' hne hgo hdo hf hf'
  · intro e g' f hg' hheld
    obtain ⟨rfl, rfl⟩ | ⟨-, hold⟩ := engine e g' hg'
    · cases hheld
    · exact h.faultRecorded e g' f hold hheld

/-- Completing a command writes its record only, which a legal command has inside the address space (R65, R139). -/
theorem State.Inv.finishCommand {s : State} (h : s.Inv) (e : Nat) : (finishCommand e s).Inv := by
  by_cases hb : ∃ g p, s.engine? e = some g ∧ g.status = .busy p
  · obtain ⟨g, p, hg, hp⟩ := hb
    have legal := (startFault_eq_none_iff _).1 (h.openLegal e g p hg hp)
    obtain ⟨-, -, -, -, -, ⟨-, space⟩, -, -⟩ := legal
    refine h.of_follows (by simp) (by simp) (by simp) ?_ ?_ ?_ fun k g' hg' => ?_
    · rw [finishCommand_busy hg hp]
      exact wf_writeResult _ _ _ _ _ h.canonical
    · rw [finishCommand_busy hg hp]
      intro c hc
      obtain ⟨-, hi⟩ | hold := mem_writeResult _ _ _ _ _ c hc
      · exact hi.trans_le space
      · exact h.inSpace c hold
    · rw [finishCommand_busy hg hp]
      intro v hv
      obtain ⟨hold, -⟩ | ⟨-, -, within, -⟩ := mem_hideWrite _ _ _ _ _ _ v hv
      · exact h.unseenInSpace v hold
      · simp only [Unseen.within, Bool.and_eq_true, decide_eq_true_eq] at within
        exact within.2.trans_le space
    · obtain ⟨d, hd, args, written, rfl | ⟨-, q, hq, after⟩⟩ := engine?_finishCommand e k s g' hg'
      · exact ⟨g', hd, Engine.Follows.refl _ _ _⟩
      · refine ⟨d, hd, fun p' hp' => ?_, fun f hf => .inl ?_⟩
        · rw [after, PendingCommand.after] at hp'
          split at hp' <;> cases hp'
        · rw [after, heldFault_after] at hf
          rw [hq, EngineStatus.heldFault, hf]
  · rwa [finishCommand_not_busy fun g hg => ?_]
    rw [Bool.eq_false_iff, ne_eq, isBusy_eq_true_iff]
    exact fun ⟨p, hp⟩ => hb ⟨g, p, hg, hp⟩

/-- Resetting idle or faulted engines drops the faults they hold and opens nothing (R350). -/
theorem State.Inv.resetEngines {s : State} (h : s.Inv) :
    ({ s with engines := s.engines.map fun _ => Engine.reset } : State).Inv := by
  refine h.of_follows rfl (by simp) (List.Subset.refl _) h.canonical h.inSpace h.unseenInSpace fun e g' hg' => ?_
  simp only [State.engine?, List.getElem?_map, Option.map_eq_some_iff] at hg'
  obtain ⟨g, hg, rfl⟩ := hg'
  exact ⟨g, hg, nofun, nofun⟩

/-- A register write reaches no open command (R44). -/
theorem State.Inv.writeArg {s : State} (h : s.Inv) {e : Nat} {g : Engine} (hg : s.engine? e = some g)
    (hb : g.isBusy = false) (r : ArgReg) (v : DWord) : (s.modifyEngine e fun g => g.writeArg r v).Inv := by
  refine h.of_follows rfl (by simp) (List.Subset.refl _) h.canonical h.inSpace h.unseenInSpace fun k g' hg' => ?_
  rw [engine?_modifyEngine] at hg'
  split at hg'
  · next hk =>
    subst hk
    rw [hg] at hg'
    obtain rfl := Option.some.inj hg'
    refine ⟨g, hg, fun p hp => ?_, fun _ hf => .inl hf⟩
    have busy : g.isBusy = true := (isBusy_eq_true_iff g).2 ⟨p, hp⟩
    rw [hb] at busy
    cases busy
  · exact ⟨g', hg', Engine.Follows.refl _ _ _⟩

/-- Every move keeps the invariant. -/
theorem State.Inv.move {s t : State} (h : s.Inv) (m : Move s t) : t.Inv := by
  cases m with
  | stay => exact h
  | finish e => exact h.finishCommand e
  | reset => exact h.resetEngines
  | badAccess => exact h.raiseFault _ _ _ _
  | badCommand t e w => exact (h.atPort t e w).raiseFault _ _ _ _
  | race t e w => exact ((h.atPort t e w).raiseRaces _ _).raiseFault _ _ _ _
  | begins t e w i g hg _ hf hc => exact (h.atPort t e w).openCommand hg hf hc
  | runs t e w i g hg _ hf hc => exact ((h.atPort t e w).openCommand hg hf hc).finishCommand e
  | writeArg e t r v g hg hb => exact (h.writeArg hg hb r v).congr rfl rfl rfl rfl rfl
  | host => exact h.congr rfl rfl rfl rfl rfl
  | store t a n v ha =>
    have raced := h.raiseRaces (.thread t) (hostRaces true a n 0 s.engines)
    refine raced.of_follows rfl rfl (List.Subset.refl _) (Memory.wf_writeLE _ _ _ _ h.canonical) ?_ ?_
      fun e g' hg' => ⟨g', hg', Engine.Follows.refl _ _ _⟩
    · intro c hc
      obtain ⟨-, hi⟩ | hold := Memory.mem_writeLE _ _ _ _ c hc
      · exact hi.trans_le ha
      · exact h.inSpace c hold
    · exact fun u hu => h.unseenInSpace u (List.mem_of_mem_filter hu)
  | load t var a n looked hl =>
    subst hl
    have raced := h.raiseRaces (.thread t) (hostRaces false a n 0 s.engines)
    refine raced.of_follows (by simp) (by simp) (by simp) (by simpa using h.canonical) (by simpa using h.inSpace) ?_
      fun e g' hg' => ⟨g', by simpa [State.engine?] using hg', Engine.Follows.refl _ _ _⟩
    intro u hu
    apply raced.unseenInSpace
    obtain ⟨same, -⟩ | ⟨looked, -⟩ := look_cases (s.raiseRaces (.thread t) (hostRaces false a n 0 s.engines)) t a n
    · rwa [assign_unseen, same] at hu
    · rw [assign_unseen, looked] at hu
      exact mem_lookAt _ _ _ _ _ u hu

end Sys2Proof.Machine

/-! ### The obligation settled: O43 -/

section

open Sys2Proof Sys2Proof.Machine

/-- Settles O43: every operation of the machine keeps the invariant, and a step is one move of them. -/
theorem stepKeepsTheInvariant : Obligations.StepKeepsTheInvariant := by
  intro s t h hstep
  have tail : ({ s with sched := s.sched.tail } : State).Inv := h.congr rfl rfl rfl rfl rfl
  exact tail.move (step_move hstep)

end

/-! Proofs about the registers and the CMD write: what each register operation of an admitted access does, what a
CMD write does to an engine that is idle, busy or faulted, and which operation an event performs. -/

namespace Sys2Proof.Machine

/-! ### Host variables and threads -/

/-- A host variable holds the value last assigned (R113). -/
@[simp] theorem readVar_writeVar_self (vars : List (Nat × Int)) (x : Nat) (v : Int) :
    readVar (writeVar vars x v) x = v := by
  simp [readVar, writeVar]

/-- The thread after an assignment. -/
theorem assign_threads (s : State) (t x : Nat) (v : Int) :
    (s.assign t x v).threads =
      s.threads.modify t fun th => Thread.advance { th with vars := writeVar th.vars x v } := by
  apply List.ext_getElem?
  intro k
  simp only [State.assign, advance_threads, modifyThread_threads, List.getElem?_modify]
  split <;> cases s.threads[k]? <;> rfl

theorem varHolds_assign {s : State} {t : Nat} (h : t < s.threads.length) (x : Nat) (v : Int) :
    VarHolds (s.assign t x v) t x v :=
  ⟨_, by rw [assign_threads, List.getElem?_modify_eq, List.getElem?_eq_getElem h]; rfl,
    readVar_writeVar_self _ _ _⟩

theorem assign_thread_other (s : State) {t k : Nat} (h : k ≠ t) (x : Nat) (v : Int) :
    (s.assign t x v).threads[k]? = s.threads[k]? := by
  simp [assign_threads, Ne.symm h]

/-! ### Register operations of an admitted access (R36, R37, R45) -/

section Admitted

variable {s : State} {e : Nat} {g : Engine} (hg : s.engine? e = some g) (hb : g.isBusy = false) (t : Nat)
include hg hb

theorem writeRegister_cmd (atomic : Bool) (v : Int) :
    writeRegister atomic s t e 0 4 v = writeCmd atomic (s.atPort t e (BitVec.ofNat 32 (transactionValue 4 v))) :=
  onRegister_reg .cmd hg hb _

theorem writeRegister_caps (atomic : Bool) (v : Int) :
    writeRegister atomic s t e 0x04 4 v = .next (s.advance t) :=
  onRegister_reg .caps hg hb _

theorem writeRegister_arg (atomic : Bool) (r : ArgReg) (v : Int) :
    writeRegister atomic s t e (regOffset (.arg r)) (regWidth (.arg r)) v =
      .next ((s.modifyEngine e fun g =>
        g.writeArg r (BitVec.ofNat 64 (transactionValue (regWidth (.arg r)) v))).advance t) :=
  onRegister_reg (.arg r) hg hb _

omit hb in
/-- The engine after a write of an argument register (R45). -/
theorem engine?_writeArg (r : ArgReg) (v : DWord) :
    ((s.modifyEngine e fun g => g.writeArg r v).advance t).engine? e = some (g.writeArg r v) := by
  refine (engine?_modifyEngine s e e _).trans ?_
  rw [if_pos rfl, hg, Option.map_some]

omit hg hb in
theorem engine?_writeArg_other {k : Nat} (hk : k ≠ e) (r : ArgReg) (v : DWord) :
    ((s.modifyEngine e fun g => g.writeArg r v).advance t).engine? k = s.engine? k := by
  refine (engine?_modifyEngine s e k _).trans ?_
  rw [if_neg (Ne.symm hk)]

theorem readRegister_cmd (x : Nat) : readRegister s t x e 0x00 4 = .next (s.assign t x 0) :=
  onRegister_reg .cmd hg hb _

theorem readRegister_caps (x : Nat) :
    readRegister s t x e 0x04 4 = .next (s.assign t x (capsValue s.platform).toNat) :=
  onRegister_reg .caps hg hb _

theorem readRegister_written (x : Nat) {r : ArgReg} (hw : g.written.get r = true) :
    readRegister s t x e (regOffset (.arg r)) (regWidth (.arg r)) = .next (s.assign t x (g.args.get r).toNat) :=
  (onRegister_reg (.arg r) hg hb _).trans (if_pos hw)

theorem readRegister_unwritten (x : Nat) {r : ArgReg} (hw : g.written.get r = false) :
    readRegister s t x e (regOffset (.arg r)) (regWidth (.arg r)) =
      .next (({ s with draws := s.draws + 1 } : State).assign t x
        ((Config.drawRegister s.draws).toNat % 2 ^ (8 * regWidth (.arg r)) : Nat)) :=
  (onRegister_reg (.arg r) hg hb _).trans (if_neg (by simp [hw]))

end Admitted

/-! ### CMD writes (R37, R43) -/

theorem decode_encode (i : Instr) : decode (encode i) = .ok i := by
  cases i <;> decide

theorem writeCmd_ok {w : Word} {i : Instr} (h : decode w = .ok i) (s : State) (t e : Nat) (atomic : Bool) :
    writeCmd atomic (s.atPort t e w) =
      if atomic then exec i (s.atPort t e w) else startCommand i (s.atPort t e w) .next := by
  simp only [writeCmd, atPort_port, h]

/-- A CMD write to a faulted engine stops the machine (log 10). -/
theorem onIdleEngine_faulted {s : State} {g : Engine} {f : CommandFault} (hg : s.engine? s.port.engine = some g)
    (hf : g.status = .faulted f) (k : Engine → Host.Outcome State Fault Refusal) :
    onIdleEngine s k = .fault (.engineStuck s.port.engine) := by
  simp [onIdleEngine, hg, hf]

theorem writeCmd_faulted {s : State} {g : Engine} {f : CommandFault} (hg : s.engine? s.port.engine = some g)
    (hf : g.status = .faulted f) (atomic : Bool) : writeCmd atomic s = .fault (.engineStuck s.port.engine) := by
  unfold writeCmd
  split
  · exact onIdleEngine_faulted hg hf _
  · cases atomic
    · exact onIdleEngine_faulted hg hf _
    · rw [if_pos rfl, exec_eq_runCommand]
      exact onIdleEngine_faulted hg hf _

/-! ### What an event performs (R80, R113) -/

/-- A ready thread performs the operation at its position. -/
theorem runThread_ready {s : State} {t : Nat} {th : Thread} {op : HostOp} (ht : s.threads[t]? = some th)
    (hr : th.status = .ready) (hop : th.program[th.pos]? = some op) (atomic : Bool) :
    runThread atomic t s = hostOp atomic t th.vars op s := by
  simp only [runThread, ht, hr, hop]

/-- A ready thread at a CMD write of a valid word runs its command, or opens it (R37, R80, R85). -/
theorem runThread_cmdWord {s : State} {t e : Nat} {th : Thread} {v : Expr} {i : Instr} {g : Engine}
    (ht : s.threads[t]? = some th) (hr : th.status = .ready) (hop : th.program[th.pos]? = some (cmdWord e v))
    (hg : s.engine? e = some g) (hb : g.isBusy = false)
    (hd : decode (BitVec.ofNat 32 (transactionValue 4 (evalExpr th.vars v))) = .ok i) (atomic : Bool) :
    runThread atomic t s =
      if atomic then exec i (s.atPort t e (BitVec.ofNat 32 (transactionValue 4 (evalExpr th.vars v))))
      else startCommand i (s.atPort t e (BitVec.ofNat 32 (transactionValue 4 (evalExpr th.vars v)))) .next := by
  rw [runThread_ready ht hr hop]
  show writeRegister atomic s t e 0 4 (evalExpr th.vars v) = _
  rw [writeRegister_cmd hg hb, writeCmd_ok hd]

/-- A thread whose CMD write is open performs nothing. -/
theorem runThread_waiting {s : State} {t e : Nat} {th : Thread} (ht : s.threads[t]? = some th)
    (hw : th.status = .waiting e) (atomic : Bool) : runThread atomic t s = .next s := by
  simp only [runThread, ht, hw]

theorem step_of_nextEvent {s : State} {ev : Event} (h : nextEvent s = ev) :
    step s = perform ev { s with sched := s.sched.tail } := by
  rw [← h]
  rfl

theorem step_scheduled (s : State) (ev : Event) (rest : List Event) :
    step { s with sched := ev :: rest } = perform ev { s with sched := rest } := rfl

theorem resetEngines_not_busy {s : State} (h : ∀ g ∈ s.engines, g.isBusy = false) :
    s.resetEngines = .next { s with engines := s.engines.map fun _ => Engine.reset } := by
  rw [State.resetEngines, if_neg]
  simpa using h

theorem written_reset (r : ArgReg) : Engine.reset.written.get r = false := by
  cases r <;> rfl

/-- CAPS has three bits (R36). -/
theorem capsValue_bits (p : Platform) : (capsValue p).getLsbD 0 = true ∧ (capsValue p).getLsbD 1 = p.hasT128 ∧
    (capsValue p).getLsbD 2 = p.hasT256 ∧ ∀ k, 3 ≤ k → (capsValue p).getLsbD k = false := by
  have small : (capsValue p).toNat < 2 ^ 3 := by
    unfold capsValue
    cases p.hasT128 <;> cases p.hasT256 <;> decide
  refine ⟨?_, ?_, ?_, fun k hk => ?_⟩
  · unfold capsValue
    cases p.hasT128 <;> cases p.hasT256 <;> decide
  · unfold capsValue
    cases p.hasT128 <;> cases p.hasT256 <;> decide
  · unfold capsValue
    cases p.hasT128 <;> cases p.hasT256 <;> decide
  · exact Nat.testBit_lt_two_pow (small.trans_le (Nat.pow_le_pow_right (by norm_num) hk))

end Sys2Proof.Machine

/-! ### The obligations settled: O4, O5, O26, O31, O32, O37, O39 -/

section

open Sys2Proof Sys2Proof.Machine

/-- Settles O4: the event performs the thread's CMD write, whose word decodes. -/
theorem stepRunsTheDecodedCommand : Obligations.StepRunsTheDecodedCommand := by
  rintro s t e th v _ i g ht hr hop rfl hd hg hb
  have run := runThread_cmdWord (s := { s with sched := s.sched.tail }) ht hr hop hg hb hd
  exact ⟨fun h => (step_of_nextEvent h).trans (run true), fun h => (step_of_nextEvent h).trans (run false)⟩

/-- Settles O5: the placed word is the one operation of thread 0, which is next, so O4 applies. -/
theorem placedCommandRunsNext : Obligations.PlacedCommandRunsNext := by
  intro s i g hg hb
  have word : BitVec.ofNat 32 (transactionValue 4 ((encode i).toNat % 2 ^ 32 : Nat)) = encode i := by
    have := (encode i).isLt
    apply BitVec.eq_of_toNat_eq
    simp only [transactionValue, BitVec.toNat_ofNat]
    omega
  obtain ⟨th, ht, hr, hop⟩ : ∃ th, (s.withFetchWord 32 (encode i).toNat).threads[0]? = some th ∧
      th.status = .ready ∧ th.program[th.pos]? = some (cmdWord 0 (.lit ((encode i).toNat % 2 ^ 32 : Nat))) := by
    unfold State.withFetchWord State.placeCommand
    cases s.threads <;> exact ⟨_, rfl, rfl, rfl⟩
  exact (stepRunsTheDecodedCommand _ 0 0 th _ _ i g ht hr hop word (decode_encode i) hg hb).1 rfl

/-- Settles O26: every CMD write needs an idle engine. -/
theorem faultedEngineIsStuck : Obligations.FaultedEngineIsStuck := by
  refine ⟨fun i s g f hg hf => ?_, fun s t e g f v atomic hg hf => ?_⟩
  · rw [exec_eq_runCommand]
    exact onIdleEngine_faulted hg hf _
  · rw [writeRegister_cmd hg (isBusy_of_faulted hf)]
    exact writeCmd_faulted hg hf atomic

/-- Settles O31: the bits of CAPS, and the two accesses that reach it. -/
theorem capsIsHardwired : Obligations.CapsIsHardwired := by
  refine ⟨capsValue_bits, fun s t e x g th v hg hb ht => ?_⟩
  obtain ⟨inRange, -⟩ := List.getElem?_eq_some_iff.1 ht
  exact ⟨writeRegister_caps hg hb t true v, _, readRegister_caps hg hb t x, varHolds_assign inRange x _, rfl, rfl, rfl⟩

/-- Settles O32: the read of CMD is an assignment of 0. -/
theorem cmdReadsZero : Obligations.CmdReadsZero := by
  intro s t e x g th hg hb ht
  obtain ⟨inRange, -⟩ := List.getElem?_eq_some_iff.1 ht
  exact ⟨readRegister_cmd hg hb t x, varHolds_assign inRange x 0, rfl, fun k hk => assign_thread_other s hk x 0⟩

/-- Settles O37: both events run the waiting thread, which does nothing. -/
theorem waitingThreadPerformsNothing : Obligations.WaitingThreadPerformsNothing :=
  fun s _ _ _ rest ht hw =>
    ⟨runThread_waiting (s := { s with sched := rest }) ht hw true,
      runThread_waiting (s := { s with sched := rest }) ht hw false⟩

/-- Settles O39: with no engine busy the reset replaces the engines and nothing else. -/
theorem resetClearsTheEnginesOnly : Obligations.ResetClearsTheEnginesOnly := by
  intro s rest h
  refine ⟨_, (step_scheduled s .reset rest).trans (resetEngines_not_busy h), rfl, rfl, rfl, rfl, rfl, rfl, rfl, rfl,
    rfl, List.length_map .., fun g hg => ?_⟩
  obtain ⟨_, -, rfl⟩ := List.mem_map.1 hg
  exact ⟨rfl, written_reset⟩

end

/-! Proofs about a command that faults and one that completes: what taking a fault and raising races leave as it was,
everything a command can come to, and the state that a ready command leaves. -/

namespace Sys2Proof.Machine

/-! ### Faults and races change engine states and stop threads (R312) -/

/-- A fault changes of an engine at most its state. -/
theorem engine?_raiseFault_status (s : State) (e t : Nat) (acc : Access) (f : CommandFault) {k : Nat} {g' : Engine}
    (h : (s.raiseFault e t acc f).engine? k = some g') :
    ∃ g st, s.engine? k = some g ∧ g' = { g with status := st } := by
  rw [engine?_raiseFault] at h
  split at h
  · obtain ⟨g, hg, rfl⟩ := Option.map_eq_some_iff.1 h
    exact ⟨g, _, hg, rfl⟩
  · exact ⟨g', g'.status, h, rfl⟩

theorem engine?_raiseRaces_status (o : Agent) {k : Nat} {g' : Engine} :
    ∀ (l : List (Nat × PendingCommand × Nat)) (s : State), (s.raiseRaces o l).engine? k = some g' →
      ∃ g st, s.engine? k = some g ∧ g' = { g with status := st }
  | [], s, h => ⟨g', g'.status, h, rfl⟩
  | (e, p, a) :: rest, s, h => by
    obtain ⟨d, st, hd, rfl⟩ := engine?_raiseRaces_status o rest _ h
    obtain ⟨g, _, hg, rfl⟩ := engine?_raiseFault_status s e p.thread _ _ hd
    exact ⟨g, st, hg, rfl⟩

/-- The issuing thread of a fault has stopped (log 9). -/
theorem thread_raiseFault_stopped {s : State} {e t : Nat} {acc : Access} {f : CommandFault} {th : Thread}
    (h : (s.raiseFault e t acc f).threads[t]? = some th) : th.status = .stopped := by
  simp only [raiseFault_threads, List.getElem?_modify, if_true, Option.map_eq_map] at h
  obtain ⟨_, -, rfl⟩ := Option.map_eq_some_iff.1 h
  rfl

/-- The record that a race leaves (R84, R312). -/
def raceRecord (o : Agent) (c : Nat × PendingCommand × Nat) : FaultRecord :=
  ⟨c.1, c.2.1.thread, .command c.2.1.word, .dataRace o c.2.2⟩

theorem raiseRaces_faults (o : Agent) : ∀ (l : List (Nat × PendingCommand × Nat)) (s : State),
    (s.raiseRaces o l).faults = s.faults ++ l.map (raceRecord o)
  | [], s => by simp [State.raiseRaces]
  | (e, p, a) :: rest, s => by
    rw [State.raiseRaces, raiseRaces_faults o rest, raiseFault_faults, List.append_assoc]
    rfl

@[simp] theorem raiseRaces_threads_length (o : Agent) : ∀ (l : List (Nat × PendingCommand × Nat)) (s : State),
    (s.raiseRaces o l).threads.length = s.threads.length
  | [], _ => rfl
  | (e, p, a) :: rest, s => by
    rw [State.raiseRaces, raiseRaces_threads_length o rest, raiseFault_threads, List.length_modify]

/-! ### Everything a command can come to -/

/-- A CMD write of a valid word ends in a fault at the port, perhaps after racing with open commands, or begins the
command of a ready engine (R80, R84, R135). -/
theorem startCommand_cases {i : Instr} {s t : State} {started : State → Host.Outcome State Fault Refusal}
    (h : startCommand i s started = .next t) :
    (∃ o l f, t = (s.raiseRaces o l).raiseFault s.port.engine s.port.thread (.command s.port.word) f) ∨
      ((∃ g, ReadyToRun s i g) ∧ started (s.openCommand i) = .next t) := by
  obtain ⟨g, hg, ⟨_, rfl⟩ | ⟨_, f, _, rfl⟩ | ⟨_, _, e, p, a, rest, _, rfl⟩ | ⟨hi, hf, hc, hs⟩⟩ := startCommand_next h
  · exact .inl ⟨.thread 0, [], _, rfl⟩
  · exact .inl ⟨.thread 0, [], f, rfl⟩
  · exact .inl ⟨_, _, _, rfl⟩
  · exact .inr ⟨⟨g, hg, hi, (startFault_eq_none_iff _).1 hf, (conflicts_eq_nil_iff_raceFree _ _ _).1 hc⟩, hs⟩

/-- A command faults, or is ready and runs to its completion (R80, R85). -/
theorem exec_cases {i : Instr} {s t : State} (h : exec i s = .next t) :
    (∃ o l f, t = (s.raiseRaces o l).raiseFault s.port.engine s.port.thread (.command s.port.word) f) ∨
      ((∃ g, ReadyToRun s i g) ∧ t = finishCommand s.port.engine (s.openCommand i)) := by
  rw [exec_eq_runCommand] at h
  obtain faults | ⟨ready, hs⟩ := startCommand_cases h
  · exact .inl faults
  · injection hs with hs
    exact .inr ⟨ready, hs.symm⟩

/-- A ready command opens. -/
theorem startCommand_ready {i : Instr} {s : State} {g : Engine} (h : ReadyToRun s i g)
    (started : State → Host.Outcome State Fault Refusal) : startCommand i s started = started (s.openCommand i) := by
  obtain ⟨hg, hi, legal, free⟩ := h
  exact startCommand_started hg hi ((startFault_eq_none_iff _).2 legal) ((conflicts_eq_nil_iff_raceFree _ _ _).2 free) _

/-- A ready command runs to its completion. -/
theorem exec_ready {i : Instr} {s : State} {g : Engine} (h : ReadyToRun s i g) :
    exec i s = .next (finishCommand s.port.engine (s.openCommand i)) := by
  rw [exec_eq_runCommand]
  exact startCommand_ready h _

/-- An opening and a completion of the same command, as one change of the state (R80, R85). -/
theorem finishCommand_openCommand {i : Instr} {s : State} {g : Engine} (hg : s.engine? s.port.engine = some g) :
    finishCommand s.port.engine (s.openCommand i) =
      { s with
        mem := writeResult i (commandInputs i s.mem (commandArgs i.planes g.args)) s.mem
          (commandArgs i.planes g.args).out (kernelOf i s.mem (commandArgs i.planes g.args) g.datapath).2
        unseen := hideWrite s.mem s.port.thread s.threads.length (commandArgs i.planes g.args).out
          (recordBytes i.planes) s.unseen
        engines := s.engines.modify s.port.engine fun g' => { g' with
          status := .idle, datapath := (kernelOf i s.mem (commandArgs i.planes g.args) g.datapath).1 }
        threads := s.threads.modify s.port.thread fun th => { th with pos := th.pos + 1, status := .ready } } := by
  have opened : (s.openCommand i).engine? s.port.engine =
      some { g with status := .busy ⟨i, s.port.word, s.port.thread, none⟩ } := by
    rw [engine?_openCommand, if_pos rfl, hg, Option.map_some]
  rw [finishCommand_busy opened rfl]
  simp only [State.advance, State.modifyThread, State.modifyEngine, State.openCommand, List.length_modify,
    List.modify_modify_eq]
  rfl

/-- A command that finds its engine idle takes the fault that START's checks find (R135, R312). -/
theorem takesFault_of_startFault {i : Instr} {s : State} {g : Engine} {f : CommandFault} (h : IdleAtPort s g)
    (hf : startFault s.platform g i s.port.word = some f) : TakesFault i s f := by
  obtain ⟨hg, hi⟩ := h
  refine ⟨s.raiseFault s.port.engine s.port.thread (.command s.port.word) f, ?_, rfl, rfl, ?_, fun k hk => ?_, rfl, rfl,
    rfl, rfl⟩
  · rw [exec_eq_runCommand, runCommand, startCommand, onIdleEngine_idle hg hi, hf]
  · apply List.ext_getElem?
    intro k
    simp only [raiseFault_engines, List.getElem?_modify]
    split
    · next hk =>
      subst hk
      rw [show s.engines[s.port.engine]? = some g from hg]
      simp [hi, EngineStatus.afterFault]
    · rfl
  · simp [Ne.symm hk]

/-- START faults with UNINIT_ARG of the first register not written, the tier being present (R42, R320). -/
theorem startFault_uninitArg {p : Platform} {g : Engine} {i : Instr} (w : Word) {pre post : List ArgReg} {r : ArgReg}
    (ht : LegalTier p i) (hs : argRegs i.planes = pre ++ r :: post) (hpre : ∀ q ∈ pre, g.written.get q = true)
    (hr : g.written.get r = false) : startFault p g i w = some (.uninitArg r) := by
  have first : checkWritten g i = some (.uninitArg r) := by
    have passed : pre.find? (fun q => !g.written.get q) = none := by simpa [List.find?_eq_none] using hpre
    simp [checkWritten, hs, List.find?_append, passed, hr]
  simp only [startFault, (checkTier_eq_none w).2 ht, first, Option.none_or, Option.some_or]

/-- None of START's faults is BAD_REG_ACCESS (R44, R135). -/
theorem startFault_ne_badRegAccess {p : Platform} {g : Engine} {i : Instr} {w : Word} {f : CommandFault}
    (h : startFault p g i w = some f) (o n : Nat) : f ≠ .badRegAccess o n := by
  rintro rfl
  simp only [startFault, Option.or_eq_some_iff] at h
  obtain h | ⟨-, h | ⟨-, h | ⟨-, h | ⟨-, h | ⟨-, h | ⟨-, h | ⟨-, h⟩⟩⟩⟩⟩⟩⟩ := h
  · simp [checkTier] at h
  · simp [checkWritten] at h
  · simp [checkGeometry] at h
  · simp only [checkStride] at h
    split_ifs at h <;> simp at h
  · simp only [checkAligned] at h
    split_ifs at h <;> simp at h
  · simp only [checkRange] at h
    split_ifs at h <;> simp at h
  · simp [checkOverlap] at h
  · simp [checkAccess] at h

end Sys2Proof.Machine

/-! ### The obligations settled: O7, O19, O25 -/

section

open Sys2Proof Sys2Proof.Machine

/-- Settles O7: a ready command opens and completes at once. -/
theorem readyCommandCompletesAndChangesNothingElse : Obligations.ReadyCommandCompletesAndChangesNothingElse :=
  fun _ _ _ h => (exec_ready h).trans (congrArg _ (finishCommand_openCommand h.1))

/-- Settles O19: reset, a register write, and the search of START for the first register not written. -/
theorem unwrittenArgumentFaults : Obligations.UnwrittenArgumentFaults := by
  refine ⟨written_reset, fun s t e g r v hg hb => ?_, fun i s g pre r post hidle ht hs hpre hr => ?_⟩
  · exact ⟨_, _, writeRegister_arg hg hb t true r v, engine?_writeArg hg t r _, fun q => get_mark g.written r q⟩
  · exact takesFault_of_startFault hidle (startFault_uninitArg _ ht hs hpre hr)

/-- Settles O25: a command that does not complete only takes faults, and one that completes takes none. -/
theorem faultingCommandWritesNothing : Obligations.FaultingCommandWritesNothing := by
  intro i s t h hnew
  obtain ⟨o, l, f, rfl⟩ | ⟨-, rfl⟩ := exec_cases h
  · refine ⟨by simp, by simp, ?_, fun th hth => thread_raiseFault_stopped hth, fun e g' hg' => ?_⟩
    · exact (raiseRaces_faults_prefix s o l).trans (List.prefix_append _ _)
    · obtain ⟨d, st, hd, rfl⟩ := engine?_raiseFault_status _ _ _ _ _ hg'
      obtain ⟨g, _, hg, rfl⟩ := engine?_raiseRaces_status o l s hd
      exact ⟨g, hg, rfl, rfl, rfl⟩
  · exact absurd (by simp) hnew

end

/-! Proofs about register accesses: which fault with BAD_REG_ACCESS, what they add to the record, and that nothing but
a write of an argument register or a reset changes one. -/

namespace Sys2Proof.Machine

/-! ### Accesses that fault and accesses that do not (R44) -/

theorem regAt_eq_some {offset width : Nat} {r : Reg} (h : regAt offset width = some r) :
    regOffset r = offset ∧ regWidth r = width := by
  simpa using List.find?_some h

/-- The access is no whole register at its own offset, or meets a busy engine (R44). -/
def BadAccess (g : Engine) (offset width : Nat) : Prop :=
  (∀ r, ¬ (regOffset r = offset ∧ regWidth r = width)) ∨ g.isBusy = true

theorem BadAccess.regAt {g : Engine} {offset width : Nat} (h : BadAccess g offset width) :
    Machine.regAt offset width = none ∨ g.isBusy = true :=
  h.imp_left (regAt_eq_none _ _).2

theorem not_badAccess {g : Engine} {offset width : Nat} (h : ¬ BadAccess g offset width) :
    (∃ r, regOffset r = offset ∧ regWidth r = width) ∧ g.isBusy = false := by
  simpa [BadAccess] using h

/-- A bad access makes an idle engine faulted; a busy one keeps its command and holds its first such fault (R43, R312,
log 11). -/
theorem status_of_badAccess {s : State} {e : Nat} {g : Engine} (hg : s.engine? e = some g) (t : Nat) (acc : Access)
    (off width : Nat) :
    (g.status = .idle → ((s.raiseFault e t acc (.badRegAccess off width)).engine? e).map Engine.status =
      some (.faulted (.badRegAccess off width))) ∧
    (∀ p, g.status = .busy p → ((s.raiseFault e t acc (.badRegAccess off width)).engine? e).map Engine.status =
      some (.busy { p with fault := some (p.fault.getD (.badRegAccess off width)) })) := by
  rw [engine?_raiseFault, if_pos rfl, hg]
  refine ⟨fun hi => ?_, fun p hp => ?_⟩
  · simp [hi, EngineStatus.afterFault]
  · cases hf : p.fault <;> simp [hp, hf, EngineStatus.afterFault]

section Admitted

variable {s : State} {e : Nat} {g : Engine} (hg : s.engine? e = some g) (hb : g.isBusy = false) (t : Nat)
include hg hb

/-- An admitted read adds no record. -/
theorem readRegister_faults (x : Nat) (r : Reg) :
    ∃ u, readRegister s t x e (regOffset r) (regWidth r) = .next u ∧ u.faults = s.faults := by
  cases r with
  | cmd => exact ⟨_, readRegister_cmd hg hb t x, rfl⟩
  | caps => exact ⟨_, readRegister_caps hg hb t x, rfl⟩
  | arg a =>
    cases hw : g.written.get a with
    | true => exact ⟨_, readRegister_written hg hb t x hw, rfl⟩
    | false => exact ⟨_, readRegister_unwritten hg hb t x hw, rfl⟩

/-- An admitted write of another register than CMD adds no record. -/
theorem writeRegister_faults (atomic : Bool) (v : Int) {r : Reg} (hr : r ≠ .cmd) :
    ∃ u, writeRegister atomic s t e (regOffset r) (regWidth r) v = .next u ∧ u.faults = s.faults := by
  cases r with
  | cmd => exact absurd rfl hr
  | caps => exact ⟨_, writeRegister_caps hg hb t atomic v, rfl⟩
  | arg a => exact ⟨_, writeRegister_arg hg hb t atomic a v, rfl⟩

end Admitted

/-- The record grows, by no BAD_REG_ACCESS. -/
def AddsNoBadAccess (s u : State) : Prop :=
  ∃ new, u.faults = s.faults ++ new ∧ ∀ r ∈ new, ∀ o w, r.fault ≠ .badRegAccess o w

theorem AddsNoBadAccess.of_eq {s u : State} (h : u.faults = s.faults) : AddsNoBadAccess s u :=
  ⟨[], by simpa using h, by simp⟩

theorem AddsNoBadAccess.trans {s u w : State} (h : AddsNoBadAccess s u) (h' : AddsNoBadAccess u w) :
    AddsNoBadAccess s w := by
  obtain ⟨new, eq, no⟩ := h
  obtain ⟨new', eq', no'⟩ := h'
  exact ⟨new ++ new', by rw [eq', eq, List.append_assoc], fun r hr => (List.mem_append.1 hr).elim (no r) (no' r)⟩

theorem addsNoBadAccess_raiseFault {s : State} {e t : Nat} {acc : Access} {f : CommandFault}
    (hf : ∀ o w, f ≠ .badRegAccess o w) : AddsNoBadAccess s (s.raiseFault e t acc f) :=
  ⟨_, rfl, by simpa using hf⟩

theorem addsNoBadAccess_raiseRaces (s : State) (o : Agent) (l : List (Nat × PendingCommand × Nat)) :
    AddsNoBadAccess s (s.raiseRaces o l) := by
  refine ⟨_, raiseRaces_faults o l s, fun r hr => ?_⟩
  obtain ⟨c, -, rfl⟩ := List.mem_map.1 hr
  simp [raceRecord]

/-- A CMD write of a valid word that meets no busy engine adds none of the faults of R44. -/
theorem startCommand_addsNoBadAccess {i : Instr} {s t : State} {started : State → Host.Outcome State Fault Refusal}
    (hb : ∀ g, s.engine? s.port.engine = some g → g.isBusy = false) (h : startCommand i s started = .next t)
    (hs : ∀ u, started u = .next t → t.faults = u.faults) : AddsNoBadAccess s t := by
  obtain ⟨g, hg, ⟨busy, _⟩ | ⟨_, f, hf, rfl⟩ | ⟨_, _, e, p, a, rest, _, rfl⟩ | ⟨_, _, _, hk⟩⟩ := startCommand_next h
  · rw [hb g hg] at busy
    cases busy
  · exact addsNoBadAccess_raiseFault (startFault_ne_badRegAccess hf)
  · exact (addsNoBadAccess_raiseRaces _ _ _).trans (addsNoBadAccess_raiseFault (by simp))
  · exact .of_eq (by simpa using hs _ hk)

theorem writeCmd_addsNoBadAccess {atomic : Bool} {s t : State}
    (hb : ∀ g, s.engine? s.port.engine = some g → g.isBusy = false) (h : writeCmd atomic s = .next t) :
    AddsNoBadAccess s t := by
  unfold writeCmd at h
  split at h
  · obtain ⟨g, hg, ⟨-, hk⟩ | ⟨busy, -⟩⟩ := onIdleEngine_next h
    · injection hk with hk
      subst hk
      exact addsNoBadAccess_raiseFault (by simp)
    · rw [hb g hg] at busy
      cases busy
  · cases atomic with
    | false => exact startCommand_addsNoBadAccess hb h fun u hu => by injection hu with hu; rw [hu]
    | true =>
      rw [if_pos rfl, exec_eq_runCommand] at h
      exact startCommand_addsNoBadAccess hb h fun u hu => by injection hu with hu; simp [← hu]

theorem writeRegister_addsNoBadAccess {s u : State} {e : Nat} {g : Engine} (hg : s.engine? e = some g)
    (hb : g.isBusy = false) {t : Nat} {r : Reg} {atomic : Bool} {v : Int}
    (h : writeRegister atomic s t e (regOffset r) (regWidth r) v = .next u) : AddsNoBadAccess s u := by
  by_cases hr : r = .cmd
  · subst hr
    rw [regOffset, regWidth, writeRegister_cmd hg hb] at h
    refine AddsNoBadAccess.trans (u := s.atPort t e _) (.of_eq rfl) (writeCmd_addsNoBadAccess (fun d hd => ?_) h)
    rw [atPort_engine?, atPort_port, hg] at hd
    exact Option.some.inj hd ▸ hb
  · obtain ⟨w, hw, same⟩ := writeRegister_faults hg hb t atomic v hr
    rw [hw] at h
    injection h with h
    exact .of_eq (h ▸ same)

/-! ### Only a write of an argument register or a reset changes one (R42, R45) -/

/-- The engines hold the same argument registers and `written` bits. -/
def SameRegisters (s u : State) : Prop :=
  u.engines.map Engine.args = s.engines.map Engine.args ∧
    u.engines.map Engine.written = s.engines.map Engine.written

theorem SameRegisters.of_eq {s u : State} (h : u.engines = s.engines) : SameRegisters s u := by
  rw [SameRegisters, h]
  exact ⟨rfl, rfl⟩

theorem SameRegisters.trans {s u w : State} (h : SameRegisters s u) (h' : SameRegisters u w) : SameRegisters s w :=
  ⟨h'.1.trans h.1, h'.2.trans h.2⟩

theorem SameRegisters.engine {s u : State} (h : SameRegisters s u) {e : Nat} {g : Engine} (hg : s.engine? e = some g) :
    ∃ g', u.engine? e = some g' ∧ g'.args = g.args ∧ g'.written = g.written := by
  obtain ⟨args, written⟩ := h
  replace args := congrArg (·[e]?) args
  replace written := congrArg (·[e]?) written
  simp only [List.getElem?_map, show s.engines[e]? = some g from hg, Option.map_some, Option.map_eq_some_iff]
    at args written
  obtain ⟨g', hg', args⟩ := args
  obtain ⟨d, hd, written⟩ := written
  obtain rfl : g' = d := Option.some.inj (hg'.symm.trans hd)
  exact ⟨g', hg', args, written⟩

theorem sameRegisters_raiseRaces (s : State) (o : Agent) (l : List (Nat × PendingCommand × Nat)) :
    SameRegisters s (s.raiseRaces o l) := raiseRaces_registers o l s

theorem sameRegisters_raiseFault (s : State) (e t : Nat) (acc : Access) (f : CommandFault) :
    SameRegisters s (s.raiseFault e t acc f) := raiseFault_registers s e t acc f

theorem sameRegisters_openCommand (i : Instr) (s : State) : SameRegisters s (s.openCommand i) :=
  openCommand_registers i s

theorem sameRegisters_finishCommand (e : Nat) (s : State) : SameRegisters s (finishCommand e s) :=
  finishCommand_registers e s

theorem startCommand_sameRegisters {i : Instr} {s t : State} {started : State → Host.Outcome State Fault Refusal}
    (h : startCommand i s started = .next t) (hs : ∀ u, started u = .next t → SameRegisters u t) :
    SameRegisters s t := by
  obtain ⟨o, l, f, rfl⟩ | ⟨-, hk⟩ := startCommand_cases h
  · exact (sameRegisters_raiseRaces s o l).trans (sameRegisters_raiseFault _ _ _ _ _)
  · exact (sameRegisters_openCommand i s).trans (hs _ hk)

/-- A command changes no argument register (R45). -/
theorem exec_sameRegisters {i : Instr} {s t : State} (h : exec i s = .next t) : SameRegisters s t := by
  rw [exec_eq_runCommand] at h
  exact startCommand_sameRegisters h fun u hu => by injection hu with hu; exact hu ▸ sameRegisters_finishCommand _ u

theorem writeCmd_sameRegisters {atomic : Bool} {s t : State} (h : writeCmd atomic s = .next t) :
    SameRegisters s t := by
  unfold writeCmd at h
  split at h
  · obtain ⟨g, -, ⟨-, hk⟩ | ⟨-, rfl⟩⟩ := onIdleEngine_next h
    · injection hk with hk
      exact hk ▸ sameRegisters_raiseFault _ _ _ _ _
    · exact sameRegisters_raiseFault _ _ _ _ _
  · cases atomic with
    | false => exact startCommand_sameRegisters h fun u hu => by injection hu with hu; exact .of_eq (by rw [hu])
    | true => exact exec_sameRegisters h

/-- A register write changes no argument register, or it is a write of one, which alone it changes (R45). -/
theorem writeRegister_registers {atomic : Bool} {s u : State} {t e off w : Nat} {v : Int}
    (h : writeRegister atomic s t e off w v = .next u) :
    SameRegisters s u ∨ ∃ r x, regOffset (.arg r) = off ∧ regWidth (.arg r) = w ∧
      u = (s.modifyEngine e fun g => g.writeArg r x).advance t := by
  obtain ⟨g, -, ⟨-, rfl⟩ | ⟨r, hr, -, hk⟩⟩ := onRegister_next h
  · exact .inl (sameRegisters_raiseFault _ _ _ _ _)
  · cases r with
    | cmd => exact .inl (.trans (u := s.atPort t e _) (.of_eq rfl) (writeCmd_sameRegisters hk))
    | caps => injection hk with hk; exact .inl (.of_eq (hk ▸ rfl))
    | arg a => injection hk with hk; exact .inr ⟨a, _, (regAt_eq_some hr).1, (regAt_eq_some hr).2, hk.symm⟩

theorem readRegister_sameRegisters {s u : State} {t x e off w : Nat} (h : readRegister s t x e off w = .next u) :
    SameRegisters s u := by
  obtain ⟨g, -, ⟨-, rfl⟩ | ⟨r, -, -, hk⟩⟩ := onRegister_next h
  · exact sameRegisters_raiseFault _ _ _ _ _
  · cases r with
    | cmd | caps => injection hk with hk; exact .of_eq (hk ▸ rfl)
    | arg a =>
      dsimp only at hk
      split at hk <;> (injection hk with hk; exact .of_eq (hk ▸ rfl))

theorem storeBytes_sameRegisters {s u : State} {t n : Nat} {addr v : Int} (h : storeBytes s t n addr v = .next u) :
    SameRegisters s u := by
  obtain ⟨-, -, -, hk⟩ := onHostBytes_next h
  injection hk with hk
  subst hk
  exact (sameRegisters_raiseRaces s (.thread t) _).trans (.of_eq rfl)

theorem loadBytes_sameRegisters {s u : State} {t x n : Nat} {addr : Int} (h : loadBytes s t x n addr = .next u) :
    SameRegisters s u := by
  obtain ⟨-, -, -, hk⟩ := onHostBytes_next h
  injection hk with hk
  subst hk
  exact (sameRegisters_raiseRaces s (.thread t) (hostRaces false addr.toNat n 0 s.engines)).trans (.of_eq (by simp))

/-- A host operation changes no argument register, or it is a write of one (R113). -/
theorem hostOp_registers {atomic : Bool} {t : Nat} {vars : List (Nat × Int)} {op : HostOp} {s u : State}
    (h : hostOp atomic t vars op s = .next u) :
    SameRegisters s u ∨ ∃ e r v x, op = wrReg e (.arg r) v ∧
      u = (s.modifyEngine e fun g => g.writeArg r x).advance t := by
  cases op with
  | wr e off w v =>
    obtain same | ⟨r, x, rfl, rfl, rfl⟩ := writeRegister_registers h
    · exact .inl same
    · exact .inr ⟨e, r, v, x, rfl, rfl⟩
  | rd => exact .inl (readRegister_sameRegisters h)
  | st => exact .inl (storeBytes_sameRegisters h)
  | ld => exact .inl (loadBytes_sameRegisters h)
  | letVar => injection h with h; exact .inl (.of_eq (h ▸ rfl))
  | ifGoto c target =>
    simp only [hostOp] at h
    split at h <;> (injection h with h; exact .inl (.of_eq (h ▸ rfl)))

/-- A thread's event changes no argument register, or its next operation is a write of one. -/
theorem runThread_registers {atomic : Bool} {t : Nat} {s u : State} (h : runThread atomic t s = .next u) :
    SameRegisters s u ∨ ∃ th e r v x, s.threads[t]? = some th ∧ th.program[th.pos]? = some (wrReg e (.arg r) v) ∧
      u = (s.modifyEngine e fun g => g.writeArg r x).advance t := by
  unfold runThread at h
  split at h
  · cases h
  · next th ht =>
    split at h
    · injection h with h; exact .inl (.of_eq (h ▸ rfl))
    · cases h
    · split at h
      · injection h with h; exact .inl (.of_eq (h ▸ rfl))
      · next op hop =>
        obtain same | ⟨e, r, v, x, rfl, hu⟩ := hostOp_registers h
        · exact .inl same
        · exact .inr ⟨th, e, r, v, x, ht, hop, hu⟩

/-- An event that is no reset changes no argument register, or it lets a thread write one. -/
theorem perform_registers {ev : Event} {s u : State} (h : perform ev s = .next u) (hr : ev ≠ .reset) :
    SameRegisters s u ∨ ∃ t th e r v x, (ev = .run t ∨ ev = .start t) ∧ s.threads[t]? = some th ∧
      th.program[th.pos]? = some (wrReg e (.arg r) v) ∧
      u = (s.modifyEngine e fun g => g.writeArg r x).advance t := by
  cases ev with
  | run t =>
    obtain same | ⟨th, e, r, v, x, hw⟩ := runThread_registers h
    · exact .inl same
    · exact .inr ⟨t, th, e, r, v, x, .inl rfl, hw⟩
  | start t =>
    obtain same | ⟨th, e, r, v, x, hw⟩ := runThread_registers h
    · exact .inl same
    · exact .inr ⟨t, th, e, r, v, x, .inr rfl, hw⟩
  | finish e => injection h with h; exact .inl (h ▸ sameRegisters_finishCommand e s)
  | reset => exact absurd rfl hr
  | idle =>
    simp only [perform] at h
    split at h
    · injection h with h; exact .inl (.of_eq (h ▸ rfl))
    · cases h

/-- A write of one argument register leaves every other register of every engine (R31, R42). -/
theorem writeArg_keeps_other {s : State} {e k t : Nat} {q r : ArgReg} {x : DWord} {g : Engine}
    (hg : s.engine? k = some g) (h : k ≠ e ∨ q ≠ r) :
    ∃ g', ((s.modifyEngine e fun g => g.writeArg r x).advance t).engine? k = some g' ∧
      g'.args.get q = g.args.get q ∧ g'.written.get q = g.written.get q := by
  by_cases hk : k = e
  · subst hk
    have hq : q ≠ r := h.resolve_left (· rfl)
    exact ⟨_, engine?_writeArg hg t r x, get_set_other _ _ _ _ hq, (get_mark _ _ _).trans (by simp [hq])⟩
  · exact ⟨g, (engine?_writeArg_other t hk r x).trans hg, rfl, rfl⟩

/-- The value that an argument register takes of a host write (R113). -/
theorem get_set_transaction (y : ArgFile) (r : ArgReg) (v : Int) :
    (((y.set (BitVec.ofNat 64 (transactionValue (regWidth (.arg r)) v)) r).get r).toNat : Int) =
      v % (2 ^ (8 * regWidth (.arg r)) : Nat) := by
  obtain hw | hw : regWidth (.arg r) = 4 ∨ regWidth (.arg r) = 8 := by cases r <;> simp [regWidth]
  all_goals
    rw [get_set_self, hw, transactionValue, BitVec.toNat_ofNat]
    omega

end Sys2Proof.Machine

/-! ### The obligations settled: O30, O33 -/

section

open Sys2Proof Sys2Proof.Machine

/-- Settles O33: an access that is not bad reaches a register of an engine that is not busy, and each such access is
known. -/
theorem badRegisterAccessFaults : Obligations.BadRegisterAccessFaults := by
  refine ⟨rfl, mem_allRegs, fun s t e off width x v g atomic hg => ?_⟩
  have taken (acc : Access) := status_of_badAccess hg t acc off width
  refine ⟨fun bad => ?_, fun bad => ?_, fun admitted => ?_, fun admitted hoff => ?_, fun admitted u hu => ?_⟩
  · exact ⟨_, onRegister_bad hg (BadAccess.regAt bad) _, ⟨rfl, taken _⟩, rfl⟩
  · exact ⟨_, onRegister_bad hg (BadAccess.regAt bad) _, ⟨rfl, taken _⟩, rfl⟩
  · obtain ⟨⟨r, rfl, rfl⟩, hb⟩ := not_badAccess admitted
    exact readRegister_faults hg hb t x r
  · obtain ⟨⟨r, rfl, rfl⟩, hb⟩ := not_badAccess admitted
    exact writeRegister_faults hg hb t atomic v fun hr => hoff (hr ▸ rfl)
  · obtain ⟨⟨r, rfl, rfl⟩, hb⟩ := not_badAccess admitted
    exact writeRegister_addsNoBadAccess hg hb hu

/-- Settles O30: the register operations one by one, then the commands and the steps, which change no argument register
but by a write of it. -/
theorem argumentRegistersHoldWhatWasWritten : Obligations.ArgumentRegistersHoldWhatWasWritten := by
  refine ⟨fun s t e g r v hg hb => ?_, fun s t e x g th r hg hb ht hw => ?_, fun s t e x g th r v hg hb ht => ?_,
    fun s t e x g th r hg hb ht hw => ?_, fun i s t h => exec_sameRegisters h, fun s u e g r h hg hreset hwrite => ?_⟩
  · exact ⟨_, _, writeRegister_arg hg hb t true r v, engine?_writeArg hg t r _, get_set_transaction g.args r v,
      fun q hq => get_set_other _ _ _ _ hq, rfl, rfl, fun k hk => engine?_writeArg_other t hk r _, rfl, rfl⟩
  · obtain ⟨inRange, -⟩ := List.getElem?_eq_some_iff.1 ht
    exact ⟨_, readRegister_written hg hb t x hw, varHolds_assign inRange x _, rfl, rfl, rfl, rfl⟩
  · obtain ⟨inRange, -⟩ := List.getElem?_eq_some_iff.1 ht
    have marked : (g.writeArg r (BitVec.ofNat 64 (transactionValue (regWidth (.arg r)) v))).written.get r = true :=
      (get_mark _ _ _).trans (by simp)
    refine ⟨_, _, writeRegister_arg hg hb t true r v,
      readRegister_written (engine?_writeArg hg t r _) hb t x marked, ?_, rfl, rfl⟩
    rw [writeArg_args, get_set_transaction]
    exact varHolds_assign (by simpa using inRange) x _
  · obtain ⟨inRange, -⟩ := List.getElem?_eq_some_iff.1 ht
    exact ⟨_, readRegister_unwritten hg hb t x hw, varHolds_assign inRange x _, rfl, rfl, rfl⟩
  · obtain same | ⟨t, th, k, q, v, x, hev, ht, hop, rfl⟩ := perform_registers h hreset
    · obtain ⟨g', hg', args, written⟩ := same.engine hg
      exact ⟨g', hg', by rw [args], by rw [written]⟩
    · refine writeArg_keeps_other hg ?_
      by_contra hsame
      obtain ⟨rfl, rfl⟩ : e = k ∧ r = q := by simpa only [not_or, not_not] using hsame
      exact hwrite t th v hev ht hop

end

/-! Proofs about what host threads see of memory: across the completion of a command, and by their own stores and
loads. -/

namespace Sys2Proof.Machine

/-! ### Across a completion (R82, R83) -/

/-- The unseen write that another thread has at a byte stays its oldest one there. -/
theorem find?_hideWrite_of_some {m : Memory} {t threads out n k a : Nat} {l : List Unseen} {v : Unseen} (hk : k ≠ t)
    (h : l.find? (Unseen.isAt k a) = some v) : (hideWrite m t threads out n l).find? (Unseen.isAt k a) = some v := by
  have kept : (l.filter fun u => !(decide (u.thread = t) && u.within out n)).find? (Unseen.isAt k a) = some v := by
    rw [List.find?_filter, ← h]
    congr 1
    funext u
    by_cases hu : u.thread = k <;> simp [Unseen.isAt, hu, hk]
  rw [hideWrite, List.find?_append, kept, Option.some_or]

/-- Another thread with no unseen write at a byte misses the record's byte there, and that alone. -/
theorem find?_hideWrite_of_none {m : Memory} {t threads out n k a : Nat} {l : List Unseen} (hk : k ≠ t)
    (hin : k < threads) (h : l.find? (Unseen.isAt k a) = none) :
    (∃ v, (hideWrite m t threads out n l).find? (Unseen.isAt k a) = some v ∧ v.old = m.read a) ∨
      ((hideWrite m t threads out n l).find? (Unseen.isAt k a) = none ∧ (a < out ∨ out + n ≤ a)) := by
  cases hv : (hideWrite m t threads out n l).find? (Unseen.isAt k a) with
  | some v =>
    refine .inl ⟨v, rfl, ?_⟩
    have here := List.find?_some hv
    obtain ⟨hold, -⟩ | ⟨-, -, -, old⟩ := mem_hideWrite _ _ _ _ _ _ v (List.mem_of_find?_eq_some hv)
    · exact absurd here (List.find?_eq_none.1 h v hold)
    · rw [old, (isAt_iff.1 here).2]
  | none =>
    refine .inr ⟨rfl, ?_⟩
    by_contra hrec
    have new : (⟨k, a, m.read a⟩ : Unseen) ∈ hideWrite m t threads out n l := by
      refine List.mem_append_right _ (List.mem_flatMap.2 ⟨k, by simp [hin, hk], List.mem_map.2 ⟨a - out, ?_, ?_⟩⟩)
      · simp only [List.mem_range]
        omega
      · rw [Nat.add_sub_cancel' (by omega)]
    exact List.find?_eq_none.1 hv _ new (isAt_iff.2 ⟨rfl, rfl⟩)

section Completion

variable {s : State} {e : Nat} {g : Engine} {p : PendingCommand} (hg : s.engine? e = some g)
  (hp : g.status = .busy p)
include hg hp

/-- A completion leaves what the other threads see (R83). -/
theorem byteSeen_finishCommand_other (hm : s.mem.wf) {k : Nat} (hin : k < s.threads.length) (hk : k ≠ p.thread)
    (a : Nat) : (finishCommand e s).byteSeen k a = s.byteSeen k a := by
  rw [finishCommand_busy hg hp]
  simp only [State.byteSeen, advance_unseen, advance_mem, modifyEngine_unseen, modifyEngine_mem]
  cases h : s.unseen.find? (Unseen.isAt k a) with
  | some v => rw [find?_hideWrite_of_some hk h]
  | none =>
    obtain ⟨v, hv, old⟩ | ⟨hv, outside⟩ := find?_hideWrite_of_none (m := s.mem)
      (out := (commandArgs p.instr.planes g.args).out) (n := recordBytes p.instr.planes) hk hin h
    · rw [hv]
      exact old
    · rw [hv]
      exact read_writeResult_outside _ _ _ _ _ a hm outside

/-- After a completion the issuing thread sees its record (R82). -/
theorem byteSeen_finishCommand_issuer {a : Nat} (ha : (footprint p.instr g.args).writes a = true) :
    (finishCommand e s).byteSeen p.thread a = (finishCommand e s).mem.read a := by
  have sees : (finishCommand e s).unseen.find? (Unseen.isAt p.thread a) = none := by
    rw [finishCommand_busy hg hp, List.find?_eq_none]
    intro v hv hat
    obtain ⟨thread, rfl⟩ := isAt_iff.1 hat
    have outside := hideWrite_issuer _ _ _ _ _ _ v hv thread
    have inside := (writes_iff _ _).1 ha
    simp only [Unseen.within, Bool.and_eq_false_iff, decide_eq_false_iff_not] at outside
    exact outside.elim (· inside.1) (· inside.2)
  rw [State.byteSeen, sees]

/-- The engine whose command completes (R43, R312). -/
theorem status_finishCommand : ((finishCommand e s).engine? e).map Engine.status = some p.after := by
  rw [finishCommand_busy hg hp]
  simp only [State.engine?, advance_engines, modifyEngine_engines, List.getElem?_modify]
  rw [show s.engines[e]? = some g from hg]
  simp

theorem threads_finishCommand : (finishCommand e s).threads = s.threads.modify p.thread Thread.advance := by
  rw [finishCommand_busy hg hp]
  rfl

end Completion

/-- With nothing scheduled and an engine busy, the next event completes a busy engine (log 14). -/
theorem nextEvent_unscheduled_busy {s : State} (hs : s.sched = []) (h : ∃ g ∈ s.engines, g.isBusy = true) :
    ∃ e g, s.engine? e = some g ∧ g.isBusy = true ∧ nextEvent s = .finish e := by
  cases hf : s.engines.findIdx? Engine.isBusy with
  | none =>
    obtain ⟨g, hg, busy⟩ := h
    rw [List.findIdx?_eq_none_iff] at hf
    rw [hf g hg] at busy
    cases busy
  | some e =>
    obtain ⟨hlt, busy, -⟩ := List.findIdx?_eq_some_iff_getElem.1 hf
    exact ⟨e, s.engines[e], List.getElem?_eq_getElem hlt, busy, by simp only [nextEvent, hs, hf]⟩

/-! ### A host store and a host load (R83, R113) -/

/-- The state after an accessible store of `n` bytes (R84, R113). -/
def State.afterStore (s : State) (t a n v : Nat) : State :=
  { s.raiseRaces (.thread t) (hostRaces true a n 0 s.engines) with
    mem := s.mem.writeLE a n v
    unseen := s.unseen.filter fun u => !u.within a n }.advance t

/-- The state in which thread `t` has looked at the bytes that it loads (R83, R84). -/
def State.lookedAt (s : State) (t a n : Nat) : State :=
  (s.raiseRaces (.thread t) (hostRaces false a n 0 s.engines)).look t a n

/-- The state after an accessible load of `n` bytes (R83, R84, R113). -/
def State.afterLoad (s : State) (t x a n : Nat) : State :=
  (s.lookedAt t a n).assign t x ((s.lookedAt t a n).readSeen t a n)

section HostAccess

variable {s : State} {a n : Nat} (t : Nat)

theorem storeBytes_accessible (h : HostAccessible s a n) (v : Int) :
    storeBytes s t n a v = .next (s.afterStore t a n (transactionValue n v)) :=
  onHostBytes_accessible h _

theorem loadBytes_accessible (h : HostAccessible s a n) (x : Nat) :
    loadBytes s t x n a = .next (s.afterLoad t x a n) :=
  onHostBytes_accessible h _

theorem sameRegisters_afterStore (v : Nat) : SameRegisters s (s.afterStore t a n v) :=
  (sameRegisters_raiseRaces s (.thread t) (hostRaces true a n 0 s.engines)).trans (.of_eq rfl)

theorem sameRegisters_afterLoad (x : Nat) : SameRegisters s (s.afterLoad t x a n) :=
  (sameRegisters_raiseRaces s (.thread t) (hostRaces false a n 0 s.engines)).trans (.of_eq (by
    simp [State.afterLoad, State.lookedAt]))

@[simp] theorem afterStore_platform (v : Nat) : (s.afterStore t a n v).platform = s.platform := by
  simp [State.afterStore]
@[simp] theorem afterStore_mem (v : Nat) : (s.afterStore t a n v).mem = s.mem.writeLE a n v := rfl
@[simp] theorem afterStore_threads_length (v : Nat) :
    (s.afterStore t a n v).threads.length = s.threads.length := by
  simp [State.afterStore]

/-- Every thread sees what a host stores, at once (log 15). -/
theorem afterStore_unseen (v : Nat) : ∀ u ∈ (s.afterStore t a n v).unseen, u.within a n = false := by
  intro u hu
  simpa using List.of_mem_filter (p := fun u : Unseen => !u.within a n) hu

@[simp] theorem afterLoad_mem (x : Nat) : (s.afterLoad t x a n).mem = s.mem := by
  simp [State.afterLoad, State.lookedAt]

/-- The variable takes the bytes that its thread sees after the look. -/
theorem varHolds_afterLoad (ht : t < s.threads.length) (x : Nat) :
    VarHolds (s.afterLoad t x a n) t x ((s.afterLoad t x a n).readSeen t a n) := by
  rw [readSeen_congr (s := s.lookedAt t a n) (u := s.afterLoad t x a n) rfl rfl]
  exact varHolds_assign (by simpa [State.lookedAt] using ht) x _

/-- A load of bytes of which its thread misses no write draws nothing and gives memory's own (R83). -/
theorem afterLoad_quiet (x : Nat) (h : ∀ u ∈ s.unseen, u.thread = t → u.within a n = false) :
    (s.afterLoad t x a n).unseen = s.unseen ∧ (s.afterLoad t x a n).draws = s.draws ∧
      (s.afterLoad t x a n).readSeen t a n = s.mem.readLE a n := by
  have unseen : (s.afterLoad t x a n).unseen = s.unseen ∧ (s.afterLoad t x a n).draws = s.draws := by
    obtain ⟨same, -⟩ | ⟨-, u, hu, thread, within⟩ :=
      look_cases (s.raiseRaces (.thread t) (hostRaces false a n 0 s.engines)) t a n
    · simp [State.afterLoad, State.lookedAt, same]
    · rw [raiseRaces_unseen] at hu
      rw [h u hu thread] at within
      cases within
  refine ⟨unseen.1, unseen.2, ?_⟩
  rw [readSeen_eq_readLE _ _ _ _ (by rwa [unseen.1]), afterLoad_mem]

/-- A load of bytes of which its thread misses a write makes one draw of `HOST_MM` (R83, log 15). -/
theorem afterLoad_draws (x : Nat) (h : ∃ u ∈ s.unseen, u.thread = t ∧ u.within a n = true) :
    (s.afterLoad t x a n).unseen = lookAt t s.draws a n s.unseen ∧ (s.afterLoad t x a n).draws = s.draws + 1 := by
  obtain ⟨-, sees⟩ | ⟨looked, -⟩ := look_cases (s.raiseRaces (.thread t) (hostRaces false a n 0 s.engines)) t a n
  · obtain ⟨u, hu, thread, within⟩ := h
    rw [sees u (by rwa [raiseRaces_unseen]) thread] at within
    cases within
  · simp [State.afterLoad, State.lookedAt, looked]

/-- Of a byte looked at, a thread sees as many more writes as `HOST_MM` says: none, or all (R83). -/
theorem byteSeen_afterLoad (x : Nat) (h : ∃ u ∈ s.unseen, u.thread = t ∧ u.within a n = true) {b : Nat} (lo : a ≤ b)
    (hi : b < a + n) :
    (Config.hostMM t b s.draws = 0 → (s.afterLoad t x a n).byteSeen t b = s.byteSeen t b) ∧
      (s.unseen.countP (Unseen.isAt t b) ≤ Config.hostMM t b s.draws →
        (s.afterLoad t x a n).byteSeen t b = s.mem.read b) := by
  have seen : (s.afterLoad t x a n).unseen.filter (Unseen.isAt t b) =
      (s.unseen.filter (Unseen.isAt t b)).drop (Config.hostMM t b s.draws) := by
    rw [(afterLoad_draws t x h).1, filter_lookAt_self n a _ lo hi]
  refine ⟨fun zero => byteSeen_congr (by rw [afterLoad_mem]) (by rw [seen, zero, List.drop_zero]), fun all => ?_⟩
  rw [List.countP_eq_length_filter] at all
  rw [State.byteSeen, ← List.head?_filter, seen, List.drop_eq_nil_of_le all, afterLoad_mem]
  rfl

/-- A load leaves what other threads see, and what its own sees elsewhere (R83). -/
theorem byteSeen_afterLoad_other (x : Nat) {k b : Nat} (h : k ≠ t ∨ b < a ∨ a + n ≤ b) :
    (s.afterLoad t x a n).byteSeen k b = s.byteSeen k b := by
  refine byteSeen_congr (by rw [afterLoad_mem]) ?_
  by_cases hm : ∀ u ∈ s.unseen, u.thread = t → u.within a n = false
  · rw [(afterLoad_quiet t x hm).1]
  · simp only [not_forall, Bool.not_eq_false] at hm
    obtain ⟨u, hu, thread, within⟩ := hm
    rw [(afterLoad_draws t x ⟨u, hu, thread, within⟩).1, filter_lookAt_other n a _ h]

end HostAccess

end Sys2Proof.Machine

/-! ### The obligations settled: O35, O38 -/

section

open Sys2Proof Sys2Proof.Machine

/-- Settles O35: after a store its thread misses no write of the stored bytes, so the load gives memory's own; any other
load gives what the look at its bytes shows. -/
theorem hostStoreThenLoadReturnsTheValue : Obligations.HostStoreThenLoadReturnsTheValue := by
  intro s t a n x v th hm hacc ht
  obtain ⟨inRange, -⟩ := List.getElem?_eq_some_iff.1 ht
  have hacc' : HostAccessible (s.afterStore t a n (transactionValue n v)) a n := by
    simpa [HostAccessible] using hacc
  refine ⟨_, _, storeBytes_accessible t hacc v, loadBytes_accessible t hacc' x, ?_, afterLoad_mem t x,
    fun b hb => Memory.read_writeLE_outside n s.mem a _ b hm hb, sameRegisters_afterStore t _,
    (sameRegisters_afterStore t _).trans (sameRegisters_afterLoad t x), _, loadBytes_accessible t hacc x,
    varHolds_afterLoad t inRange x, afterLoad_mem t x, fun quiet => ?_, fun missed => ?_,
    fun k b hkb => byteSeen_afterLoad_other t x hkb⟩
  · have value : (transactionValue n v % 2 ^ (8 * n) : Nat) = v % (2 ^ (8 * n) : Nat) := by
      have pos : (0 : Int) < (2 ^ (8 * n) : Nat) := by positivity
      rw [transactionValue, Int.natCast_mod, Int.toNat_of_nonneg (Int.emod_nonneg _ pos.ne'), Int.emod_emod]
    have holds := varHolds_afterLoad (a := a) (n := n) t (by simpa using inRange) x
      (s := s.afterStore t a n (transactionValue n v))
    rw [(afterLoad_quiet t x fun u hu _ => afterStore_unseen t _ u hu).2.2, afterStore_mem,
      Memory.readLE_writeLE n s.mem a _ hm, value] at holds
    exact holds
  · obtain ⟨unseen, draws, value⟩ := afterLoad_quiet t x quiet
    exact ⟨value ▸ varHolds_afterLoad t inRange x, unseen, draws⟩
  · exact ⟨(afterLoad_draws t x missed).2, fun b lo hi => byteSeen_afterLoad t x missed lo hi⟩

/-- Settles O38: the completion event completes the command, and with nothing scheduled it is the next one. -/
theorem openCommandsComplete : Obligations.OpenCommandsComplete := by
  refine ⟨fun s e g p rest hg hp => ?_, fun s hs hbusy => ?_⟩
  · have hg' : ({ s with sched := rest } : State).engine? e = some g := hg
    refine ⟨_, step_scheduled s (.finish e) rest, fun spared => ?_, fun f raised => ?_, threads_finishCommand hg' hp,
      finishCommand_faults e _, finishCommand_sched e _, fun a ha => byteSeen_finishCommand_issuer hg' hp ha,
      fun hm k a hin hk => byteSeen_finishCommand_other hg' hp hm hin hk a⟩
    · rw [status_finishCommand hg' hp, PendingCommand.after, spared]
    · rw [status_finishCommand hg' hp, PendingCommand.after, raised]
  · obtain ⟨e, g, hg, busy, next⟩ := nextEvent_unscheduled_busy hs hbusy
    refine ⟨e, g, hg, busy, (step_of_nextEvent next).trans ?_⟩
    have same : ({ s with sched := s.sched.tail } : State) = s := by rw [hs, List.tail_nil, ← hs]
    rw [same, perform]

end

/-! Proofs about the expansion of `.auto`: the dispatcher's tier, and the run of the expansion, one host operation at a
time, up to its CMD write. -/

namespace Sys2Proof.Machine

/-! ### The dispatcher's tier (R36, R115) -/

theorem tierPresent_autoTier (p : Platform) : tierPresent p (autoTier (capsValue p)) = true := by
  unfold tierPresent autoTier
  split
  · assumption
  · split
    · assumption
    · exact (capsValue_bits p).1

theorem capsBit_le_autoTier {p : Platform} {t : Tier} (h : tierPresent p t = true) :
    capsBit t ≤ capsBit (autoTier (capsValue p)) := by
  unfold tierPresent at h
  unfold autoTier
  cases t with
  | sc => exact Nat.zero_le _
  | v128 =>
    rw [capsBit] at h
    split
    · decide
    · exact le_rfl
  | v256 =>
    rw [capsBit] at h
    rw [if_pos h]

/-- The condition `c[k] = 1` on a variable that holds a word is the word's bit (R113). -/
theorem evalCond_bit {vars : List (Nat × Int)} {c : Nat} {w : Word} (h : readVar vars c = (w.toNat : Int)) (k : Nat) :
    evalCond vars ⟨.eq, .bit (.var c) k, .lit 1⟩ = w.getLsbD k := by
  have shifted : evalBin .shr (w.toNat : Int) (k : Int) = ((w.toNat >>> k : Nat) : Int) := by
    rw [evalBin]
    exact if_pos ⟨Int.natCast_nonneg _, Int.natCast_nonneg _⟩
  have lowBit : evalBin .mod ((w.toNat >>> k : Nat) : Int) 2 = ((w.toNat >>> k % 2 : Nat) : Int) := by
    rw [evalBin, if_neg (by decide)]
    exact if_pos ⟨Int.natCast_nonneg _, by decide⟩
  have value : evalExpr vars (.bit (.var c) k) = ((w.toNat >>> k % 2 : Nat) : Int) := by
    rw [evalExpr, evalExpr, h, shifted, lowBit]
  show decide (evalExpr vars (.bit (.var c) k) = 1) = w.toNat.testBit k
  rw [value, Nat.testBit_eq_decide_div_mod_eq, Nat.shiftRight_eq_div_pow, decide_eq_decide]
  omega

/-! ### One host operation after another (R113) -/

/-- One more operation of a thread that has performed `n`. -/
theorem runThreadTimes_succ {t : Nat} {u w : State} (hu : runThread true t u = .next w) : ∀ (n : Nat) (s : State),
    runThreadTimes t n s = .next u → runThreadTimes t (n + 1) s = .next w
  | 0, s, h => by
    injection h with h
    subst h
    simp only [runThreadTimes, hu]
  | n + 1, s, h => by
    rw [runThreadTimes] at h ⊢
    split at h
    · next s' hs' => exact runThreadTimes_succ hu n s' h
    · next hstop => exact absurd h (hstop u)

/-- Thread `t` has run from `s` to `u`: it stands, ready, at `pos` of `program` with variables `vars`; engine `e` is
`g`, and every other engine, memory, the record and the platform are as they were. -/
structure RunTo (t e : Nat) (program : List HostOp) (s u : State) (pos : Nat) (vars : List (Nat × Int)) (g : Engine) :
    Prop where
  reached : ∃ n, runThreadTimes t n s = .next u
  thread : u.threads[t]? = some ⟨program, pos, vars, .ready⟩
  engine : u.engine? e = some g
  others : ∀ k, k ≠ e → u.engine? k = s.engine? k
  mem : u.mem = s.mem
  faults : u.faults = s.faults
  platform : u.platform = s.platform

namespace RunTo

variable {t e : Nat} {program : List HostOp} {s u : State} {pos : Nat} {vars : List (Nat × Int)} {g : Engine}

theorem start (ht : s.threads[t]? = some ⟨program, pos, vars, .ready⟩) (hg : s.engine? e = some g) :
    RunTo t e program s s pos vars g :=
  ⟨⟨0, rfl⟩, ht, hg, fun _ _ => rfl, rfl, rfl, rfl⟩

/-- One operation that changes no engine, no memory, no fault and no platform. -/
theorem quietStep (h : RunTo t e program s u pos vars g) {op : HostOp} (hop : program[pos]? = some op) {w : State}
    (hw : hostOp true t vars op u = .next w) {pos' : Nat} {vars' : List (Nat × Int)}
    (ht : w.threads[t]? = some ⟨program, pos', vars', .ready⟩) (engines : w.engines = u.engines) (mem : w.mem = u.mem)
    (faults : w.faults = u.faults) (platform : w.platform = u.platform) :
    RunTo t e program s w pos' vars' g where
  reached := by
    obtain ⟨n, hn⟩ := h.reached
    exact ⟨n + 1, runThreadTimes_succ ((runThread_ready h.thread rfl hop true).trans hw) n s hn⟩
  thread := ht
  engine := by rw [State.engine?, engines]; exact h.engine
  others k hk := by rw [State.engine?, engines]; exact h.others k hk
  mem := mem.trans h.mem
  faults := faults.trans h.faults
  platform := platform.trans h.platform

/-- An assignment moves the thread on with its variable assigned. -/
theorem assign (h : RunTo t e program s u pos vars g) {op : HostOp} (hop : program[pos]? = some op) {x : Nat} {v : Int}
    (hw : hostOp true t vars op u = .next (u.assign t x v)) :
    RunTo t e program s (u.assign t x v) (pos + 1) (writeVar vars x v) g := by
  refine h.quietStep hop hw ?_ rfl rfl rfl rfl
  rw [assign_threads, List.getElem?_modify_eq, h.thread]
  rfl

theorem readCaps (h : RunTo t e program s u pos vars g) (hb : g.isBusy = false) {x : Nat}
    (hop : program[pos]? = some (rdReg x e .caps)) :
    ∃ w, RunTo t e program s w (pos + 1) (writeVar vars x (capsValue s.platform).toNat) g := by
  rw [← h.platform]
  exact ⟨_, h.assign hop (readRegister_caps h.engine hb t x)⟩

theorem letVar (h : RunTo t e program s u pos vars g) {x : Nat} {v : Expr}
    (hop : program[pos]? = some (.letVar x v)) :
    ∃ w, RunTo t e program s w (pos + 1) (writeVar vars x (evalExpr vars v)) g :=
  ⟨_, h.assign hop rfl⟩

theorem goto (h : RunTo t e program s u pos vars g) {c : Cond} {target : Nat}
    (hop : program[pos]? = some (.ifGoto c target)) (hc : evalCond vars c = true) :
    ∃ w, RunTo t e program s w target vars g := by
  refine ⟨_, h.quietStep hop (if_pos hc) ?_ rfl rfl rfl rfl⟩
  rw [modifyThread_threads, List.getElem?_modify_eq, h.thread]
  rfl

theorem noGoto (h : RunTo t e program s u pos vars g) {c : Cond} {target : Nat}
    (hop : program[pos]? = some (.ifGoto c target)) (hc : evalCond vars c = false) :
    ∃ w, RunTo t e program s w (pos + 1) vars g := by
  refine ⟨_, h.quietStep hop (if_neg (by simp [hc])) ?_ rfl rfl rfl rfl⟩
  rw [advance_threads, List.getElem?_modify_eq, h.thread]
  rfl

/-- A write of an argument register changes its engine alone (R45). -/
theorem writeArg (h : RunTo t e program s u pos vars g) (hb : g.isBusy = false) {r : ArgReg} {v : Expr}
    (hop : program[pos]? = some (wrReg e (.arg r) v)) :
    ∃ w x, RunTo t e program s w (pos + 1) vars (g.writeArg r x) := by
  obtain ⟨n, hn⟩ := h.reached
  have performed := (runThread_ready h.thread rfl hop true).trans (writeRegister_arg h.engine hb t true r _)
  refine ⟨_, _, ⟨n + 1, runThreadTimes_succ performed n s hn⟩, ?_, engine?_writeArg h.engine t r _, fun k hk => ?_,
    h.mem, h.faults, h.platform⟩
  · rw [advance_threads, modifyEngine_threads, List.getElem?_modify_eq, h.thread]
    rfl
  · exact (engine?_writeArg_other t hk r _).trans (h.others k hk)

/-- Register writes in a row leave all their registers written (R42, R114). -/
theorem writeArgs : ∀ (writes : List (ArgReg × Expr)) {u : State} {pos : Nat} {g : Engine},
    RunTo t e program s u pos vars g → g.isBusy = false →
    (∀ k, k < writes.length →
      program[pos + k]? = (writes.map fun c => wrReg e (.arg c.1) c.2)[k]?) →
    ∃ w g', RunTo t e program s w (pos + writes.length) vars g' ∧ g'.status = g.status ∧
      ∀ r, (g.written.get r = true ∨ r ∈ writes.map Prod.fst) → g'.written.get r = true
  | [], u, pos, g, h, _, _ => ⟨u, g, h, rfl, by simp⟩
  | (r, v) :: writes, u, pos, g, h, hb, hops => by
    obtain ⟨w, x, hw⟩ := h.writeArg hb (hops 0 (by simp))
    obtain ⟨w', g', hw', status, written⟩ := writeArgs writes hw hb fun k hk => by
      have := hops (k + 1) (by simpa using hk)
      rwa [show pos + 1 + k = pos + (k + 1) by omega]
    refine ⟨w', g', ?_, status, fun q hq => written q ?_⟩
    · rwa [List.length_cons, show pos + (writes.length + 1) = pos + 1 + writes.length by omega]
    · rw [writeArg_written, get_mark]
      simp only [List.map_cons, List.mem_cons] at hq
      obtain hq | rfl | hq := hq
      · simp [hq]
      · simp
      · exact .inr hq

end RunTo

/-! ### The expansion (R115) -/

/-- The registers that the expansion of R114 writes, with their operands. -/
def pstatWrites (P : Planes) (x : PstatOperands) : List (ArgReg × Expr) :=
  match P with
  | .one => [(.out, x.out), (.src1, x.src1), (.stride1, x.stride1), (.width, x.width), (.height, x.height)]
  | .two => [(.out, x.out), (.src1, x.src1), (.stride1, x.stride1), (.src2, x.src2), (.stride2, x.stride2),
      (.width, x.width), (.height, x.height)]

theorem pstatArgs_eq (e : Nat) (P : Planes) (x : PstatOperands) :
    pstatArgs e P x = (pstatWrites P x).map fun c => wrReg e (.arg c.1) c.2 := by
  cases P <;> rfl

theorem pstatWrites_regs (P : Planes) (x : PstatOperands) : (pstatWrites P x).map Prod.fst = argRegs P := by
  cases P <;> rfl

/-- After the nine operations that choose the tier come the register writes and the CMD write (log 24). -/
theorem pstatAuto_getElem?_add (e : Nat) (fmt : Format) (P : Planes) (x : PstatOperands) (at0 c w k : Nat) :
    (pstatAuto e fmt P x at0 c w)[k + 9]? =
      (((pstatWrites P x).map fun c => wrReg e (.arg c.1) c.2) ++ [cmdWord e (.var w)])[k]? := by
  rw [← pstatArgs_eq]
  rfl

theorem length_pstatAuto (e : Nat) (fmt : Format) (P : Planes) (x : PstatOperands) (at0 c w : Nat) :
    (pstatAuto e fmt P x at0 c w).length = (pstatWrites P x).length + 10 := by
  cases P <;> rfl

/-- Operation `k` of an expansion that stands inside a program. -/
theorem getElem?_of_middle {α : Type} {program pre l post : List α} (h : program = pre ++ l ++ post) {k : Nat}
    (hk : k < l.length) : program[pre.length + k]? = l[k]? := by
  rw [h, List.append_assoc, List.getElem?_append_right (Nat.le_add_right _ _), Nat.add_sub_cancel_left,
    List.getElem?_append_left hk]

/-- The choice of the tier comes to the register writes with the word of the dispatcher's tier (R115). -/
theorem RunTo.chooseTier {t e c w at0 : Nat} {fmt : Format} {P : Planes} {x : PstatOperands} {program : List HostOp}
    {s u : State} {vars : List (Nat × Int)} {g : Engine} (h : RunTo t e program s u at0 vars g) (hb : g.isBusy = false)
    (hops : ∀ k, k < 9 → program[at0 + k]? = (pstatAuto e fmt P x at0 c w)[k]?) :
    ∃ u' vars', RunTo t e program s u' (at0 + 9) vars' g ∧
      readVar vars' w = ((encode (instrOf fmt P (autoTier (capsValue s.platform)))).toNat : Int) := by
  have assigned (vars : List (Nat × Int)) (T : Tier) : readVar
      (writeVar vars w (evalExpr vars (.lit (encode (instrOf fmt P T)).toNat))) w =
        ((encode (instrOf fmt P T)).toNat : Int) := readVar_writeVar_self _ _ _
  have always (vars : List (Nat × Int)) : evalCond vars ⟨.eq, .lit 1, .lit 1⟩ = true := rfl
  obtain ⟨u1, h1⟩ := h.readCaps hb (hops 0 (by omega))
  have bit := evalCond_bit (readVar_writeVar_self vars c (capsValue s.platform).toNat)
  unfold autoTier
  cases bit2 : (capsValue s.platform).getLsbD 2 with
  | true =>
    obtain ⟨u2, h2⟩ := h1.goto (hops 1 (by omega)) ((bit 2).trans bit2)
    obtain ⟨u3, h3⟩ := h2.letVar (hops 4 (by omega))
    obtain ⟨u4, h4⟩ := h3.goto (hops 5 (by omega)) (always _)
    exact ⟨u4, _, h4, assigned _ .v256⟩
  | false =>
    obtain ⟨u2, h2⟩ := h1.noGoto (hops 1 (by omega)) ((bit 2).trans bit2)
    cases bit1 : (capsValue s.platform).getLsbD 1 with
    | true =>
      obtain ⟨u3, h3⟩ := h2.goto (hops 2 (by omega)) ((bit 1).trans bit1)
      obtain ⟨u4, h4⟩ := h3.letVar (hops 6 (by omega))
      obtain ⟨u5, h5⟩ := h4.goto (hops 7 (by omega)) (always _)
      exact ⟨u5, _, h5, assigned _ .v128⟩
    | false =>
      obtain ⟨u3, h3⟩ := h2.noGoto (hops 2 (by omega)) ((bit 1).trans bit1)
      obtain ⟨u4, h4⟩ := h3.goto (hops 3 (by omega)) (always _)
      obtain ⟨u5, h5⟩ := h4.letVar (hops 8 (by omega))
      exact ⟨u5, _, h5, assigned _ .sc⟩

end Sys2Proof.Machine

/-! ### The obligation settled: O60 -/

section

open Sys2Proof Sys2Proof.Machine

/-- Settles O60: the expansion reads CAPS, chooses the tier, writes the registers and stands at its CMD write. -/
theorem autoTierIsTheWidestPresent : Obligations.AutoTierIsTheWidestPresent := by
  refine ⟨fun p => ⟨tierPresent_autoTier p, fun t => capsBit_le_autoTier⟩, ?_⟩
  intro s t e c w g th fmt P x pre post hg hb ht hready _ hpos hprog
  obtain ⟨program, pos, vars, status⟩ := th
  obtain rfl : status = .ready := hready
  obtain rfl : pos = pre.length := hpos
  have length := length_pstatAuto e fmt P x pre.length c w
  have placed {k : Nat} (hk : k < (pstatWrites P x).length + 10) :
      program[pre.length + k]? = (pstatAuto e fmt P x pre.length c w)[k]? :=
    getElem?_of_middle hprog (hk.trans_eq length.symm)
  obtain ⟨u1, vars1, h1, word⟩ := (RunTo.start ht hg).chooseTier hb fun k hk => placed (by omega)
  obtain ⟨u2, g', h2, status, written⟩ := h1.writeArgs (pstatWrites P x) hb fun k hk => by
    rw [show pre.length + 9 + k = pre.length + (k + 9) by omega, placed (by omega), pstatAuto_getElem?_add,
      List.getElem?_append_left (by simpa using hk)]
  obtain ⟨n, hn⟩ := h2.reached
  refine ⟨n, u2, _, g', hn, h2.thread, rfl, ?_, ?_, word, h2.engine, status, fun r hr => written r (.inr ?_), h2.others,
    h2.mem, h2.faults⟩
  · show program[pre.length + 9 + (pstatWrites P x).length]? = _
    rw [show pre.length + 9 + (pstatWrites P x).length = pre.length + ((pstatWrites P x).length + 9) by omega,
      placed (by omega), pstatAuto_getElem?_add, List.getElem?_append_right (by simp), List.length_map, Nat.sub_self]
    rfl
  · show pre.length + 9 + (pstatWrites P x).length + 1 = _
    rw [length]
    omega
  · rwa [pstatWrites_regs]

end


/-! Proofs about memory itself and about a command as a whole: the little-endian operations, the canonical form across
every move, the reset state, and a command as its opening and its completion. -/

namespace Sys2Proof.Machine

/-! ### MemRead as a sum of bytes (R62) -/

theorem Memory.readLE_eq_sum (m : Memory) : ∀ (n a : Nat),
    m.readLE a n = ((List.range n).map fun k => (m.read (a + k)).toNat * 2 ^ (8 * k)).sum
  | 0, _ => rfl
  | n + 1, a => by
    have shifted : ((List.range n).map fun k => (m.read (a + (k + 1))).toNat * 2 ^ (8 * (k + 1))).sum =
        256 * ((List.range n).map fun k => (m.read (a + 1 + k)).toNat * 2 ^ (8 * k)).sum := by
      rw [← List.sum_map_mul_left]
      congr 1
      refine List.map_congr_left fun k _ => ?_
      rw [show a + (k + 1) = a + 1 + k by omega, show 8 * (k + 1) = 8 * k + 8 by omega, pow_add]
      ring
    rw [Memory.readLE, Memory.readLE_eq_sum m n (a + 1), List.range_succ_eq_map, List.map_cons, List.sum_cons,
      List.map_map, ← shifted]
    simp [Function.comp_def]

/-! ### The canonical form across every move (log 5) -/

theorem wf_finishCommand {s : State} (h : s.mem.wf) (e : Nat) : (finishCommand e s).mem.wf := by
  unfold finishCommand
  split
  · exact h
  · split
    · exact wf_writeResult _ _ _ _ _ h
    · exact h

/-- Only a completion and a host store write memory, and both keep its form. -/
theorem Move.keeps_wf {s t : State} (m : Move s t) (h : s.mem.wf) : t.mem.wf := by
  cases m with
  | stay | reset | badAccess | badCommand | begins | writeArg | host => exact h
  | finish e => exact wf_finishCommand h e
  | race => simpa [raceState] using h
  | runs t e w i => exact wf_finishCommand (s := (s.atPort t e w).openCommand i) h e
  | store t a n v => exact Memory.wf_writeLE n s.mem a v h
  | load t var a n looked hl =>
    subst hl
    simpa using h

/-! ### The reset state (R350) -/

/-- Every engine of the reset state is the reset engine. -/
theorem engine?_resetWith {p : Platform} {e : Nat} {g : Engine} (h : (State.resetWith p).engine? e = some g) :
    g = Engine.reset :=
  List.eq_of_mem_replicate (List.mem_of_getElem? h)

theorem inv_resetWith (p : Platform) : (State.resetWith p).Inv where
  canonical := ⟨List.Pairwise.nil, nofun⟩
  inSpace := nofun
  unseenInSpace := nofun
  engineCount := List.length_replicate
  openLegal := by
    intro e g q hg hq
    obtain rfl := engine?_resetWith hg
    cases hq
  openCompatible := by
    intro e e' g g' f f' _ hg _ hf
    obtain rfl := engine?_resetWith hg
    cases hf
  faultRecorded := by
    intro e g f hg hf
    obtain rfl := engine?_resetWith hg
    cases hf

/-! ### A command that is not ready never begins (R80, R135) -/

/-- Where no engine is ready for the command, what would follow its opening does not matter. -/
theorem startCommand_not_ready {i : Instr} {s : State} (h : ∀ g, ¬ ReadyToRun s i g)
    (started started' : State → Host.Outcome State Fault Refusal) :
    startCommand i s started = startCommand i s started' := by
  unfold startCommand onIdleEngine
  split
  · rfl
  · next g hg =>
    split
    · next hi =>
      dsimp only
      split
      · rfl
      · next legal =>
        split
        · next free =>
          exact absurd ⟨hg, hi, (startFault_eq_none_iff _).1 legal, (conflicts_eq_nil_iff_raceFree _ _ _).1 free⟩ (h g)
        · rfl
    · rfl
    · rfl

end Sys2Proof.Machine

/-! ### The obligations settled: O6, O34, O42, O44 -/

section

open Sys2Proof Sys2Proof.Machine

/-- Settles O44: a step is one move, and every move keeps the canonical form. -/
theorem stepKeepsMemoryCanonical : Obligations.StepKeepsMemoryCanonical :=
  fun _ _ h hstep => (step_move hstep).keeps_wf h

/-- Settles O42: the reset state has no memory, no open command and no fault. -/
theorem resetSatisfiesTheInvariant : Obligations.ResetSatisfiesTheInvariant := inv_resetWith

/-- Settles O34, by the laws of multi-byte writes and the sum form of a multi-byte read. -/
theorem memoryIsLittleEndian : Obligations.MemoryIsLittleEndian :=
  fun m a n v h => ⟨m.readLE_eq_sum n a, fun k hk => Memory.read_writeLE_inside n m a v k h hk,
    fun b hb => Memory.read_writeLE_outside n m a v b h hb, Memory.wf_writeLE n m a v h⟩

/-- Settles O6: a ready command opens, and one that is not ready never reaches what follows its opening. -/
theorem commandIsItsOpeningThenItsCompletion : Obligations.CommandIsItsOpeningThenItsCompletion := by
  refine fun i s => ⟨fun g ready => ⟨startCommand_ready ready _, exec_ready ready⟩, fun h => ?_⟩
  rw [exec_eq_runCommand]
  exact startCommand_not_ready h _ _

end


/-! Proofs about START's later faults: the check that fails under each broken condition, the earlier ones passing, and
the lowest byte that a search over footprints finds. -/

namespace Sys2Proof.Machine

/-! ### The check that decides, the earlier ones passing (R135, R320) -/

section Decides

variable {p : Platform} {g : Engine} {i : Instr} (ht : LegalTier p i) (hw : LegalWritten g i)
  (hd : LegalDimensions g i) (hs : LegalStrides g i) (w : Word)
include ht hw hd hs

theorem startFault_from_aligned :
    startFault p g i w = (checkAligned i (commandArgs i.planes g.args)).or
      ((checkRange i (commandArgs i.planes g.args)).or
        ((checkOverlap (footprint i g.args)).or (checkAccess p (footprint i g.args)))) := by
  simp only [startFault, (checkTier_eq_none w).2 ht, checkWritten_eq_none.2 hw, checkGeometry_eq_none.2 hd,
    checkStride_eq_none.2 hs, Option.none_or]

theorem startFault_from_range (ha : LegalAlignment g i) :
    startFault p g i w = (checkRange i (commandArgs i.planes g.args)).or
        ((checkOverlap (footprint i g.args)).or (checkAccess p (footprint i g.args))) := by
  rw [startFault_from_aligned ht hw hd hs, checkAligned_eq_none.2 ha, Option.none_or]

theorem startFault_from_overlap (ha : LegalAlignment g i) (hr : LegalRange g i) :
    startFault p g i w = (checkOverlap (footprint i g.args)).or (checkAccess p (footprint i g.args)) := by
  rw [startFault_from_range ht hw hd hs w ha, (checkRange_eq_none hd hs).2 hr, Option.none_or]

theorem startFault_from_access (ha : LegalAlignment g i) (hr : LegalRange g i) (hap : LegalApart g i) :
    startFault p g i w = checkAccess p (footprint i g.args) := by
  rw [startFault_from_overlap ht hw hd hs w ha hr, checkOverlap_eq_none.2 hap, Option.none_or]

end Decides

/-! ### MISALIGNED (R64, R320) -/

/-- The alignment check names a register of its own failing condition, of the earliest plane with one. -/
theorem checkAligned_names {i : Instr} {x : Args} (h : checkAligned i x ≠ none) :
    ∃ r, checkAligned i x = some (.misaligned r) ∧ MisalignedBy i x r ∧
      ∀ q, alignmentRank q < alignmentRank r → ¬ MisalignedBy i x q := by
  revert h
  unfold checkAligned
  dsimp only
  split_ifs with src1 stride1 src2 stride2 out <;> intro h
  · exact ⟨.src1, rfl, src1, fun q hq => by cases q <;> simp [alignmentRank] at hq⟩
  · exact ⟨.stride1, rfl, stride1, fun q hq => by cases q <;> simp [alignmentRank] at hq⟩
  · exact ⟨.src2, rfl, src2, fun q hq => by cases q <;> simp_all [alignmentRank, MisalignedBy]⟩
  · exact ⟨.stride2, rfl, stride2, fun q hq => by cases q <;> simp_all [alignmentRank, MisalignedBy]⟩
  · exact ⟨.out, rfl, out, fun q hq => by cases q <;> simp_all [alignmentRank, MisalignedBy]⟩
  · exact absurd rfl h

/-- Only the alignment check raises MISALIGNED. -/
theorem startFault_ne_misaligned {p : Platform} {g : Engine} {i : Instr} {w : Word} (ha : LegalAlignment g i)
    (r : ArgReg) : startFault p g i w ≠ some (.misaligned r) := by
  intro h
  simp only [startFault, checkAligned_eq_none.2 ha, Option.or_eq_some_iff, reduceCtorEq, false_or] at h
  obtain h | ⟨-, h | ⟨-, h | ⟨-, h | ⟨-, -, h | ⟨-, h | ⟨-, h⟩⟩⟩⟩⟩⟩ := h
  · simp [checkTier] at h
  · simp [checkWritten] at h
  · simp [checkGeometry] at h
  · simp only [checkStride] at h
    split_ifs at h <;> simp at h
  · simp only [checkRange] at h
    split_ifs at h <;> simp at h
  · simp [checkOverlap] at h
  · simp [checkAccess] at h

/-- A fault that a command takes at an idle engine is one that START's checks found, or a race (R84, R135). -/
theorem startFault_of_takesFault {i : Instr} {s : State} {g : Engine} {f : CommandFault} (h : IdleAtPort s g)
    (hf : TakesFault i s f) : startFault s.platform g i s.port.word = some f ∨ ∃ o a, f = .dataRace o a := by
  obtain ⟨hg, hi⟩ := h
  obtain ⟨u, hu, -, faults, -⟩ := hf
  rw [exec_eq_runCommand] at hu
  obtain ⟨g', hg', hcases⟩ := startCommand_next hu
  obtain rfl : g = g' := Option.some.inj (hg.symm.trans hg')
  obtain ⟨busy, -⟩ | ⟨-, c, hc, rfl⟩ | ⟨-, -, e, p, a, rest, -, rfl⟩ | ⟨-, -, -, hs⟩ := hcases
  · simp [Engine.isBusy, hi] at busy
  · simp only [raiseFault_faults, List.append_cancel_left_eq, List.cons.injEq, FaultRecord.mk.injEq] at faults
    obtain ⟨⟨-, -, -, rfl⟩, -⟩ := faults
    exact .inl hc
  · rw [raceState, raiseFault_faults, raiseRaces_faults] at faults
    have last := congrArg List.getLast? faults
    simp only [List.getLast?_concat, Option.some.injEq, FaultRecord.mk.injEq] at last
    obtain ⟨-, -, -, rfl⟩ := last
    exact .inr ⟨_, _, rfl⟩
  · injection hs with hs
    subst hs
    simp at faults

/-! ### ADDRESS_OVERFLOW (R65) -/

/-- A plane that overflows has its last byte outside the address space. -/
theorem leavesSpace_of_overflows {q : PlaneRows} (hr : 1 ≤ q.rows) (hb : 1 ≤ q.bytes) (h : q.overflows = true) :
    PlaneLeavesSpace q.base q.stride q.rows q.bytes := by
  refine ⟨q.rows - 1, q.bytes - 1, by omega, by omega, ?_⟩
  rw [PlaneRows.overflows, decide_eq_true_eq] at h
  omega

/-- The range check names a register of a plane or record of its own that leaves the address space. -/
theorem checkRange_names {i : Instr} {x : Args} (hw : 1 ≤ x.width) (hh : 1 ≤ x.height) (h : checkRange i x ≠ none) :
    ∃ r, checkRange i x = some (.addressOverflow r) ∧ OverflowedBy i x r := by
  have bytes := rowBytes_pos i.tier i.format hw
  revert h
  unfold checkRange
  dsimp only
  split_ifs with plane1 plane2 record <;> intro h
  · exact ⟨.src1, rfl, leavesSpace_of_overflows hh bytes plane1⟩
  · exact ⟨.src2, rfl, plane2.1, leavesSpace_of_overflows hh bytes plane2.2⟩
  · exact ⟨.out, rfl, record⟩
  · exact absurd rfl h

/-! ### The lowest byte of a property (R313) -/

/-- What a search for the lowest address of a property should find. -/
def IsLowest (P : Nat → Prop) : Option Nat → Prop
  | none => ∀ a, ¬ P a
  | some a => P a ∧ ∀ b, P b → a ≤ b

theorem IsLowest.eq_some {P : Nat → Prop} {o : Option Nat} {a : Nat} (h : IsLowest P o) (ha : P a)
    (least : ∀ b, P b → a ≤ b) : o = some a := by
  cases o with
  | none => exact absurd ha (h a)
  | some c => exact congrArg some (Nat.le_antisymm (h.2 a ha) (least c h.1))

theorem IsLowest.congr {P Q : Nat → Prop} {o : Option Nat} (h : IsLowest P o) (hpq : ∀ a, P a ↔ Q a) :
    IsLowest Q o := by
  rwa [← funext fun a => propext (hpq a)]

/-- The lower of two lowest addresses is the lowest of both properties. -/
theorem isLowest_lowest {P Q : Nat → Prop} : ∀ {o o' : Option Nat}, IsLowest P o → IsLowest Q o' →
    IsLowest (fun a => P a ∨ Q a) (lowest o o')
  | none, none, hp, hq => fun a => not_or.2 ⟨hp a, hq a⟩
  | none, some c, hp, hq => ⟨.inr hq.1, fun b hb => hb.elim (fun h => absurd h (hp b)) (hq.2 b)⟩
  | some a, none, hp, hq => ⟨.inl hp.1, fun b hb => hb.elim (hp.2 b) fun h => absurd h (hq b)⟩
  | some a, some c, hp, hq => by
    refine ⟨?_, fun b hb => ?_⟩
    · obtain h | h := min_choice a c <;> simp only [h]
      · exact .inl hp.1
      · exact .inr hq.1
    · exact hb.elim (fun h => (min_le_left a c).trans (hp.2 b h)) fun h => (min_le_right a c).trans (hq.2 b h)

theorem isLowest_firstAddr (p : Nat → Bool) (a n : Nat) :
    IsLowest (fun b => (a ≤ b ∧ b < a + n) ∧ p b = true) (firstAddr p a n) := by
  cases h : firstAddr p a n with
  | none =>
    rintro b ⟨⟨lo, hi⟩, hb⟩
    simp [(firstAddr_eq_none p n a).1 h b lo hi] at hb
  | some c =>
    obtain ⟨lo, hi, hc, below⟩ := (firstAddr_eq_some p n a c).1 h
    refine ⟨⟨⟨lo, hi⟩, hc⟩, fun b ⟨⟨lo', _⟩, hb⟩ => ?_⟩
    by_contra hlt
    simp [below b lo' (by omega)] at hb

/-- The rows of a plane whose stride is not negative rise, so the first of them with a byte of the property holds the
lowest such byte, however far the rows overlap (R66). -/
theorem isLowest_firstFrom {q : PlaneRows} (hs : 0 ≤ q.stride) (p : Nat → Bool) : ∀ (n r : Nat),
    IsLowest (fun b => (∃ k, r ≤ k ∧ k < r + n ∧ q.inRow k b = true) ∧ p b = true) (q.firstFrom p r n)
  | 0, r => by
    rintro b ⟨⟨k, lo, hi, -⟩, -⟩
    omega
  | n + 1, r => by
    have rowAddr_cast (k : Nat) : (rowAddr q.base q.stride k : Int) = rowStart q.base q.stride k :=
      Int.toNat_of_nonneg (rowStart_nonneg hs)
    have inRow (k b : Nat) : q.inRow k b = true ↔
        rowAddr q.base q.stride k ≤ b ∧ b < rowAddr q.base q.stride k + q.bytes := by
      simp only [PlaneRows.inRow, Bool.and_eq_true, decide_eq_true_eq, ← rowAddr_cast]
      omega
    have here := isLowest_firstAddr p (rowAddr q.base q.stride r) q.bytes
    rw [PlaneRows.firstFrom]
    cases h : firstAddr p (rowAddr q.base q.stride r) q.bytes with
    | none =>
      rw [h] at here
      refine (isLowest_firstFrom hs p n (r + 1)).congr fun b => and_congr_left fun hb => ?_
      refine exists_congr fun k => ⟨fun ⟨lo, hi, hk⟩ => ⟨by omega, by omega, hk⟩,
        fun ⟨lo, hi, hk⟩ => ⟨?_, by omega, hk⟩⟩
      refine Nat.lt_of_le_of_ne lo ?_
      rintro rfl
      exact here b ⟨(inRow _ b).1 hk, hb⟩
    | some a =>
      rw [h] at here
      obtain ⟨⟨row, ha⟩, least⟩ := here
      refine ⟨⟨⟨r, le_rfl, by omega, (inRow r a).2 row⟩, ha⟩, fun b ⟨⟨k, lo, _, hk⟩, hb⟩ => ?_⟩
      have rises : rowAddr q.base q.stride r ≤ rowAddr q.base q.stride k := by
        have := rowStart_mono (base := q.base) hs lo
        rw [← rowAddr_cast, ← rowAddr_cast] at this
        omega
      obtain ⟨above, -⟩ := (inRow k b).1 hk
      by_contra hlt
      exact hlt (least b ⟨⟨by omega, by omega⟩, hb⟩)

theorem isLowest_first {q : PlaneRows} (hs : 0 ≤ q.stride) (p : Nat → Bool) :
    IsLowest (fun b => q.covers b = true ∧ p b = true) (q.first p) := by
  refine (isLowest_firstFrom hs p q.rows 0).congr fun b => and_congr_left fun _ => ?_
  simp [PlaneRows.covers]

/-- The lowest address over a list of searches. -/
theorem isLowest_foldl {α : Type} {f : α → Option Nat} {P : α → Nat → Prop} : ∀ (l : List α) {Q : Nat → Prop}
    {acc : Option Nat}, IsLowest Q acc → (∀ q ∈ l, IsLowest (P q) (f q)) →
    IsLowest (fun a => Q a ∨ ∃ q ∈ l, P q a) (l.foldl (fun acc q => lowest acc (f q)) acc)
  | [], _, _, hacc, _ => hacc.congr (by simp)
  | q :: l, Q, acc, hacc, hl => by
    have first := isLowest_lowest hacc (hl q (by simp))
    refine (isLowest_foldl l first fun q' hq' => hl q' (by simp [hq'])).congr fun a => ?_
    simp [or_assoc]

/-- The access check finds the lowest footprint byte that is not admitted (R68, R69, R313). -/
theorem checkAccess_eq_some {p : Platform} {f : Footprint} {a : Nat} (hs : ∀ q ∈ f.planes, 0 ≤ q.stride)
    (ha : NotAdmitted p f a) (least : ∀ b, NotAdmitted p f b → a ≤ b) : checkAccess p f = some (.accessFault a) := by
  have reads := isLowest_foldl f.planes (Q := fun _ => False) (acc := none) (fun _ => id)
    fun q hq => isLowest_first (hs q hq) fun a => !readable p a
  have both := isLowest_lowest reads (isLowest_firstAddr (fun a => !writable p a) f.out f.outBytes)
  have found := (both.congr (Q := NotAdmitted p f) fun b => ?_).eq_some ha least
  · simp only [checkAccess, found, Option.map_some]
  · simp only [NotAdmitted, writes_iff, Footprint.reads, List.any_eq_true, false_or, Bool.not_eq_true',
      ← and_assoc, exists_and_right]

/-- The overlap check finds the lowest byte of both footprints (R72, R313). -/
theorem checkOverlap_eq_some {f : Footprint} {a : Nat} (hr : f.reads a = true) (hw : f.writes a = true)
    (least : ∀ b, f.reads b = true → f.writes b = true → a ≤ b) : checkOverlap f = some (.outputOverlap a) := by
  have found : firstAddr f.reads f.out f.outBytes = some a :=
    (isLowest_firstAddr f.reads f.out f.outBytes).eq_some ⟨(writes_iff f a).1 hw, hr⟩
      fun b ⟨hb, hbr⟩ => least b hbr ((writes_iff f b).2 hb)
  rw [checkOverlap, found, Option.map_some]

end Sys2Proof.Machine

/-! ### The obligations settled: O21, O22, O23, O24 -/

section

open Sys2Proof Sys2Proof.Machine

/-- Settles O21: the alignment check decides, and nothing else raises MISALIGNED. -/
theorem misalignedOperandFaults : Obligations.MisalignedOperandFaults := by
  refine fun i s g idle ht hw hd hs => ⟨fun ha => ?_, fun ha r hf => ?_⟩
  · obtain ⟨r, hr, own, earlier⟩ := checkAligned_names (mt checkAligned_eq_none.1 ha)
    refine ⟨r, own, earlier, takesFault_of_startFault idle ?_⟩
    rw [startFault_from_aligned ht hw hd hs, hr, Option.some_or]
  · obtain h | ⟨o, a, h⟩ := startFault_of_takesFault idle hf
    · exact startFault_ne_misaligned ha r h
    · cases h

/-- Settles O22: the range check decides. -/
theorem addressOverflowFaults : Obligations.AddressOverflowFaults := by
  intro i s g idle ht hw hd hs ha hr
  obtain ⟨r, hf, own⟩ := checkRange_names hd.1 hd.2 (mt (checkRange_eq_none hd hs).1 hr)
  refine ⟨r, own, takesFault_of_startFault idle ?_⟩
  rw [startFault_from_range ht hw hd hs _ ha, hf, Option.some_or]

/-- Settles O23: the overlap check decides, with the lowest shared byte. -/
theorem outputOverlapFaults : Obligations.OutputOverlapFaults := by
  intro i s g a idle ht hw hd hs ha hr reads writes least
  refine takesFault_of_startFault idle ?_
  rw [startFault_from_overlap ht hw hd hs _ ha hr, checkOverlap_eq_some reads writes least, Option.some_or]

/-- Settles O24: the access check decides, with the lowest byte not admitted. -/
theorem unadmittedByteFaults : Obligations.UnadmittedByteFaults := by
  intro i s g a idle ht hw hd hs ha hr hap bad least
  refine takesFault_of_startFault idle ?_
  rw [startFault_from_access ht hw hd hs _ ha hr hap]
  exact checkAccess_eq_some (fun q hq => (planeRows_bounds hd hs q hq).1) bad least

end


/-! Proofs about races: what a host access and a starting command do to the open commands, and that a store which does
not race commutes with a completion. -/

namespace Sys2Proof.Machine

/-! ### Host accesses and an open command (R84) -/

section HostRace

variable {s : State} {e a n : Nat} {g : Engine} {p : PendingCommand} (hg : s.engine? e = some g)
  (hp : g.status = .busy p) (write : Bool) (t : Nat)
include hg hp

/-- The races that name a busy engine are those of its own open command. -/
theorem mem_hostRaces_busy {q : PendingCommand} {b : Nat} (h : (e, q, b) ∈ hostRaces write a n 0 s.engines) :
    q = p ∧ firstAddr (fun b => (footprint p.instr g.args).writes b ||
      (write && (footprint p.instr g.args).reads b)) a n = some b := by
  obtain ⟨k, g', hk, he, hq, first⟩ := (mem_hostRaces write a n s.engines 0 _).1 h
  obtain rfl : e = k := by simpa using he
  obtain rfl : g = g' := Option.some.inj (hg.symm.trans hk)
  obtain rfl : p = q := EngineStatus.busy.inj (hp.symm.trans hq)
  exact ⟨rfl, first⟩

/-- An access to a conflicting byte faults the open command, with the fault on record (R84, R312). -/
theorem raiseRaces_hostRaces_conflict
    (h : ∃ b, a ≤ b ∧ b < a + n ∧ ((footprint p.instr g.args).writes b ||
      (write && (footprint p.instr g.args).reads b)) = true) :
    ∃ b, a ≤ b ∧ b < a + n ∧ ((footprint p.instr g.args).writes b ||
        (write && (footprint p.instr g.args).reads b)) = true ∧
      ((s.raiseRaces (.thread t) (hostRaces write a n 0 s.engines)).engine? e).map Engine.status =
        some (.faulted (.dataRace (.thread t) b)) ∧
      (⟨e, p.thread, .command p.word, .dataRace (.thread t) b⟩ : FaultRecord) ∈
        (s.raiseRaces (.thread t) (hostRaces write a n 0 s.engines)).faults := by
  obtain ⟨b₀, lo₀, hi₀, hb₀⟩ := h
  cases first : firstAddr (fun b => (footprint p.instr g.args).writes b ||
      (write && (footprint p.instr g.args).reads b)) a n with
  | none => exact absurd hb₀ (by simp [(firstAddr_eq_none _ n a).1 first b₀ lo₀ hi₀])
  | some b =>
    obtain ⟨lo, hi, hb, -⟩ := (firstAddr_eq_some _ n a b).1 first
    have named : (e, p, b) ∈ hostRaces write a n 0 s.engines :=
      (mem_hostRaces write a n s.engines 0 _).2 ⟨e, g, hg, by simp, hp, first⟩
    obtain ⟨engine, record⟩ :=
      engine?_raiseRaces_named (.thread t) _ s (rising_hostRaces write a n s.engines 0) named hg hp
    exact ⟨b, lo, hi, hb, by rw [engine, Option.map_some], record⟩

/-- An access that conflicts on no byte leaves the engine as it is (R84). -/
theorem raiseRaces_hostRaces_quiet
    (h : ∀ b, a ≤ b → b < a + n → ((footprint p.instr g.args).writes b ||
      (write && (footprint p.instr g.args).reads b)) = false) :
    (s.raiseRaces (.thread t) (hostRaces write a n 0 s.engines)).engine? e = some g := by
  refine (engine?_raiseRaces_other (.thread t) e _ s ?_).trans hg
  rintro ⟨k, q, b⟩ hc rfl
  obtain ⟨rfl, first⟩ := mem_hostRaces_busy hg hp write hc
  rw [(firstAddr_eq_none _ n a).2 h] at first
  cases first

end HostRace

/-- An engine that is not busy is in no race, so a host access leaves it as it is. -/
theorem raiseRaces_hostRaces_not_busy {s : State} {e : Nat} {g : Engine} (hg : s.engine? e = some g)
    (hb : g.isBusy = false) (write : Bool) (t a n : Nat) :
    (s.raiseRaces (.thread t) (hostRaces write a n 0 s.engines)).engine? e = some g := by
  refine (engine?_raiseRaces_other (.thread t) e _ s ?_).trans hg
  rintro ⟨k, q, b⟩ hc rfl
  obtain ⟨k', g', hk, he, hq, -⟩ := (mem_hostRaces write a n s.engines 0 _).1 hc
  obtain rfl : k = k' := by simpa using he
  obtain rfl : g = g' := Option.some.inj (hg.symm.trans hk)
  rw [(isBusy_eq_true_iff g).2 ⟨q, hq⟩] at hb
  cases hb

section HostAccess

variable {s : State} {a n : Nat} (t e : Nat)

@[simp] theorem afterLoad_engine? (x : Nat) :
    (s.afterLoad t x a n).engine? e = (s.raiseRaces (.thread t) (hostRaces false a n 0 s.engines)).engine? e := by
  simp [State.afterLoad, State.lookedAt, State.engine?]
@[simp] theorem afterLoad_faults (x : Nat) :
    (s.afterLoad t x a n).faults = (s.raiseRaces (.thread t) (hostRaces false a n 0 s.engines)).faults := by
  simp [State.afterLoad, State.lookedAt]

end HostAccess

/-! ### Two conflicting commands (R84) -/

/-- Footprints that are not compatible have a lowest conflicting byte. -/
theorem exists_conflict {f h : Footprint} (hc : ¬ f.compatible h) : ∃ a, f.conflict h = some a :=
  Option.ne_none_iff_exists'.1 (mt (conflict_eq_none f h).1 hc)

/-- A legal command at an idle engine that conflicts with open commands races with all of them (R84). -/
theorem exec_races {i : Instr} {s : State} {g : Engine} (idle : IdleAtPort s g) (legal : LegalStart s.platform g i)
    {c : Nat × PendingCommand × Nat} {rest : List (Nat × PendingCommand × Nat)}
    (hc : conflictsFrom s.port.engine (footprint i g.args) 0 s.engines = c :: rest) :
    exec i s = .next (raceState s (c :: rest) c.1 c.2.2) := by
  obtain ⟨hg, hi⟩ := idle
  rw [exec_eq_runCommand, runCommand, startCommand, onIdleEngine_idle hg hi, (startFault_eq_none_iff _).2 legal, hc]
  rfl

section RaceState

variable {s : State} {f : Footprint} {l : List (Nat × PendingCommand × Nat)}
  (hl : conflictsFrom s.port.engine f 0 s.engines = l) (k a : Nat)
include hl

/-- The engine of the command that starts a race is faulted with it. -/
theorem raceState_own {g : Engine} (hg : s.engine? s.port.engine = some g) (hi : g.status = .idle) :
    ((raceState s l k a).engine? s.port.engine).map Engine.status = some (.faulted (.dataRace (.engine k) a)) := by
  have own : (s.raiseRaces (.engine s.port.engine) l).engine? s.port.engine = some g := by
    refine (engine?_raiseRaces_other _ _ l s fun c hc => ?_).trans hg
    rw [← hl] at hc
    obtain ⟨_, _, -, -, ne, -⟩ := (mem_conflictsFrom _ _ _ _ c).1 hc
    exact ne
  rw [raceState, engine?_raiseFault, if_pos rfl, own]
  simp [hi, EngineStatus.afterFault]

/-- The engine of each open command that it conflicts with is faulted too, and that fault is on record. -/
theorem raceState_other {e b : Nat} {p : PendingCommand} {g : Engine} (hg : s.engine? e = some g)
    (hp : g.status = .busy p) (hne : e ≠ s.port.engine) (hm : (e, p, b) ∈ l) :
    ((raceState s l k a).engine? e).map Engine.status = some (.faulted (.dataRace (.engine s.port.engine) b)) ∧
      (⟨e, p.thread, .command p.word, .dataRace (.engine s.port.engine) b⟩ : FaultRecord) ∈
        (raceState s l k a).faults := by
  have rising : Rising l := hl ▸ rising_conflictsFrom _ _ _ _
  obtain ⟨engine, record⟩ := engine?_raiseRaces_named (.engine s.port.engine) l s rising hm hg hp
  rw [raceState, engine?_raiseFault, if_neg (Ne.symm hne), engine, raiseFault_faults]
  exact ⟨rfl, List.mem_append_left _ record⟩

end RaceState

/-! ### What a completion reads and writes (R66, R69, R85) -/

/-- Reading a byte after a multi-byte write, inside and outside (R62). -/
theorem Memory.read_writeLE {m : Memory} (h : m.wf) (a n v b : Nat) :
    (m.writeLE a n v).read b =
      if a ≤ b ∧ b < a + n then BitVec.ofNat 8 (v / 2 ^ (8 * (b - a))) else m.read b := by
  split
  · next hb =>
    obtain ⟨k, rfl⟩ := Nat.exists_eq_add_of_le hb.1
    rw [Memory.read_writeLE_inside n m a v k h (by omega), Nat.add_sub_cancel_left]
  · next hb => exact Memory.read_writeLE_outside n m a v b h (by omega)

/-- Two memories that agree at a byte, unless it is one of `n + k` written next, agree there once `n` of them are
written alike, unless it is one of the `k` left. -/
theorem Memory.writeLE_agree {m m' : Memory} (h : m.wf) (h' : m'.wf) {a b : Nat} (n k v : Nat)
    (hb : m.read b = m'.read b ∨ a ≤ b ∧ b < a + (n + k)) :
    (m.writeLE a n v).read b = (m'.writeLE a n v).read b ∨ a + n ≤ b ∧ b < a + n + k := by
  rw [Memory.read_writeLE h, Memory.read_writeLE h']
  split
  · exact .inl rfl
  · exact hb.imp id fun hb => by omega

/-- The record's bytes do not depend on what memory held, and the others stay (R69, R139). -/
theorem read_writeResult_agree (i : Instr) (inp : CommandInputs) {m m' : Memory} (out : Nat) (res : KernelResult)
    {b : Nat} (h : m.wf) (h' : m'.wf)
    (hb : m.read b = m'.read b ∨ out ≤ b ∧ b < out + recordBytes i.planes) :
    (writeResult i inp m out res).read b = (writeResult i inp m' out res).read b := by
  have w1 := Memory.wf_writeLE 4 m out res.mn.toNat h
  have w1' := Memory.wf_writeLE 4 m' out res.mn.toNat h'
  have w2 := Memory.wf_writeLE 4 _ (out + 4) res.mx.toNat w1
  have w2' := Memory.wf_writeLE 4 _ (out + 4) res.mx.toNat w1'
  have w3 := Memory.wf_writeLE 8 _ (out + 8) (sumBits i.format inp res.sm).toNat w2
  have w3' := Memory.wf_writeLE 8 _ (out + 8) (sumBits i.format inp res.sm).toNat w2'
  unfold writeResult
  cases hP : i.planes <;> simp only [hP, recordBytes] at hb
  · have a1 := Memory.writeLE_agree h h' 4 12 res.mn.toNat hb
    have a2 := Memory.writeLE_agree w1 w1' 4 8 res.mx.toNat a1
    have a3 := Memory.writeLE_agree w2 w2' 8 0 (sumBits i.format inp res.sm).toNat a2
    exact a3.resolve_right (by omega)
  · have a1 := Memory.writeLE_agree h h' 4 20 res.mn.toNat hb
    have a2 := Memory.writeLE_agree w1 w1' 4 16 res.mx.toNat a1
    have a3 := Memory.writeLE_agree w2 w2' 8 8 (sumBits i.format inp res.sm).toNat a2
    have a4 := Memory.writeLE_agree w3 w3' 8 0 (sumBits i.format inp res.df).toNat a3
    exact a4.resolve_right (by omega)

/-! ### A walk reads the read footprint alone (R66) -/

/-- Two memories agree on the first `bytes` bytes of every row of a plane. -/
def RowsAgree (m m' : Memory) (base : Nat) (stride : Int) (rows bytes : Nat) : Prop :=
  ∀ r, r < rows → ∀ j, j < bytes → m.read (rowAddr base stride r + j) = m'.read (rowAddr base stride r + j)

section RowsAgree

variable {m m' : Memory} {base : Nat} {stride : Int} {rows bytes : Nat} (h : RowsAgree m m' base stride rows bytes)
include h

theorem RowsAgree.readLE {r : Nat} (hr : r < rows) {j n : Nat} (hj : j + n ≤ bytes) :
    m.readLE (rowAddr base stride r + j) n = m'.readLE (rowAddr base stride r + j) n :=
  Memory.readLE_congr n m m' _ fun k hk => by
    rw [Nat.add_assoc]
    exact h r hr (j + k) (by omega)

theorem RowsAgree.sample {fmt : Format} {width : Nat} (hb : width * sampleSize fmt ≤ bytes) {r c : Nat} (hr : r < rows)
    (hc : c < width) : sample fmt m (rowAddr base stride r + c * sampleSize fmt) =
      sample fmt m' (rowAddr base stride r + c * sampleSize fmt) := by
  have fits : c * sampleSize fmt + sampleSize fmt ≤ bytes :=
    (Nat.succ_mul c _).ge.trans ((Nat.mul_le_mul_right _ hc).trans hb)
  rw [Machine.sample, Machine.sample, h.readLE hr fits]

theorem RowsAgree.sampleSeq {fmt : Format} {width : Nat} (hb : width * sampleSize fmt ≤ bytes) :
    sampleSeq fmt m base stride width rows = sampleSeq fmt m' base stride width rows :=
  List.flatMap_congr fun _ hr => List.map_congr_left fun _ hc =>
    h.sample hb (List.mem_range.1 hr) (List.mem_range.1 hc)

/-- A chunk that lies inside the rows (R172). -/
theorem RowsAgree.loadChunk {W w n : Nat} {r j : Nat} (hr : r < rows) (hj : j + W / 8 ≤ bytes) :
    loadChunk W w n m (rowAddr base stride r + j) = loadChunk W w n m' (rowAddr base stride r + j) := by
  rw [Machine.loadChunk, Machine.loadChunk, h.readLE hr hj]

end RowsAgree

/-- Loops whose steps agree in range agree (R137, R180). -/
theorem vecLoop_congr {α : Type} {step step' : Nat → α → Nat → α} {rows chunks : Nat} (seed : α)
    (h : ∀ r, r < rows → ∀ k, k < chunks → ∀ acc, step r acc k = step' r acc k) :
    vecLoop step rows chunks seed = vecLoop step' rows chunks seed :=
  List.foldl_ext _ _ _ fun _ r hr => List.foldl_ext _ _ _ fun acc k hk =>
    h r (List.mem_range.1 hr) k (List.mem_range.1 hk) acc

/-- The vector tiers' register widths (R9). -/
theorem tierWidth_eq_some {t : Tier} {W : Nat} (h : tierWidth t = some W) : W = 128 ∨ W = 256 := by
  cases t <;> simp [tierWidth] at h <;> omega

/-- A tier that is not SC has a register width (R9). -/
theorem exists_tierWidth {t : Tier} (h : t ≠ .sc) : ∃ W, tierWidth t = some W := by
  cases t with
  | sc => exact absurd rfl h
  | v128 | v256 => exact ⟨_, rfl⟩

/-- A chunk holds as many samples as fill a register (R10, R172). -/
theorem laneCount_mul_sampleSize (fmt : Format) {W : Nat} (h : W = 128 ∨ W = 256) :
    laneCount fmt W * sampleSize fmt = W / 8 := by
  obtain rfl | rfl := h <;> cases fmt <;> rfl

theorem laneCount_pos (fmt : Format) {W : Nat} (h : W = 128 ∨ W = 256) : 0 < laneCount fmt W := by
  obtain rfl | rfl := h <;> cases fmt <;> decide

/-- A row's samples fit in its chunks (R171). -/
theorem le_ceilDiv_mul (a : Nat) {b : Nat} (hb : 0 < b) : a ≤ ceilDiv a b * b := by
  have := Nat.div_add_mod (a + b - 1) b
  have := Nat.mod_lt (a + b - 1) hb
  rw [ceilDiv, Nat.mul_comm]
  omega

/-- A row of the read footprint holds the row's samples, and in a vector tier its chunks (R66). -/
theorem samples_le_rowBytes (t : Tier) (fmt : Format) (width : Nat) :
    width * sampleSize fmt ≤ rowBytes t fmt width := by
  unfold rowBytes
  split
  · exact le_rfl
  · next W hW =>
    exact Nat.mul_le_mul_right _ (le_ceilDiv_mul width (laneCount_pos fmt (tierWidth_eq_some hW)))

theorem chunk_le_rowBytes {t : Tier} {fmt : Format} {W width k : Nat} (hW : tierWidth t = some W)
    (hk : k < chunksPerRow fmt W width) :
    k * laneCount fmt W * sampleSize fmt + W / 8 ≤ rowBytes t fmt width := by
  have chunks : rowBytes t fmt width = chunksPerRow fmt W width * laneCount fmt W * sampleSize fmt := by
    simp only [rowBytes, hW, chunksPerRow]
  rw [chunks, ← laneCount_mul_sampleSize fmt (tierWidth_eq_some hW), ← Nat.add_mul, ← Nat.succ_mul]
  exact Nat.mul_le_mul_right _ (Nat.mul_le_mul_right _ hk)

/-- Two memories agree on every byte that a command with these operands reads. -/
structure ReadsAgree (t : Tier) (fmt : Format) (P : Planes) (x : Args) (m m' : Memory) : Prop where
  plane1 : RowsAgree m m' x.src1 x.stride1 x.height (rowBytes t fmt x.width)
  plane2 : P = .two → RowsAgree m m' x.src2 x.stride2 x.height (rowBytes t fmt x.width)

section ReadsAgree

variable {t : Tier} {fmt : Format} {P : Planes} {x : Args} {m m' : Memory}

theorem ReadsAgree.scWalk (h : ReadsAgree t fmt P x m m') : scWalk fmt P m x = scWalk fmt P m' x := by
  refine vecLoop_congr _ fun r hr c hc acc => ?_
  have fits := samples_le_rowBytes t fmt x.width
  have a := h.plane1.sample fits hr hc
  cases P with
  | one => simp only [scStep, a]
  | two => simp only [scStep, a, (h.plane2 rfl).sample fits hr hc]

variable {W : Nat} (hW : tierWidth t = some W)
include hW

/-- Both planes' chunks of a walk are the same. -/
theorem ReadsAgree.chunks (h : ReadsAgree t fmt P x m m') (w : Nat) {r k : Nat} (hr : r < x.height)
    (hk : k < chunksPerRow fmt W x.width) :
    loadChunk W w (laneCount fmt W) m (x.chunk1 fmt (laneCount fmt W) r k) =
        loadChunk W w (laneCount fmt W) m' (x.chunk1 fmt (laneCount fmt W) r k) ∧
      (P = .two → loadChunk W w (laneCount fmt W) m (x.chunk2 fmt (laneCount fmt W) r k) =
        loadChunk W w (laneCount fmt W) m' (x.chunk2 fmt (laneCount fmt W) r k)) :=
  ⟨h.plane1.loadChunk hr (chunk_le_rowBytes hW hk), fun two => (h.plane2 two).loadChunk hr (chunk_le_rowBytes hW hk)⟩

theorem ReadsAgree.walkU8 (h : ReadsAgree t .u8 P x m m') : walkU8 W P m x = walkU8 W P m' x := by
  refine vecLoop_congr _ fun r hr k hk acc => ?_
  obtain ⟨a, b⟩ := h.chunks hW 8 hr hk
  cases P with
  | one => simp only [chunkU8, a]
  | two => simp only [chunkU8, a, b rfl]

theorem ReadsAgree.walkU16 (h : ReadsAgree t .u16 P x m m') : walkU16 W P m x = walkU16 W P m' x := by
  refine vecLoop_congr _ fun r hr k hk acc => ?_
  obtain ⟨a, b⟩ := h.chunks hW 16 hr hk
  cases P with
  | one => simp only [chunkU16, a]
  | two => simp only [chunkU16, a, b rfl]

theorem ReadsAgree.walkF32 (h : ReadsAgree t .f32 P x m m') : walkF32 W P m x = walkF32 W P m' x := by
  refine vecLoop_congr _ fun r hr k hk acc => ?_
  obtain ⟨a, b⟩ := h.chunks hW 32 hr hk
  cases P with
  | one => simp only [chunkF32, a]
  | two => simp only [chunkF32, a, b rfl]

theorem ReadsAgree.vecResult (h : ReadsAgree t fmt P x m m') : vecResult fmt W P m x = vecResult fmt W P m' x := by
  cases fmt with
  | u8 => exact congrArg finalU8 (h.walkU8 hW)
  | u16 => exact congrArg (finalU16 W) (h.walkU16 hW)
  | f32 => exact congrArg finalF32 (h.walkF32 hW)

end ReadsAgree

/-- The result of a command, by its tier (R104). -/
theorem kernelOf_result (i : Instr) (m : Memory) (x : Args) (d : Datapath) : (kernelOf i m x d).2 =
    match tierWidth i.tier with
    | none => ⟨(scWalk i.format i.planes m x).smin, (scWalk i.format i.planes m x).smax,
        (scWalk i.format i.planes m x).ssum, (scWalk i.format i.planes m x).sdiff⟩
    | some W => vecResult i.format W i.planes m x := by
  cases i <;> rfl

/-- A command's result and inputs depend on the bytes it reads alone (R66). -/
theorem kernelOf_congr {i : Instr} {m m' : Memory} {x : Args} (h : ReadsAgree i.tier i.format i.planes x m m')
    (d : Datapath) : (kernelOf i m x d).2 = (kernelOf i m' x d).2 := by
  rw [kernelOf_result, kernelOf_result]
  split
  · rw [h.scWalk]
  · next W hW => exact h.vecResult hW

theorem commandInputs_congr {i : Instr} {m m' : Memory} {x : Args}
    (h : ReadsAgree i.tier i.format i.planes x m m') : commandInputs i m x = commandInputs i m' x := by
  have fits := samples_le_rowBytes i.tier i.format x.width
  have plane1 : x.samples1 i.format m = x.samples1 i.format m' := h.plane1.sampleSeq fits
  unfold commandInputs
  rw [plane1]
  cases hP : i.planes with
  | one => rfl
  | two =>
    have plane2 : x.samples2 i.format m = x.samples2 i.format m' := (h.plane2 hP).sampleSeq fits
    rw [plane2]

/-- Memories that agree on the read footprint of a command with a legal geometry agree on what it reads (R66, R134). -/
theorem readsAgree_of_reads {g : Engine} {i : Instr} {m m' : Memory} (hd : LegalDimensions g i)
    (hs : LegalStrides g i) (h : ∀ b, (footprint i g.args).reads b = true → m.read b = m'.read b) :
    ReadsAgree i.tier i.format i.planes (commandArgs i.planes g.args) m m' := by
  have plane : ∀ q ∈ planeRows i (commandArgs i.planes g.args), RowsAgree m m' q.base q.stride q.rows q.bytes := by
    intro q hq r hr j hj
    have start := rowStart_nonneg (base := q.base) (r := r) (planeRows_bounds hd hs q hq).1
    refine h _ ((Footprint.reads_iff _ _).2 ⟨q, hq, r, hr, j, hj, ?_⟩)
    simp only [PlaneRows.byteAt, rowAddr]
    omega
  exact ⟨plane _ ((mem_planeRows i _ _).2 (.inl rfl)), fun two => plane _ ((mem_planeRows i _ _).2 (.inr ⟨two, rfl⟩))⟩

/-- A byte that a command does not write lies outside its record (R69). -/
theorem outside_of_not_writes {i : Instr} {x : ArgFile} {b : Nat} (h : (footprint i x).writes b = false) :
    b < (commandArgs i.planes x).out ∨ (commandArgs i.planes x).out + recordBytes i.planes ≤ b := by
  have apart := mt (writes_iff _ _).2 (Bool.eq_false_iff.1 h)
  simp only [footprint] at apart
  omega

/-! ### A store that does not race, and a completion (R84, R85) -/

section Commutes

variable {s : State} {e a n : Nat} {g : Engine} {p : PendingCommand} (hg : s.engine? e = some g)
  (hp : g.status = .busy p)
include hg hp

theorem mem_finishCommand :
    (finishCommand e s).mem =
      writeResult p.instr (commandInputs p.instr s.mem (commandArgs p.instr.planes g.args)) s.mem
        (commandArgs p.instr.planes g.args).out
        (kernelOf p.instr s.mem (commandArgs p.instr.planes g.args) g.datapath).2 := by
  rw [finishCommand_busy hg hp]
  rfl

/-- The engine after its completion keeps its registers, and is not busy (R43, R45). -/
theorem engine?_finishCommand_self : ∃ g', (finishCommand e s).engine? e = some g' ∧ g'.status = p.after ∧
    g'.args = g.args ∧ g'.written = g.written ∧ g'.isBusy = false := by
  have status := status_finishCommand hg hp
  obtain ⟨g', hg', hst⟩ := Option.map_eq_some_iff.1 status
  obtain ⟨d, hd, args, written, -⟩ := engine?_finishCommand e e s g' hg'
  obtain rfl : g = d := Option.some.inj (hg.symm.trans hd)
  refine ⟨g', hg', hst, args, written, ?_⟩
  rw [Engine.isBusy, hst, PendingCommand.after]
  cases p.fault <;> rfl

/-- Memory after a store and a completion does not depend on their order when the command does not touch what is
stored. -/
theorem read_finishCommand_store (hm : s.mem.wf) (legal : LegalStart s.platform g p.instr)
    (apart : ∀ b, a ≤ b → b < a + n →
      (footprint p.instr g.args).reads b = false ∧ (footprint p.instr g.args).writes b = false)
    {u : State} {v : Nat} (hu : u.engine? e = some g) (hmem : u.mem = s.mem.writeLE a n v) (b : Nat) :
    (finishCommand e u).mem.read b = ((finishCommand e s).mem.writeLE a n v).read b := by
  obtain ⟨-, -, hd, hs, -⟩ := legal
  have stored := Memory.wf_writeLE n s.mem a v hm
  have same : ReadsAgree p.instr.tier p.instr.format p.instr.planes (commandArgs p.instr.planes g.args)
      (s.mem.writeLE a n v) s.mem := by
    refine readsAgree_of_reads hd hs fun b hb => Memory.read_writeLE_outside n s.mem a v b hm ?_
    by_contra hin
    rw [(apart b (by omega) (by omega)).1] at hb
    cases hb
  rw [mem_finishCommand hu hp, mem_finishCommand hg hp, hmem, kernelOf_congr same, commandInputs_congr same,
    Memory.read_writeLE (wf_writeResult _ _ _ _ _ hm)]
  split
  · next hb =>
    have outside := outside_of_not_writes (apart b hb.1 hb.2).2
    rw [read_writeResult_outside _ _ _ _ _ b stored outside, Memory.read_writeLE hm, if_pos hb]
  · next hb =>
    exact read_writeResult_agree _ _ _ _ stored hm (.inl (Memory.read_writeLE_outside n s.mem a v b hm (by omega)))

end Commutes

end Sys2Proof.Machine

/-! ### The obligations settled: O27, O28, O29 -/

section

open Sys2Proof Sys2Proof.Machine

/-- Settles O27: a store races with what the open command reads or writes, a load with what it writes. -/
theorem racingHostAccessFaultsTheOpenCommand : Obligations.RacingHostAccessFaultsTheOpenCommand := by
  intro s t e n a x v g p hg hp access
  dsimp only
  refine ⟨fun h => ?_, fun h => ?_, fun h => ?_, fun h => ?_⟩
  · obtain ⟨b, lo, hi, hb, engine, record⟩ := raiseRaces_hostRaces_conflict hg hp true t (by simpa [or_comm] using h)
    exact ⟨_, b, storeBytes_accessible t access v, lo, hi, by simpa [or_comm] using hb, engine, record⟩
  · obtain ⟨b, lo, hi, hb, engine, record⟩ := raiseRaces_hostRaces_conflict hg hp false t (by simpa using h)
    exact ⟨_, b, loadBytes_accessible t access x, lo, hi, by simpa using hb, by rwa [afterLoad_engine?],
      by rwa [afterLoad_faults]⟩
  · refine ⟨_, storeBytes_accessible t access v, raiseRaces_hostRaces_quiet hg hp true t fun b lo hi => ?_⟩
    simp [h b lo hi]
  · refine ⟨_, loadBytes_accessible t access x, ?_⟩
    rw [afterLoad_engine?]
    exact raiseRaces_hostRaces_quiet hg hp false t fun b lo hi => by simp [h b lo hi]

/-- Settles O28: the new command races with every open command it conflicts with, the first of which it records. -/
theorem conflictingCommandsBothRace : Obligations.ConflictingCommandsBothRace := by
  intro i s g g' e' p idle legal hne hg' hp hc
  obtain ⟨b, hb⟩ := exists_conflict hc
  have listed : (e', p, b) ∈ conflictsFrom s.port.engine (footprint i g.args) 0 s.engines :=
    (mem_conflictsFrom _ _ _ _ _).2 ⟨e', g', hg', by simp, hne, hp, hb⟩
  cases hl : conflictsFrom s.port.engine (footprint i g.args) 0 s.engines with
  | nil => simp [hl] at listed
  | cons c rest =>
    have first : c ∈ conflictsFrom s.port.engine (footprint i g.args) 0 s.engines := by simp [hl]
    obtain ⟨k, gk, hk, hck, ne, busy, conflict⟩ := (mem_conflictsFrom _ _ _ _ c).1 first
    obtain rfl : c.1 = k := by simpa using hck
    rw [hl] at listed
    obtain ⟨other, record⟩ := raceState_other hl c.1 c.2.2 hg' hp hne listed
    exact ⟨_, c.2.2, b, c.1, gk, c.2.1, exec_races idle legal hl, by simp [raceState], ne, hk, busy,
      conflictsAt_of_conflict conflict, conflictsAt_of_conflict hb, raceState_own hl _ _ idle.1 idle.2, other,
      by simp [raceState], record⟩

/-- Settles O29: the store leaves the bytes that the walk reads, and neither writes where the other does. -/
theorem nonRacingStoreCommutesWithCompletion : Obligations.NonRacingStoreCommutesWithCompletion := by
  intro s t e a n v g p hm hg hp legal access apart
  have quiet : (s.afterStore t a n (transactionValue n v)).engine? e = some g :=
    raiseRaces_hostRaces_quiet hg hp true t fun b lo hi => by simp [apart b lo hi]
  obtain ⟨g1, hg1, status1, args1, written1, -⟩ := engine?_finishCommand_self quiet hp
  obtain ⟨g2, hg2, status2, args2, written2, notBusy⟩ := engine?_finishCommand_self hg hp
  have access' : HostAccessible (finishCommand e s) a n := by simpa [HostAccessible] using access
  exact ⟨_, _, storeBytes_accessible t access v, storeBytes_accessible t access' v,
    read_finishCommand_store hg hp hm legal apart quiet rfl, g1, g2, hg1,
    raiseRaces_hostRaces_not_busy hg2 notBusy true t a n, status1.trans status2.symm, args1, args2, written1, written2⟩

end


/-! Proofs about the record of a ready command and the results of tier SC: every walk is a fold over the grid of rows
and columns, so each accumulator is a fold over the sample sequence. -/

namespace Sys2Proof.Machine

/-! ### The record of a ready command (R69, R70, R139) -/

/-- A ready command writes the fields of its walk's result at the offsets of R70, and no byte outside the record. -/
theorem exec_ready_record {i : Instr} {s : State} {g : Engine} (h : ReadyToRun s i g) (hm : s.mem.wf)
    {x : Args} (hx : commandArgs i.planes g.args = x) {res : KernelResult}
    (hres : (kernelOf i s.mem x g.datapath).2 = res) :
    ∃ t, exec i s = .next t ∧ t.mem.readLE x.out 4 = res.mn.toNat ∧ t.mem.readLE (x.out + 4) 4 = res.mx.toNat ∧
      t.mem.readLE (x.out + 8) 8 = (sumBits i.format (commandInputs i s.mem x) res.sm).toNat ∧
      (i.planes = .two →
        t.mem.readLE (x.out + 16) 8 = (sumBits i.format (commandInputs i s.mem x) res.df).toNat) ∧
      ∀ a, ¬ (x.out ≤ a ∧ a < x.out + recordBytes i.planes) → t.mem.read a = s.mem.read a := by
  subst hx hres
  obtain ⟨mn, mx, sm, df⟩ := writeResult_fields i (commandInputs i s.mem (commandArgs i.planes g.args)) s.mem
    (commandArgs i.planes g.args).out (kernelOf i s.mem (commandArgs i.planes g.args) g.datapath).2 hm
  refine ⟨_, (exec_ready h).trans (congrArg _ (finishCommand_openCommand h.1)), mn, mx, sm, df, fun a ha => ?_⟩
  exact read_writeResult_outside _ _ _ _ _ a hm (by omega)

theorem ReadyToRun.dimensions {i : Instr} {s : State} {g : Engine} (h : ReadyToRun s i g) : LegalDimensions g i := by
  obtain ⟨-, -, ⟨-, -, dimensions, -⟩, -⟩ := h
  exact dimensions

/-- What R132 asks of an integer command's result. -/
structure Contract (P : Planes) (S1 S2 : List Word) (res : KernelResult) : Prop where
  least : IsLeast res.mn.toNat S1
  greatest : IsGreatest res.mx.toNat S1
  sum : res.sm.toNat = contractSum S1
  diff : P = .two → res.df.toNat = contractDiff S1 S2

/-- A ready integer command whose walk meets the contract writes it. -/
theorem exec_contract {i : Instr} {s : State} {g : Engine} (h : ReadyToRun s i g) (hm : s.mem.wf)
    (hf : i.format ≠ .f32) {x : Args} (hx : commandArgs i.planes g.args = x)
    (hc : Contract i.planes (x.samples1 i.format s.mem) (x.samples2 i.format s.mem)
      (kernelOf i s.mem x g.datapath).2) :
    ∃ t, exec i s = .next t ∧ IsLeast (t.mem.readLE x.out 4) (x.samples1 i.format s.mem) ∧
      IsGreatest (t.mem.readLE (x.out + 4) 4) (x.samples1 i.format s.mem) ∧
      t.mem.readLE (x.out + 8) 8 = contractSum (x.samples1 i.format s.mem) ∧
      (i.planes = .two → t.mem.readLE (x.out + 16) 8 =
        contractDiff (x.samples1 i.format s.mem) (x.samples2 i.format s.mem)) ∧
      ∀ a, ¬ (x.out ≤ a ∧ a < x.out + recordBytes i.planes) → t.mem.read a = s.mem.read a := by
  obtain ⟨t, ht, mn, mx, sm, df, frame⟩ := exec_ready_record h hm hx rfl
  have plain (v : DWord) : sumBits i.format (commandInputs i s.mem x) v = v := by
    cases hi : i.format with
    | u8 | u16 => rfl
    | f32 => exact absurd hi hf
  rw [plain] at sm df
  exact ⟨t, ht, mn ▸ hc.least, mx ▸ hc.greatest, sm.trans hc.sum, fun two => (df two).trans (hc.diff two), frame⟩

/-! ### The grid of rows and columns (R131, R137, R180) -/

/-- The values of a grid, row by row. -/
def grid {α : Type} (rows cols : Nat) (f : Nat → Nat → α) : List α :=
  (List.range rows).flatMap fun r => (List.range cols).map (f r)

section Grid

variable {α β γ : Type} {rows cols : Nat}

/-- The sample sequence is the grid of samples (R131). -/
theorem sampleSeq_eq_grid (fmt : Format) (m : Memory) (base : Nat) (stride : Int) (width height : Nat) :
    sampleSeq fmt m base stride width height =
      grid height width fun r c => sample fmt m (rowAddr base stride r + c * sampleSize fmt) := rfl

theorem mem_grid {f : Nat → Nat → α} {a : α} :
    a ∈ grid rows cols f ↔ ∃ r, r < rows ∧ ∃ c, c < cols ∧ f r c = a := by
  simp [grid]

theorem map_grid (φ : α → β) (f : Nat → Nat → α) : (grid rows cols f).map φ = grid rows cols fun r c => φ (f r c) := by
  simp [grid, List.map_flatMap, Function.comp_def]

theorem length_grid (f : Nat → Nat → α) : (grid rows cols f).length = rows * cols := by
  simp [grid, List.length_flatMap]

/-- Two grids of the same shape, value by value. -/
theorem zipWith_grid (φ : α → β → γ) (f : Nat → Nat → α) (f' : Nat → Nat → β) :
    List.zipWith φ (grid rows cols f) (grid rows cols f') = grid rows cols fun r c => φ (f r c) (f' r c) := by
  unfold grid
  induction rows with
  | zero => rfl
  | succ rows ih =>
    simp only [List.range_succ, List.flatMap_append, List.flatMap_singleton]
    rw [List.zipWith_append (by simp [List.length_flatMap]), ih, List.zipWith_map]
    simp

/-- A fold read through a map that each of its steps respects. -/
theorem foldl_respects {φ : α → β} {f : α → γ → α} {f' : β → γ → β} : ∀ {l : List γ},
    (∀ c ∈ l, ∀ a, φ (f a c) = f' (φ a) c) → ∀ a, φ (l.foldl f a) = l.foldl f' (φ a)
  | [], _, _ => rfl
  | c :: l, h, a => by
    rw [List.foldl_cons, List.foldl_cons, ← h c (by simp), foldl_respects fun d hd => h d (by simp [hd])]

/-- One register of a loop over rows and chunks, when each step combines it with a value of its own, is the fold of
those values (R137, R180). -/
theorem vecLoop_register {step : Nat → α → Nat → α} {seed : α} (reg : α → β) {op : β → γ → β} (value : Nat → Nat → γ)
    (h : ∀ r, r < rows → ∀ k, k < cols → ∀ acc, reg (step r acc k) = op (reg acc) (value r k)) :
    reg (vecLoop step rows cols seed) = (grid rows cols value).foldl op (reg seed) := by
  rw [vecLoop, grid, List.foldl_flatMap]
  refine foldl_respects (fun r hr acc => ?_) seed
  rw [List.foldl_map]
  exact foldl_respects (fun k hk acc => h r (List.mem_range.1 hr) k (List.mem_range.1 hk) acc) acc

end Grid

/-! ### Extrema and sums of samples as numbers (R132) -/

/-- The fold of `min` is the seed or a member, and no member lies below it. -/
theorem foldl_min_spec {α : Type} [LinearOrder α] : ∀ (l : List α) (e : α),
    (l.foldl min e = e ∨ l.foldl min e ∈ l) ∧ l.foldl min e ≤ e ∧ ∀ a ∈ l, l.foldl min e ≤ a
  | [], e => ⟨.inl rfl, le_rfl, nofun⟩
  | a :: l, e => by
    obtain ⟨own, seed, below⟩ := foldl_min_spec l (min e a)
    rw [List.foldl_cons]
    refine ⟨?_, seed.trans (min_le_left e a), List.forall_mem_cons.2 ⟨seed.trans (min_le_right e a), below⟩⟩
    obtain h | h := own
    · rw [h]
      obtain h | h := min_choice e a <;> simp [h]
    · exact .inr (List.mem_cons_of_mem a h)

/-- With a seed that no sample exceeds, the fold of `min` is the least sample (R132). -/
theorem isLeast_foldl_min {S : List Word} {e : Nat} (hne : S ≠ []) (he : ∀ a ∈ S, a.toNat ≤ e) :
    IsLeast ((S.map BitVec.toNat).foldl min e) S := by
  obtain ⟨own, -, below⟩ := foldl_min_spec (S.map BitVec.toNat) e
  refine ⟨?_, fun a ha => below _ (List.mem_map_of_mem ha)⟩
  obtain h | h := own
  · obtain ⟨a, ha⟩ := List.exists_mem_of_ne_nil S hne
    exact ⟨a, ha, le_antisymm ((he a ha).trans h.ge) (below _ (List.mem_map_of_mem ha))⟩
  · exact List.mem_map.1 h

/-- From 0 the fold of `max` is the greatest sample (R132). -/
theorem isGreatest_foldl_max {S : List Word} (hne : S ≠ []) : IsGreatest ((S.map BitVec.toNat).foldl max 0) S := by
  obtain ⟨own, above⟩ : ((S.map BitVec.toNat).foldl max 0 = 0 ∨
      (S.map BitVec.toNat).foldl max 0 ∈ S.map BitVec.toNat) ∧
      ∀ a ∈ S.map BitVec.toNat, a ≤ (S.map BitVec.toNat).foldl max 0 := by
    obtain ⟨own, -, above⟩ := foldl_min_spec (α := ℕᵒᵈ) (S.map BitVec.toNat) 0
    exact ⟨own, above⟩
  refine ⟨?_, fun a ha => above _ (List.mem_map_of_mem ha)⟩
  obtain h | h := own
  · obtain ⟨a, ha⟩ := List.exists_mem_of_ne_nil S hne
    exact ⟨a, ha, le_antisymm (above _ (List.mem_map_of_mem ha)) (h.trans_le (Nat.zero_le _))⟩
  · exact List.mem_map.1 h

/-- Adding up numbers in 64 bits gives their sum modulo 2^64 (R132). -/
theorem foldl_add_ofNat (l : List Nat) :
    ((l.map (BitVec.ofNat 64)).foldl (fun a b => a + b) 0).toNat = l.sum % 2 ^ 64 := by
  have hom : l.foldl (fun (a : DWord) n => a + BitVec.ofNat 64 n) (BitVec.ofNat 64 0) =
      BitVec.ofNat 64 (l.foldl (fun a n => a + n) 0) :=
    List.foldl_hom _ fun a n => (BitVec.ofNat_add a n).symm
  rw [List.foldl_map, List.sum_eq_foldl]
  exact (congrArg BitVec.toNat hom).trans (BitVec.toNat_ofNat _ _)

theorem sample_lt (fmt : Format) (m : Memory) (a : Nat) : (sample fmt m a).toNat < 2 ^ (8 * sampleSize fmt) :=
  (BitVec.toNat_ofNat _ _).trans_lt ((Nat.mod_le _ _).trans_lt (Memory.readLE_lt _ m a))

theorem mem_sampleSeq_lt {fmt : Format} {m : Memory} {base width height : Nat} {stride : Int} {a : Word}
    (h : a ∈ sampleSeq fmt m base stride width height) : a.toNat < 2 ^ (8 * sampleSize fmt) := by
  obtain ⟨r, -, c, -, rfl⟩ := mem_grid.1 h
  exact sample_lt fmt m _

theorem sampleSeq_ne_nil {fmt : Format} {m : Memory} {base width height : Nat} {stride : Int} (hw : 1 ≤ width)
    (hh : 1 ≤ height) : sampleSeq fmt m base stride width height ≠ [] := by
  rw [sampleSeq_eq_grid, Ne, ← List.length_eq_zero_iff, length_grid]
  exact (Nat.mul_pos hh hw).ne'

/-- An integer result whose fields are the folds of its samples meets the contract (R132). -/
theorem contract_of_folds {fmt : Format} {P : Planes} {m : Memory} {x : Args} (hw : 1 ≤ x.width)
    (hh : 1 ≤ x.height) {res : KernelResult}
    (mn : res.mn.toNat = ((x.samples1 fmt m).map BitVec.toNat).foldl min (2 ^ (8 * sampleSize fmt) - 1))
    (mx : res.mx.toNat = ((x.samples1 fmt m).map BitVec.toNat).foldl max 0)
    (sm : res.sm = ((x.samples1 fmt m).map fun a => BitVec.ofNat 64 a.toNat).foldl (fun a b => a + b) 0)
    (df : P = .two → res.df = (List.zipWith
      (fun a b : Word => BitVec.ofNat 64 ((a.toNat : Int) - (b.toNat : Int)).natAbs)
      (x.samples1 fmt m) (x.samples2 fmt m)).foldl (fun a b => a + b) 0) :
    Contract P (x.samples1 fmt m) (x.samples2 fmt m) res where
  least := by
    rw [mn]
    exact isLeast_foldl_min (sampleSeq_ne_nil hw hh) fun a ha => Nat.le_sub_one_of_lt (mem_sampleSeq_lt ha)
  greatest := by
    rw [mx]
    exact isGreatest_foldl_max (sampleSeq_ne_nil hw hh)
  sum := by
    have split : ((x.samples1 fmt m).map fun a => BitVec.ofNat 64 a.toNat) =
        ((x.samples1 fmt m).map BitVec.toNat).map (BitVec.ofNat 64) := by rw [List.map_map]; rfl
    rw [sm, split]
    exact foldl_add_ofNat _
  diff two := by
    rw [df two, ← List.map_zipWith (f := BitVec.ofNat 64)]
    exact foldl_add_ofNat _

/-! ### Tier SC (R136, R137) -/

section Scalar

variable (fmt : Format) (m : Memory) (x : Args)

theorem scWalk_smin (P : Planes) :
    (scWalk fmt P m x).smin = (x.samples1 fmt m).foldl (scMin fmt) (minSeed fmt) :=
  vecLoop_register ScalarRegs.smin _ fun _ _ _ _ _ => rfl

theorem scWalk_smax (P : Planes) :
    (scWalk fmt P m x).smax = (x.samples1 fmt m).foldl (scMax fmt) (maxSeed fmt) :=
  vecLoop_register ScalarRegs.smax _ fun _ _ _ _ _ => rfl

theorem scWalk_ssum (P : Planes) : (scWalk fmt P m x).ssum = (x.samples1 fmt m).foldl (scSum fmt) 0 :=
  vecLoop_register ScalarRegs.ssum _ fun _ _ _ _ _ => rfl

/-- The diffSum accumulator takes the differences of corresponding samples in turn (R137). -/
theorem scWalk_sdiff {γ : Type} {f : Word → Word → γ} {op : DWord → γ → DWord}
    (h : ∀ acc a b, scDiff fmt acc a b = op acc (f a b)) :
    (scWalk fmt .two m x).sdiff = (List.zipWith f (x.samples1 fmt m) (x.samples2 fmt m)).foldl op 0 := by
  rw [Args.samples1, Args.samples2, sampleSeq_eq_grid, sampleSeq_eq_grid, zipWith_grid]
  exact vecLoop_register ScalarRegs.sdiff _ fun _ _ _ _ _ => h _ _ _

end Scalar

/-! ### Unsigned minimum, maximum and absolute difference, at every width -/

section Unsigned

variable {w : Nat} (a b : BitVec w)

theorem toNat_umin : (if b < a then b else a).toNat = min a.toNat b.toNat := by
  split
  · next h => exact (min_eq_right (BitVec.lt_def.1 h).le).symm
  · next h => exact (min_eq_left (BitVec.le_def.1 (BitVec.not_lt.1 h))).symm

theorem toNat_umax : (if a < b then b else a).toNat = max a.toNat b.toNat := by
  split
  · next h => exact (max_eq_right (BitVec.lt_def.1 h).le).symm
  · next h => exact (max_eq_left (BitVec.le_def.1 (BitVec.not_lt.1 h))).symm

/-- `|a - b|` of unsigned values is the difference of the numbers (R132). -/
theorem toNat_absDiff : (if a < b then b - a else a - b).toNat = ((a.toNat : Int) - (b.toNat : Int)).natAbs := by
  split
  · next h =>
    rw [BitVec.toNat_sub_of_le (BitVec.le_of_lt h)]
    have := BitVec.lt_def.1 h
    omega
  · next h =>
    rw [BitVec.toNat_sub_of_le (BitVec.not_lt.1 h)]
    have := BitVec.le_def.1 (BitVec.not_lt.1 h)
    omega

end Unsigned

/-- An integer walk of tier SC meets the contract (R132, R140 to R144). -/
theorem contract_scWalk {fmt : Format} (hf : fmt ≠ .f32) (P : Planes) {m : Memory} {x : Args} (hw : 1 ≤ x.width)
    (hh : 1 ≤ x.height) :
    Contract P (x.samples1 fmt m) (x.samples2 fmt m) ⟨(scWalk fmt P m x).smin, (scWalk fmt P m x).smax,
      (scWalk fmt P m x).ssum, (scWalk fmt P m x).sdiff⟩ := by
  have steps : (∀ a b, (scMin fmt a b).toNat = min a.toNat b.toNat) ∧
      (∀ a b, (scMax fmt a b).toNat = max a.toNat b.toNat) ∧ scSum fmt = (fun acc a => acc + a.setWidth 64) ∧
      (∀ acc a b, scDiff fmt acc a b = acc + (absDiff32 a b).setWidth 64) ∧
      (minSeed fmt).toNat = 2 ^ (8 * sampleSize fmt) - 1 ∧ (maxSeed fmt).toNat = 0 := by
    cases fmt with
    | u8 | u16 => exact ⟨toNat_umin, toNat_umax, rfl, fun _ _ _ => rfl, rfl, rfl⟩
    | f32 => exact absurd rfl hf
  obtain ⟨hmin, hmax, hsum, hdiff, seed, zero⟩ := steps
  refine contract_of_folds hw hh ?_ ?_ ?_ fun two => ?_
  · rw [scWalk_smin, List.foldl_map, ← seed]
    exact (List.foldl_hom BitVec.toNat fun a b => (hmin a b).symm).symm
  · rw [scWalk_smax, List.foldl_map, ← zero]
    exact (List.foldl_hom BitVec.toNat fun a b => (hmax a b).symm).symm
  · rw [scWalk_ssum, List.foldl_map]
    simp only [hsum, BitVec.ofNat_toNat]
  · subst two
    refine scWalk_sdiff fmt m x fun acc a b => ?_
    rw [hdiff, ← toNat_absDiff, BitVec.ofNat_toNat, absDiff32]

end Sys2Proof.Machine

/-! ### The obligations settled: O8, O12 -/

section

open Sys2Proof Sys2Proof.Machine

/-- Settles O8: the accumulators of the scalar walk are the folds of R132. -/
theorem scalarIntegerCommandsWriteTheContract : Obligations.ScalarIntegerCommandsWriteTheContract := by
  intro i s g h hm sc hf
  refine exec_contract h hm hf rfl ?_
  rw [kernelOf_result, sc]
  exact contract_scWalk hf i.planes h.dimensions.1 h.dimensions.2

/-- Settles O12: the scalar walk adds from the left, and WRITE_RESULT replaces a NaN. -/
theorem scalarFloatCommandsWriteTheLeftToRightSums : Obligations.ScalarFloatCommandsWriteTheLeftToRightSums := by
  intro i s g h hm sc hf
  obtain ⟨t, ht, -, -, sm, df, -⟩ := exec_ready_record h hm rfl rfl
  rw [kernelOf_result, sc, hf] at sm df
  refine ⟨t, ht, ?_, fun two => ?_⟩
  · rw [sm, tierWidth]
    dsimp only
    rw [scWalk_ssum]
    rfl
  · rw [df two, two, tierWidth]
    dsimp only
    rw [scWalk_sdiff .f32 s.mem _ (f := fun a b => absF32 (subF32 a b)) (op := fun acc d => addF64 acc (f32ToF64 d))
      fun _ _ _ => rfl]
    rfl

end


/-! Proofs about the vector tiers: a lane-wise operation that is commutative and associative with the walk's seed as
its neutral value gives, after the walk and the reduction tree, its fold over the sample sequence. -/

namespace Sys2Proof.Machine

/-! ### Lane operations (R174, R178, R179) -/

/-- A lane operation with its seed: a commutative monoid on the values that `ok` admits. -/
structure LaneOp {α : Type} (op : α → α → α) (seed : α) (ok : α → Prop) : Prop where
  ok_seed : ok seed
  ok_op : ∀ {a b}, ok a → ok b → ok (op a b)
  op_seed : ∀ {a}, ok a → op a seed = a
  comm : ∀ {a b}, ok a → ok b → op a b = op b a
  assoc : ∀ {a b c}, ok a → ok b → ok c → op (op a b) c = op a (op b c)

namespace LaneOp

variable {α : Type} {op : α → α → α} {seed : α} {ok : α → Prop} (h : LaneOp op seed ok)
include h

theorem seed_op {a : α} (ha : ok a) : op seed a = a := by
  rw [h.comm h.ok_seed ha, h.op_seed ha]

theorem ok_foldl : ∀ {l : List α}, (∀ a ∈ l, ok a) → ∀ {a : α}, ok a → ok (l.foldl op a)
  | [], _, _, ha => ha
  | b :: l, hl, a, ha => by
    obtain ⟨hb, hl⟩ := List.forall_mem_cons.1 hl
    exact ok_foldl hl (h.ok_op ha hb)

/-- A fold from any start is the start combined with the fold from the seed. -/
theorem foldl_start : ∀ {l : List α}, (∀ a ∈ l, ok a) → ∀ {a : α}, ok a → l.foldl op a = op a (l.foldl op seed)
  | [], _, _, ha => (h.op_seed ha).symm
  | b :: l, hl, a, ha => by
    obtain ⟨hb, hl⟩ := List.forall_mem_cons.1 hl
    rw [List.foldl_cons, List.foldl_cons, foldl_start hl (h.ok_op ha hb), h.seed_op hb, foldl_start hl hb,
      h.assoc ha hb (h.ok_foldl hl h.ok_seed)]

theorem foldl_append {l l' : List α} (hl : ∀ a ∈ l, ok a) (hl' : ∀ a ∈ l', ok a) :
    (l ++ l').foldl op seed = op (l.foldl op seed) (l'.foldl op seed) := by
  rw [List.foldl_append, h.foldl_start hl' (h.ok_foldl hl h.ok_seed)]

/-- Lists of neutral values fold to the neutral value. -/
theorem foldl_neutral : ∀ {l : List α}, (∀ a ∈ l, a = seed) → l.foldl op seed = seed
  | [], _ => rfl
  | a :: l, hl => by
    obtain ⟨ha, hl⟩ := List.forall_mem_cons.1 hl
    rw [List.foldl_cons, ha, h.op_seed h.ok_seed, foldl_neutral hl]

/-- Part by part, folds that agree agree over the whole. -/
theorem foldl_flatMap {β : Type} {f f' : β → List α} : ∀ {l : List β}, (∀ b ∈ l, ∀ a ∈ f b, ok a) →
    (∀ b ∈ l, ∀ a ∈ f' b, ok a) → (∀ b ∈ l, (f b).foldl op seed = (f' b).foldl op seed) →
    (l.flatMap f).foldl op seed = (l.flatMap f').foldl op seed
  | [], _, _, _ => rfl
  | b :: l, hf, hf', same => by
    obtain ⟨hb, hl⟩ := List.forall_mem_cons.1 hf
    obtain ⟨hb', hl'⟩ := List.forall_mem_cons.1 hf'
    obtain ⟨sameb, samel⟩ := List.forall_mem_cons.1 same
    have all : ∀ a ∈ l.flatMap f, ok a := fun a ha => by
      obtain ⟨c, hc, hac⟩ := List.mem_flatMap.1 ha
      exact hl c hc a hac
    have all' : ∀ a ∈ l.flatMap f', ok a := fun a ha => by
      obtain ⟨c, hc, hac⟩ := List.mem_flatMap.1 ha
      exact hl' c hc a hac
    rw [List.flatMap_cons, List.flatMap_cons, h.foldl_append hb all, h.foldl_append hb' all', sameb,
      foldl_flatMap hl hl' samel]

theorem ok_zipWith {u v : List α} (hu : ∀ a ∈ u, ok a) (hv : ∀ a ∈ v, ok a) :
    ∀ a ∈ List.zipWith op u v, ok a := by
  induction u generalizing v with
  | nil => exact nofun
  | cons a u ih =>
    cases v with
    | nil => exact nofun
    | cons b v =>
      obtain ⟨ha, hu⟩ := List.forall_mem_cons.1 hu
      obtain ⟨hb, hv⟩ := List.forall_mem_cons.1 hv
      exact List.forall_mem_cons.2 ⟨h.ok_op ha hb, ih hu hv⟩

/-- Folding two vectors combined lane by lane is folding all their lanes. -/
theorem foldl_zipWith : ∀ {u v : List α}, u.length = v.length → (∀ a ∈ u, ok a) → (∀ a ∈ v, ok a) →
    (List.zipWith op u v).foldl op seed = op (u.foldl op seed) (v.foldl op seed)
  | [], [], _, _, _ => (h.op_seed h.ok_seed).symm
  | a :: u, b :: v, hlen, hu, hv => by
    obtain ⟨ha, hu⟩ := List.forall_mem_cons.1 hu
    obtain ⟨hb, hv⟩ := List.forall_mem_cons.1 hv
    have foldu := h.ok_foldl hu h.ok_seed
    have foldv := h.ok_foldl hv h.ok_seed
    simp only [List.zipWith_cons_cons, List.foldl_cons, h.seed_op (h.ok_op ha hb), h.seed_op ha, h.seed_op hb]
    rw [h.foldl_start (h.ok_zipWith hu hv) (h.ok_op ha hb), h.foldl_start hu ha, h.foldl_start hv hb,
      foldl_zipWith (Nat.succ.inj hlen) hu hv, h.assoc ha hb (h.ok_op foldu foldv), h.assoc ha foldu (h.ok_op hb foldv),
      ← h.assoc hb foldu foldv, ← h.assoc foldu hb foldv, h.comm hb foldu]

/-- The reduction tree of a power of two of lanes folds them all (R280). -/
theorem halveLanes_eq : ∀ {k fuel : Nat} {v : List α}, v.length = 2 ^ k → k ≤ fuel → (∀ a ∈ v, ok a) →
    halveLanes op fuel v = [v.foldl op seed]
  | 0, fuel, v, hlen, _, hv => by
    obtain ⟨a, rfl⟩ := List.length_eq_one_iff.1 hlen
    have one : [a].foldl op seed = a := h.seed_op (hv a (by simp))
    rw [one]
    cases fuel <;> rfl
  | k + 1, 0, _, _, hfuel, _ => by omega
  | k + 1, fuel + 1, v, hlen, hfuel, hv => by
    have half : v.length / 2 = 2 ^ k := by rw [hlen, pow_succ]; omega
    have lower : ∀ a ∈ v.take (v.length / 2), ok a := fun a ha => hv a (List.mem_of_mem_take ha)
    have upper : ∀ a ∈ v.drop (v.length / 2), ok a := fun a ha => hv a (List.mem_of_mem_drop ha)
    have lengths : (v.take (v.length / 2)).length = 2 ^ k ∧ (v.drop (v.length / 2)).length = 2 ^ k := by
      simp only [List.length_take, List.length_drop]
      rw [half, hlen, pow_succ]
      omega
    have more : ¬ v.length ≤ 1 := by
      have : 0 < 2 ^ k := by positivity
      rw [hlen, pow_succ]
      omega
    rw [halveLanes, if_neg more, foldHalf,
      halveLanes_eq (by rw [List.length_zipWith, lengths.1, lengths.2, min_self]) (Nat.le_of_succ_le_succ hfuel)
        (h.ok_zipWith lower upper),
      h.foldl_zipWith (lengths.1.trans lengths.2.symm) lower upper, ← h.foldl_append lower upper, List.take_append_drop]

theorem htree_eq {k : Nat} {v : List α} (none : α) (hlen : v.length = 2 ^ k) (hv : ∀ a ∈ v, ok a) :
    htree op none v = v.foldl op seed := by
  rw [htree, h.halveLanes_eq hlen (hlen ▸ Nat.lt_two_pow_self.le) hv, List.headD_cons]

/-- Accumulating chunks lane by lane and then folding the lanes is folding all their values (R178, R188). -/
theorem foldl_chunks {n : Nat} : ∀ {chunks : List (List α)}, (∀ c ∈ chunks, c.length = n ∧ ∀ a ∈ c, ok a) →
    ∀ {acc : List α}, acc.length = n → (∀ a ∈ acc, ok a) →
    (chunks.foldl (List.zipWith op) acc).length = n ∧ (∀ a ∈ chunks.foldl (List.zipWith op) acc, ok a) ∧
      (chunks.foldl (List.zipWith op) acc).foldl op seed = (acc ++ chunks.flatten).foldl op seed
  | [], _, acc, hlen, hacc => ⟨hlen, hacc, by simp⟩
  | c :: chunks, hc, acc, hlen, hacc => by
    obtain ⟨⟨clen, hcok⟩, hrest⟩ := List.forall_mem_cons.1 hc
    have rest : ∀ a ∈ chunks.flatten, ok a := fun a ha => by
      obtain ⟨d, hd, had⟩ := List.mem_flatten.1 ha
      exact (hrest d hd).2 a had
    obtain ⟨length, oks, fold⟩ := foldl_chunks hrest (acc := List.zipWith op acc c)
      (by rw [List.length_zipWith, hlen, clen, min_self]) (h.ok_zipWith hacc hcok)
    refine ⟨length, oks, fold.trans ?_⟩
    rw [List.flatten_cons, ← List.append_assoc, h.foldl_append (h.ok_zipWith hacc hcok) rest,
      h.foldl_append (List.forall_mem_append.2 ⟨hacc, hcok⟩) rest, h.foldl_append hacc hcok,
      h.foldl_zipWith (hlen.trans clen.symm) hacc hcok]

/-- FINAL of a lane-wise accumulator: the fold of every chunk's lanes (R188). -/
theorem htree_chunks {k n : Nat} (hn : n = 2 ^ k) (none : α) {chunks : List (List α)}
    (hc : ∀ c ∈ chunks, c.length = n ∧ ∀ a ∈ c, ok a) :
    htree op none (chunks.foldl (List.zipWith op) (List.replicate n seed)) = chunks.flatten.foldl op seed := by
  have seeds : ∀ a ∈ List.replicate n seed, a = seed := fun a => List.eq_of_mem_replicate
  have hok : ∀ a ∈ List.replicate n seed, ok a := fun a ha => seeds a ha ▸ h.ok_seed
  obtain ⟨length, oks, fold⟩ := h.foldl_chunks hc List.length_replicate hok
  rw [h.htree_eq none (length.trans hn) oks, fold, List.foldl_append, h.foldl_neutral seeds]

end LaneOp

/-! ### Masked chunks (R171 to R175) -/

/-- Chunk `k` of a row with the neutral value in the lanes past the row's end (R173, R175). -/
def maskedChunk {α : Type} (value : Nat → α) (neutral : α) (n width k : Nat) : List α :=
  (List.range n).map fun j => if k * n + j < width then value (k * n + j) else neutral

theorem map_maskedChunk {α β : Type} (φ : α → β) (value : Nat → α) (neutral : α) (n width k : Nat) :
    (maskedChunk value neutral n width k).map φ = maskedChunk (fun c => φ (value c)) (φ neutral) n width k := by
  simp only [maskedChunk, List.map_map, Function.comp_def, apply_ite φ]

theorem length_maskedChunk {α : Type} (value : Nat → α) (neutral : α) (n width k : Nat) :
    (maskedChunk value neutral n width k).length = n := by
  simp [maskedChunk]

theorem flatten_grid {α : Type} (rows cols : Nat) (f : Nat → Nat → List α) :
    (grid rows cols f).flatten = (List.range rows).flatMap fun r => (List.range cols).flatMap (f r) := by
  simp only [grid, List.flatten_eq_flatMap, List.flatMap_assoc, List.flatMap_map, id_eq]

/-- The chunks of a row, side by side. -/
theorem flatMap_range_mul {α : Type} (f : Nat → α) (n : Nat) : ∀ chunks : Nat,
    ((List.range chunks).flatMap fun k => (List.range n).map fun j => f (k * n + j)) =
      (List.range (chunks * n)).map f
  | 0 => by simp
  | chunks + 1 => by
    rw [List.range_succ, List.flatMap_append, flatMap_range_mul f n chunks, List.flatMap_singleton, Nat.succ_mul,
      List.range_add, List.map_append, List.map_map]
    rfl

namespace LaneOp

variable {α : Type} {op : α → α → α} {seed : α} {ok : α → Prop} (h : LaneOp op seed ok)
include h

theorem ok_maskedChunk {value : Nat → α} (hv : ∀ c, ok (value c)) (n width k : Nat) :
    ∀ a ∈ maskedChunk value seed n width k, ok a := by
  intro a ha
  obtain ⟨j, -, rfl⟩ := List.mem_map.1 ha
  split
  · exact hv _
  · exact h.ok_seed

/-- The masked chunks of a row fold to the row's own values (R173, R174). -/
theorem foldl_maskedChunks {value : Nat → α} (hv : ∀ c, ok (value c)) {n : Nat} (hn : 0 < n) (width : Nat) :
    ((List.range (ceilDiv width n)).flatMap (maskedChunk value seed n width)).foldl op seed =
      ((List.range width).map value).foldl op seed := by
  obtain ⟨rest, hrest⟩ := Nat.exists_eq_add_of_le (le_ceilDiv_mul width hn)
  have chunks : (List.range (ceilDiv width n)).flatMap (maskedChunk value seed n width) =
      (List.range width).map value ++ (List.range rest).map fun _ => seed := by
    refine (flatMap_range_mul (fun c => if c < width then value c else seed) n _).trans ?_
    rw [hrest, List.range_add, List.map_append, List.map_map]
    congr 1
    · exact List.map_congr_left fun c hc => if_pos (List.mem_range.1 hc)
    · exact List.map_congr_left fun c _ => if_neg (by simp)
  have row : ∀ a ∈ (List.range width).map value, ok a := by
    intro a ha
    obtain ⟨c, -, rfl⟩ := List.mem_map.1 ha
    exact hv c
  rw [chunks, List.foldl_append, h.foldl_start (by simp [h.ok_seed]) (h.ok_foldl row h.ok_seed),
    h.foldl_neutral (l := (List.range rest).map fun _ => seed) (by simp), h.op_seed (h.ok_foldl row h.ok_seed)]

/-- Over the whole walk too: the masked chunks of the grid fold to the grid (R180). -/
theorem foldl_grid_maskedChunks {value : Nat → Nat → α} (hv : ∀ r c, ok (value r c)) {n : Nat} (hn : 0 < n)
    (rows width : Nat) :
    (grid rows (ceilDiv width n) fun r => maskedChunk (value r) seed n width).flatten.foldl op seed =
      (grid rows width value).foldl op seed := by
  rw [flatten_grid, grid]
  refine h.foldl_flatMap (fun r _ a ha => ?_) (fun r _ a ha => ?_) fun r _ => h.foldl_maskedChunks (hv r) hn width
  · obtain ⟨k, -, hk⟩ := List.mem_flatMap.1 ha
    exact h.ok_maskedChunk (hv r) n width k a hk
  · obtain ⟨c, -, rfl⟩ := List.mem_map.1 ha
    exact hv r c

/-- FINAL of the masked chunks of a walk is the fold of the grid of samples (R180, R188). -/
theorem htree_maskedChunks {value : Nat → Nat → α} (hv : ∀ r c, ok (value r c)) {k n : Nat} (hn : n = 2 ^ k) (none : α)
    (rows width : Nat) :
    htree op none ((grid rows (ceilDiv width n) fun r => maskedChunk (value r) seed n width).foldl (List.zipWith op)
      (List.replicate n seed)) = (grid rows width value).foldl op seed := by
  rw [h.htree_chunks hn none, h.foldl_grid_maskedChunks hv (hn ▸ by positivity)]
  intro c hc
  obtain ⟨r, -, k, -, rfl⟩ := mem_grid.1 hc
  exact ⟨length_maskedChunk _ _ _ _ _, h.ok_maskedChunk (hv r) n width k⟩

end LaneOp
end Sys2Proof.Machine


/-! Proofs about the integer commands of the vector tiers: the lanes of the chunks are the samples, so every
accumulator gives its fold over the sample sequence. -/

namespace Sys2Proof.Machine

/-! ### The lanes of a chunk are samples (R131, R172, R173) -/

/-- Sample (r, c) of a plane in the lane width of its format (R63, R172). -/
def laneSample (fmt : Format) (m : Memory) (base : Nat) (stride : Int) (r c : Nat) : BitVec (8 * sampleSize fmt) :=
  BitVec.ofNat _ (m.readLE (rowAddr base stride r + c * sampleSize fmt) (sampleSize fmt))

theorem laneSample_toNat (fmt : Format) (m : Memory) (base : Nat) (stride : Int) (r c : Nat) :
    (laneSample fmt m base stride r c).toNat =
      (sample fmt m (rowAddr base stride r + c * sampleSize fmt)).toNat := by
  have fits := Memory.readLE_lt (sampleSize fmt) m (rowAddr base stride r + c * sampleSize fmt)
  have word : 2 ^ (8 * sampleSize fmt) ≤ 2 ^ 32 := by cases fmt <;> norm_num [sampleSize]
  rw [laneSample, sample, BitVec.toNat_ofNat, BitVec.toNat_ofNat, Nat.mod_eq_of_lt fits,
    Nat.mod_eq_of_lt (fits.trans_le word)]

/-- Of a plane only the numbers of its samples matter to an integer command. -/
theorem map_sampleSeq {α : Type} (φ : Nat → α) (fmt : Format) (m : Memory) (base : Nat) (stride : Int)
    (width height : Nat) : (sampleSeq fmt m base stride width height).map (fun a => φ a.toNat) =
      grid height width fun r c => φ (laneSample fmt m base stride r c).toNat := by
  rw [sampleSeq_eq_grid, map_grid]
  simp only [laneSample_toNat]

section Lanes

variable {fmt : Format} {W : Nat} (hW : W = 128 ∨ W = 256)
include hW

/-- The lane counts are the powers of two that the reduction tree needs (R10, R280). -/
theorem laneCount_eq_two_pow (fmt : Format) : ∃ k, laneCount fmt W = 2 ^ k ∧ k ≤ 8 * sampleSize fmt := by
  obtain rfl | rfl := hW <;> cases fmt
  exacts [⟨4, rfl, by decide⟩, ⟨3, rfl, by decide⟩, ⟨2, rfl, by decide⟩, ⟨5, rfl, by decide⟩, ⟨4, rfl, by decide⟩,
    ⟨3, rfl, by decide⟩]

theorem loadChunk_eq_laneSamples (m : Memory) (base : Nat) (stride : Int) (r k : Nat) :
    loadChunk W (8 * sampleSize fmt) (laneCount fmt W) m
        (rowAddr base stride r + k * laneCount fmt W * sampleSize fmt) =
      (List.range (laneCount fmt W)).map fun j => laneSample fmt m base stride r (k * laneCount fmt W + j) := by
  have bits : 8 * (laneCount fmt W * sampleSize fmt) = W := by
    rw [laneCount_mul_sampleSize fmt hW]
    omega
  have lanes := loadChunk_eq (sampleSize fmt) (laneCount fmt W) m
    (rowAddr base stride r + k * laneCount fmt W * sampleSize fmt)
  rw [bits] at lanes
  rw [lanes]
  refine List.map_congr_left fun j _ => ?_
  rw [laneSample, Nat.add_assoc, ← Nat.add_mul]

end Lanes

/-- The mask of a chunk covers the columns that the row has (R173). -/
theorem laneMask_eq {w n width k : Nat} (hn : n ≤ 2 ^ w) (hpos : 0 < n) (hk : k < ceilDiv width n) :
    laneMask w n width k = (List.range n).map fun j => decide (k * n + j < width) := by
  have bound : k * n < width := by
    have := (Nat.le_div_iff_mul_le hpos).1 (Nat.succ_le_of_lt hk)
    rw [Nat.succ_mul] at this
    omega
  unfold laneMask
  split
  · next full =>
    have := (Nat.le_div_iff_mul_le hpos).1 (Nat.succ_le_of_lt full)
    rw [Nat.succ_mul] at this
    refine (List.eq_replicate_iff.2 ⟨by simp, fun b hb => ?_⟩).symm
    obtain ⟨j, hj, rfl⟩ := List.mem_map.1 hb
    have := List.mem_range.1 hj
    exact decide_eq_true (by omega)
  · next tail =>
    have last : k = width / n :=
      le_antisymm ((Nat.le_div_iff_mul_le hpos).2 bound.le) (Nat.not_lt.1 tail)
    have split := Nat.div_add_mod' width n
    rw [idxLanes, List.map_map]
    refine List.map_congr_left fun j hj => ?_
    have := List.mem_range.1 hj
    simp only [Function.comp_apply, BitVec.toNat_ofNat, Nat.mod_eq_of_lt (this.trans_le hn), decide_eq_decide, last]
    omega

/-- Selecting with the mask leaves the row's values and the neutral one (R175). -/
theorem sel_laneMask {α : Type} {w n width k : Nat} (hn : n ≤ 2 ^ w) (hpos : 0 < n) (hk : k < ceilDiv width n)
    (value : Nat → α) (neutral : α) :
    sel (laneMask w n width k) ((List.range n).map fun j => value (k * n + j)) neutral =
      maskedChunk value neutral n width k := by
  rw [laneMask_eq hn hpos hk, sel, List.zipWith_map]
  simp [maskedChunk]

theorem zipWith_maskedChunk {α β γ : Type} (φ : α → β → γ) (value : Nat → α) (value' : Nat → β) (neutral : α)
    (neutral' : β) (n width k : Nat) :
    List.zipWith φ (maskedChunk value neutral n width k) (maskedChunk value' neutral' n width k) =
      maskedChunk (fun c => φ (value c) (value' c)) (φ neutral neutral') n width k := by
  rw [maskedChunk, maskedChunk, List.zipWith_map, maskedChunk]
  simp only [List.zipWith_self]
  refine List.map_congr_left fun j _ => ?_
  split <;> rfl

/-! ### Extrema as lane operations (R174, R179) -/

/-- Keeping the value of the lower key is a lane operation, when the key tells values apart and none is above the
seed's. -/
theorem LaneOp.of_key {α β : Type} [LinearOrder β] {op : α → α → α} {seed : α} {ok : α → Prop} (key : α → β)
    (hop : ∀ a b, ok a → ok b → op a b = if key b < key a then b else a) (hseed : ok seed)
    (top : ∀ a, ok a → key a ≤ key seed) (inj : ∀ a b, ok a → ok b → key a = key b → a = b) : LaneOp op seed ok := by
  have closed {a b : α} (ha : ok a) (hb : ok b) : ok (op a b) := by
    rw [hop a b ha hb]
    split <;> assumption
  have keys {a b : α} (ha : ok a) (hb : ok b) : key (op a b) = min (key a) (key b) := by
    rw [hop a b ha hb]
    split
    · next h => exact (min_eq_right h.le).symm
    · next h => exact (min_eq_left (not_lt.1 h)).symm
  refine ⟨hseed, closed, fun {a} ha => ?_, fun {a b} ha hb => ?_, fun {a b c} ha hb hc => ?_⟩
  · rw [hop a seed ha hseed, if_neg (not_lt.2 (top a ha))]
  · exact inj _ _ (closed ha hb) (closed hb ha) (by rw [keys ha hb, keys hb ha, min_comm])
  · exact inj _ _ (closed (closed ha hb) hc) (closed ha (closed hb hc))
      (by rw [keys (closed ha hb) hc, keys ha hb, keys ha (closed hb hc), keys hb hc, min_assoc])

/-- Every value is admitted: the integer formats have no NaN. -/
abbrev Any {α : Type} (_ : α) : Prop := True

section Unsigned

variable {w : Nat}

theorem laneOp_umin : LaneOp (fun a b : BitVec w => if b < a then b else a) (BitVec.allOnes w) Any :=
  .of_key BitVec.toNat (fun _ _ _ _ => rfl) trivial (fun a _ => by rw [BitVec.toNat_allOnes]; omega)
    fun _ _ _ _ => BitVec.eq_of_toNat_eq

theorem laneOp_umax : LaneOp (fun a b : BitVec w => if a < b then b else a) 0 Any :=
  .of_key (fun a => OrderDual.toDual a.toNat) (fun _ _ _ _ => rfl) trivial (fun a _ => Nat.zero_le a.toNat)
    fun _ _ _ _ => BitVec.eq_of_toNat_eq

end Unsigned

theorem laneOp_add : LaneOp (fun a b : DWord => a + b) 0 Any :=
  ⟨trivial, fun _ _ => trivial, fun _ => BitVec.add_zero _, fun _ _ => BitVec.add_comm _ _,
    fun _ _ _ => BitVec.add_assoc _ _ _⟩

/-! ### Sums (R181 to R185, R289) -/

/-- SAD8W adds up every byte beneath its lanes (R181). -/
theorem foldl_sad8w : ∀ (D : Nat) (X : List (BitVec 8)), X.length = 8 * D →
    (sad8w D X).foldl (fun a b => a + b) 0 = (X.map (BitVec.setWidth 64)).foldl (fun a b => a + b) 0
  | 0, X, h => by
    obtain rfl := List.length_eq_zero_iff.1 h
    rfl
  | D + 1, X, h => by
    have next : sad8w (D + 1) X =
        ((X.take 8).map (BitVec.setWidth 64)).foldl (fun a b => a + b) 0 :: sad8w D (X.drop 8) := by
      rw [sad8w, List.range_succ_eq_map, List.map_cons, List.map_map, List.foldl_map]
      refine congrArg₂ _ rfl (List.map_congr_left fun g _ => ?_)
      simp only [Function.comp_apply, List.drop_drop, Nat.mul_succ, Nat.add_comm]
    have parts : X.map (BitVec.setWidth 64) =
        (X.take 8).map (BitVec.setWidth 64) ++ (X.drop 8).map (BitVec.setWidth 64) := by
      rw [← List.map_append, List.take_append_drop]
    rw [next, parts, List.foldl_cons, laneOp_add.foldl_append (fun _ _ => trivial) fun _ _ => trivial,
      laneOp_add.foldl_start (fun _ _ => trivial) trivial, laneOp_add.seed_op trivial,
      foldl_sad8w D (X.drop 8) (by rw [List.length_drop]; omega)]

/-- A word is its low byte and 256 times its high byte, each in a byte lane of its own (R184). -/
theorem splitWord (v : BitVec 16) :
    ((bytesOfLane (loLane v)).map (BitVec.setWidth 64)).foldl (fun a b => a + b) (0 : DWord) +
      ((bytesOfLane (hiLane v)).map (BitVec.setWidth 64)).foldl (fun a b => a + b) (0 : DWord) * 256 =
        v.setWidth 64 := by
  have low : (loLane v).toNat = v.toNat % 256 := by
    simpa [loLane] using Nat.and_two_pow_sub_one_eq_mod v.toNat 8
  have high : (hiLane v).toNat = v.toNat / 256 := by
    simp [hiLane, Nat.shiftRight_eq_div_pow]
  have zero : (0 : DWord).toNat = 0 := rfl
  have byte : (256 : DWord).toNat = 256 := rfl
  have := v.isLt
  apply BitVec.eq_of_toNat_eq
  simp only [bytesOfLane, List.map_cons, List.map_nil, List.foldl_cons, List.foldl_nil, BitVec.toNat_add,
    BitVec.toNat_mul, BitVec.toNat_setWidth, BitVec.extractLsb'_toNat, zero, byte, low, high,
    Nat.shiftRight_eq_div_pow]
  omega

/-- SPLITSUM adds up every word beneath its lanes (R184). -/
theorem foldl_splitSum (D : Nat) (X : List (BitVec 16)) (h : X.length = 4 * D) :
    (splitSum D X).foldl (fun a b => a + b) 0 = (X.map (BitVec.setWidth 64)).foldl (fun a b => a + b) 0 := by
  have words : ∀ (f : BitVec 16 → BitVec 16), ((X.map f).flatMap bytesOfLane).length = 8 * D := by
    intro f
    simp [List.length_flatMap, bytesOfLane, Function.comp_def, h]
    omega
  have scaled (V : List DWord) : (V.map fun v => v * 256).foldl (fun a b => a + b) 0 =
      V.foldl (fun a b => a + b) 0 * 256 := by
    rw [List.foldl_map]
    exact List.foldl_hom (init := 0) (fun v : DWord => v * 256) fun a b => (add_mul a b 256).symm
  have parts : splitSum D X = List.zipWith (fun a b => a + b) (sad8w D ((X.map loLane).flatMap bytesOfLane))
      ((sad8w D ((X.map hiLane).flatMap bytesOfLane)).map fun v => v * 256) := by
    rw [splitSum, List.zipWith_map_right]
    refine congrArg (List.zipWith · _ _) (funext₂ fun lo hi => ?_)
    rw [BitVec.shiftLeft_eq_mul_twoPow]
    rfl
  rw [parts, laneOp_add.foldl_zipWith (by simp) (fun _ _ => trivial) fun _ _ => trivial, scaled,
    foldl_sad8w D _ (words loLane), foldl_sad8w D _ (words hiLane)]
  clear h words parts
  induction X with
  | nil => rfl
  | cons v X ih =>
    simp only [List.map_cons, List.flatMap_cons, List.map_append, List.foldl_cons]
    rw [laneOp_add.foldl_append (fun _ _ => trivial) fun _ _ => trivial,
      laneOp_add.foldl_append (fun _ _ => trivial) fun _ _ => trivial,
      laneOp_add.foldl_start (fun _ _ => trivial) trivial (a := 0 + v.setWidth 64), ← ih, ← splitWord v,
      laneOp_add.seed_op trivial]
    ring

/-- `|a - b|` of words, as two saturating subtractions (R185). -/
theorem absDiffU16_eq (a b : BitVec 16) : absDiffU16 a b = if a < b then b - a else a - b := by
  unfold absDiffU16 satsubU16
  rcases BitVec.lt_trichotomy a b with h | rfl | h
  · simp [h, BitVec.not_le.2 h, BitVec.le_of_lt h]
  · simp
  · simp [BitVec.not_le.2 h, BitVec.le_of_lt h, BitVec.not_lt.2 (BitVec.le_of_lt h)]

/-- FINAL of an accumulator of sums: the sum of every term of the walk (R188, R289). -/
theorem hsumU64_chunks {D n k : Nat} (hD : D = 2 ^ k) (hn : 0 < n) {lanes : Nat → Nat → List DWord}
    {terms : Nat → Nat → DWord} (rows width : Nat) (length : ∀ r k, (lanes r k).length = D)
    (total : ∀ r k, (lanes r k).foldl (fun a b => a + b) 0 =
      (maskedChunk (terms r) 0 n width k).foldl (fun a b => a + b) 0) :
    hsumU64 ((grid rows (ceilDiv width n) lanes).foldl addLanes (List.replicate D 0)) =
      (grid rows width terms).foldl (fun a b => a + b) 0 := by
  refine (laneOp_add.htree_chunks hD 0 fun c hc => ⟨?_, fun _ _ => trivial⟩).trans ?_
  · obtain ⟨r, -, k, -, rfl⟩ := mem_grid.1 hc
    exact length r k
  · rw [← laneOp_add.foldl_grid_maskedChunks (fun _ _ => trivial) hn, flatten_grid, flatten_grid]
    exact laneOp_add.foldl_flatMap (fun _ _ _ _ => trivial) (fun _ _ _ _ => trivial) fun r _ =>
      laneOp_add.foldl_flatMap (fun _ _ _ _ => trivial) (fun _ _ _ _ => trivial) fun k _ => total r k

/-! ### The integer walks (R132, R188) -/

/-- An integer result whose fields are the folds of the lanes' samples meets the contract (R132). -/
theorem contract_of_lane_folds {fmt : Format} {P : Planes} {m : Memory} {x : Args} (hw : 1 ≤ x.width)
    (hh : 1 ≤ x.height) {res : KernelResult}
    (mn : res.mn = ((grid x.height x.width (laneSample fmt m x.src1 x.stride1)).foldl
      (fun a b => if b < a then b else a) (BitVec.allOnes _)).setWidth 32)
    (mx : res.mx = ((grid x.height x.width (laneSample fmt m x.src1 x.stride1)).foldl
      (fun a b => if a < b then b else a) 0).setWidth 32)
    (sm : res.sm = (grid x.height x.width fun r c =>
      (laneSample fmt m x.src1 x.stride1 r c).setWidth 64).foldl (fun a b => a + b) 0)
    (df : P = .two → res.df = (grid x.height x.width fun r c =>
      (if laneSample fmt m x.src1 x.stride1 r c < laneSample fmt m x.src2 x.stride2 r c then
        laneSample fmt m x.src2 x.stride2 r c - laneSample fmt m x.src1 x.stride1 r c
      else laneSample fmt m x.src1 x.stride1 r c - laneSample fmt m x.src2 x.stride2 r c).setWidth 64).foldl
        (fun a b => a + b) 0) :
    Contract P (x.samples1 fmt m) (x.samples2 fmt m) res := by
  have word (v : BitVec (8 * sampleSize fmt)) : (v.setWidth 32).toNat = v.toNat := by
    have fits : 2 ^ (8 * sampleSize fmt) ≤ 2 ^ 32 := by cases fmt <;> norm_num [sampleSize]
    rw [BitVec.toNat_setWidth, Nat.mod_eq_of_lt (v.isLt.trans_le fits)]
  have numbers : (x.samples1 fmt m).map BitVec.toNat =
      (grid x.height x.width (laneSample fmt m x.src1 x.stride1)).map BitVec.toNat := by
    rw [map_grid]
    exact map_sampleSeq id fmt m x.src1 x.stride1 x.width x.height
  refine contract_of_folds hw hh ?_ ?_ ?_ fun two => ?_
  · rw [mn, word, numbers, List.foldl_map, ← BitVec.toNat_allOnes]
    exact (List.foldl_hom BitVec.toNat fun a b => (toNat_umin a b).symm).symm
  · rw [mx, word, numbers, List.foldl_map, ← BitVec.toNat_zero]
    exact (List.foldl_hom BitVec.toNat fun a b => (toNat_umax a b).symm).symm
  · rw [sm, Args.samples1, map_sampleSeq]
    simp only [BitVec.ofNat_toNat]
  · rw [df two, Args.samples1, Args.samples2, sampleSeq_eq_grid, sampleSeq_eq_grid, zipWith_grid]
    simp only [← laneSample_toNat, ← toNat_absDiff, BitVec.ofNat_toNat]

section Walks

variable {W : Nat} (hW : W = 128 ∨ W = 256)
include hW

/-- The selected lanes of a chunk are the row's samples and the neutral value (R172, R175). -/
theorem sel_loadChunk_map {fmt : Format} {width k : Nat} (hk : k < chunksPerRow fmt W width) {α : Type}
    (φ : BitVec (8 * sampleSize fmt) → α) (neutral : α) (m : Memory) (base : Nat) (stride : Int) (r : Nat) :
    sel (laneMask (8 * sampleSize fmt) (laneCount fmt W) width k)
        ((loadChunk W (8 * sampleSize fmt) (laneCount fmt W) m
          (rowAddr base stride r + k * laneCount fmt W * sampleSize fmt)).map φ) neutral =
      maskedChunk (fun c => φ (laneSample fmt m base stride r c)) neutral (laneCount fmt W) width k := by
  obtain ⟨e, lanes, small⟩ := laneCount_eq_two_pow hW fmt
  rw [loadChunk_eq_laneSamples hW, List.map_map]
  exact sel_laneMask (lanes.trans_le (Nat.pow_le_pow_right (by norm_num) small)) (laneCount_pos fmt hW) hk
    (fun c => φ (laneSample fmt m base stride r c)) neutral

theorem sel_loadChunk {fmt : Format} {width k : Nat} (hk : k < chunksPerRow fmt W width)
    (neutral : BitVec (8 * sampleSize fmt)) (m : Memory) (base : Nat) (stride : Int) (r : Nat) :
    sel (laneMask (8 * sampleSize fmt) (laneCount fmt W) width k)
        (loadChunk W (8 * sampleSize fmt) (laneCount fmt W) m
          (rowAddr base stride r + k * laneCount fmt W * sampleSize fmt)) neutral =
      maskedChunk (laneSample fmt m base stride r) neutral (laneCount fmt W) width k := by
  have := sel_loadChunk_map hW hk id neutral m base stride r
  rwa [List.map_id] at this

/-- The selected differences of two chunks (R175, R185, R187). -/
theorem sel_zipWith_loadChunk {fmt : Format} {width k : Nat} (hk : k < chunksPerRow fmt W width) {α : Type}
    (φ : BitVec (8 * sampleSize fmt) → BitVec (8 * sampleSize fmt) → α) (neutral : α) (m : Memory) (base base' : Nat)
    (stride stride' : Int) (r : Nat) :
    sel (laneMask (8 * sampleSize fmt) (laneCount fmt W) width k)
        (List.zipWith φ
          (loadChunk W (8 * sampleSize fmt) (laneCount fmt W) m
            (rowAddr base stride r + k * laneCount fmt W * sampleSize fmt))
          (loadChunk W (8 * sampleSize fmt) (laneCount fmt W) m
            (rowAddr base' stride' r + k * laneCount fmt W * sampleSize fmt))) neutral =
      maskedChunk (fun c => φ (laneSample fmt m base stride r c) (laneSample fmt m base' stride' r c)) neutral
        (laneCount fmt W) width k := by
  obtain ⟨e, lanes, small⟩ := laneCount_eq_two_pow hW fmt
  rw [loadChunk_eq_laneSamples hW, loadChunk_eq_laneSamples hW, List.zipWith_map, List.zipWith_self]
  exact sel_laneMask (lanes.trans_le (Nat.pow_le_pow_right (by norm_num) small)) (laneCount_pos fmt hW) hk
    (fun c => φ (laneSample fmt m base stride r c) (laneSample fmt m base' stride' r c)) neutral

/-- The accumulator lanes of 64 bits are a power of two too (R178). -/
theorem accLanes_eq_two_pow : ∃ k, W / 64 = 2 ^ k := by
  obtain rfl | rfl := hW
  exacts [⟨1, rfl⟩, ⟨2, rfl⟩]

variable (P : Planes) (m : Memory) (x : Args)

theorem walkU8_hmin : hminU8 (walkU8 W P m x).vmin =
    (grid x.height x.width (laneSample .u8 m x.src1 x.stride1)).foldl (fun a b => if b < a then b else a)
      (BitVec.allOnes _) := by
  obtain ⟨e, lanes, -⟩ := laneCount_eq_two_pow hW .u8
  have register : (walkU8 W P m x).vmin = _ := vecLoop_register (op := List.zipWith minU8) VecAcc.vmin _
    fun r _ k hk acc => congrArg (List.zipWith minU8 acc.vmin) (sel_loadChunk hW hk _ m x.src1 x.stride1 r)
  rw [register]
  exact laneOp_umin.htree_maskedChunks (fun _ _ => trivial) lanes 0 x.height x.width

theorem walkU8_hmax : hmaxU8 (walkU8 W P m x).vmax =
    (grid x.height x.width (laneSample .u8 m x.src1 x.stride1)).foldl (fun a b => if a < b then b else a) 0 := by
  obtain ⟨e, lanes, -⟩ := laneCount_eq_two_pow hW .u8
  have register : (walkU8 W P m x).vmax = _ := vecLoop_register (op := List.zipWith maxU8) VecAcc.vmax _
    fun r _ k hk acc => congrArg (List.zipWith maxU8 acc.vmax) (sel_loadChunk hW hk _ m x.src1 x.stride1 r)
  rw [register]
  exact laneOp_umax.htree_maskedChunks (fun _ _ => trivial) lanes 0 x.height x.width

/-- A register that adds the byte sums of masked chunks ends with the sum over the grid (R181, R183). -/
theorem hsumU64_sad8w (value : Nat → Nat → BitVec 8) (rows width : Nat) :
    hsumU64 ((grid rows (chunksPerRow .u8 W width) fun r k =>
      sad8w (W / 64) (maskedChunk (value r) 0 (laneCount .u8 W) width k)).foldl addLanes (List.replicate (W / 64) 0)) =
      (grid rows width fun r c => (value r c).setWidth 64).foldl (fun a b => a + b) 0 := by
  obtain ⟨e, lanes⟩ := accLanes_eq_two_pow hW
  have bytes : laneCount .u8 W = 8 * (W / 64) := by obtain rfl | rfl := hW <;> rfl
  refine hsumU64_chunks lanes (laneCount_pos .u8 hW) rows width (fun r k => length_sad8w _ _) fun r k => ?_
  rw [foldl_sad8w _ _ ((length_maskedChunk _ _ _ _ _).trans bytes), map_maskedChunk]
  rfl

/-- A register that adds the word sums of masked chunks ends with the sum over the grid (R184). -/
theorem hsumU64_splitSum (value : Nat → Nat → BitVec 16) (rows width : Nat) :
    hsumU64 ((grid rows (chunksPerRow .u16 W width) fun r k =>
      splitSum (W / 64) (maskedChunk (value r) 0 (laneCount .u16 W) width k)).foldl addLanes
        (List.replicate (W / 64) 0)) =
      (grid rows width fun r c => (value r c).setWidth 64).foldl (fun a b => a + b) 0 := by
  obtain ⟨e, lanes⟩ := accLanes_eq_two_pow hW
  have words : laneCount .u16 W = 4 * (W / 64) := by obtain rfl | rfl := hW <;> rfl
  refine hsumU64_chunks lanes (laneCount_pos .u16 hW) rows width (fun r k => length_splitSum _ _) fun r k => ?_
  rw [foldl_splitSum _ _ ((length_maskedChunk _ _ _ _ _).trans words), map_maskedChunk]
  rfl

theorem walkU8_hsum : hsumU64 (walkU8 W P m x).vsum =
    (grid x.height x.width fun r c => (laneSample .u8 m x.src1 x.stride1 r c).setWidth 64).foldl
      (fun a b => a + b) 0 := by
  have register : (walkU8 W P m x).vsum = _ := vecLoop_register (op := addLanes) VecAcc.vsum _
    fun r _ k hk acc => congrArg (fun X => addLanes acc.vsum (sad8w (W / 64) X))
      (sel_loadChunk hW hk _ m x.src1 x.stride1 r)
  rw [register]
  exact hsumU64_sad8w hW (laneSample .u8 m x.src1 x.stride1) x.height x.width

theorem walkU8_hdiff : hsumU64 (walkU8 W .two m x).vdiff =
    (grid x.height x.width fun r c =>
      (absDiffU8 (laneSample .u8 m x.src1 x.stride1 r c) (laneSample .u8 m x.src2 x.stride2 r c)).setWidth 64).foldl
        (fun a b => a + b) 0 := by
  have register : (walkU8 W .two m x).vdiff = _ := vecLoop_register (op := addLanes) VecAcc.vdiff _
    fun r _ k hk acc => (congrArg₂ (fun X Y => addLanes acc.vdiff (sad8 (W / 64) X Y))
      (sel_loadChunk hW hk _ m x.src1 x.stride1 r) (sel_loadChunk hW hk _ m x.src2 x.stride2 r)).trans
        (congrArg (fun X => addLanes acc.vdiff (sad8w (W / 64) X)) (zipWith_maskedChunk _ _ _ _ _ _ _ _))
  rw [register]
  exact hsumU64_sad8w hW (fun r c => absDiffU8 (laneSample .u8 m x.src1 x.stride1 r c)
    (laneSample .u8 m x.src2 x.stride2 r c)) x.height x.width

/-- The U8 walk of a vector tier meets the contract (R132, R190). -/
theorem contract_walkU8 (hw : 1 ≤ x.width) (hh : 1 ≤ x.height) :
    Contract P (x.samples1 .u8 m) (x.samples2 .u8 m) (finalU8 (walkU8 W P m x)) := by
  refine contract_of_lane_folds hw hh (congrArg (BitVec.setWidth 32) (walkU8_hmin hW P m x))
    (congrArg (BitVec.setWidth 32) (walkU8_hmax hW P m x)) (walkU8_hsum hW P m x) fun two => ?_
  subst two
  exact walkU8_hdiff hW m x

/-! ### The biased U16 compare (R177, R179, R188) -/

omit hW

/-- Un-biasing undoes biasing (R177). -/
theorem ofLaneU16_toLaneU16 (W : Nat) (v : BitVec 16) : ofLaneU16 W (toLaneU16 W v) = v := by
  unfold ofLaneU16 toLaneU16 unbias bias
  split
  · exact BitVec.sub_add_cancel v _
  · rfl

/-- A biased word read as a signed number is the word less 2^15. -/
theorem toInt_bias (v : BitVec 16) : (bias v).toInt = (v.toNat : Int) - 2 ^ 15 := by
  have half : (0x8000 : BitVec 16).toNat = 2 ^ 15 := rfl
  have := v.isLt
  rw [bias, BitVec.toInt_eq_toNat_cond, BitVec.toNat_sub, half]
  split <;> omega

/-- The bias keeps the order, signed after and unsigned before (R177). -/
theorem slt_bias (a b : BitVec 16) : (bias a).slt (bias b) = true ↔ a < b := by
  rw [BitVec.slt_iff_toInt_lt, toInt_bias, toInt_bias, BitVec.lt_def]
  omega

/-- The lane-wise minimum of the lane domain is the unsigned one of the samples (R177, R179). -/
theorem laneMinU16_toLane (W : Nat) (a b : BitVec 16) :
    laneMinU16 W (toLaneU16 W a) (toLaneU16 W b) = toLaneU16 W (minU16 a b) := by
  unfold laneMinU16 toLaneU16 minI16 minU16
  split
  · simp only [slt_bias]
    split <;> rfl
  · rfl

theorem laneMaxU16_toLane (W : Nat) (a b : BitVec 16) :
    laneMaxU16 W (toLaneU16 W a) (toLaneU16 W b) = toLaneU16 W (maxU16 a b) := by
  unfold laneMaxU16 toLaneU16 maxI16 maxU16
  split
  · simp only [slt_bias]
    split <;> rfl
  · rfl

theorem toLaneU16_ofLaneU16 (W : Nat) (v : BitVec 16) : toLaneU16 W (ofLaneU16 W v) = v := by
  unfold ofLaneU16 toLaneU16 unbias bias
  split
  · exact BitVec.add_sub_cancel v _
  · rfl

theorem nminU16_eq (W : Nat) : nminU16 W = toLaneU16 W (BitVec.allOnes 16) := by
  unfold nminU16 toLaneU16
  split <;> rfl

theorem nmaxU16_eq (W : Nat) : nmaxU16 W = toLaneU16 W 0 := by
  unfold nmaxU16 toLaneU16
  split <;> rfl

/-- A lane operation of samples is one in the lane domain of their tier too (R177). -/
theorem LaneOp.toLaneU16 {op laneOp : BitVec 16 → BitVec 16 → BitVec 16} {seed : BitVec 16} (h : LaneOp op seed Any)
    {W : Nat} (hom : ∀ a b, laneOp (toLaneU16 W a) (toLaneU16 W b) = toLaneU16 W (op a b)) :
    LaneOp laneOp (toLaneU16 W seed) Any := by
  have fromLane (v : BitVec 16) : ∃ a, v = Machine.toLaneU16 W a := ⟨_, (toLaneU16_ofLaneU16 W v).symm⟩
  refine ⟨trivial, fun _ _ => trivial, fun {a} _ => ?_, fun {a b} _ _ => ?_, fun {a b c} _ _ _ => ?_⟩
  · obtain ⟨a, rfl⟩ := fromLane a
    rw [hom, h.op_seed trivial]
  · obtain ⟨a, rfl⟩ := fromLane a
    obtain ⟨b, rfl⟩ := fromLane b
    rw [hom, hom, h.comm trivial trivial]
  · obtain ⟨a, rfl⟩ := fromLane a
    obtain ⟨b, rfl⟩ := fromLane b
    obtain ⟨c, rfl⟩ := fromLane c
    simp only [hom, h.assoc trivial trivial trivial]

/-- FINAL folds the lanes with the walk's own lane operation (R188). -/
theorem finalU16_mn (W : Nat) (v : VecAcc 16) :
    (finalU16 W v).mn = (ofLaneU16 W (htree (laneMinU16 W) 0 v.vmin)).setWidth 32 := by
  have lane : laneMinU16 W = if biasedTier W then minI16 else minU16 := by
    funext a b
    unfold laneMinU16
    split <;> rfl
  rw [lane, finalU16]
  dsimp only
  split <;> rfl

theorem finalU16_mx (W : Nat) (v : VecAcc 16) :
    (finalU16 W v).mx = (ofLaneU16 W (htree (laneMaxU16 W) 0 v.vmax)).setWidth 32 := by
  have lane : laneMaxU16 W = if biasedTier W then maxI16 else maxU16 := by
    funext a b
    unfold laneMaxU16
    split <;> rfl
  rw [lane, finalU16]
  dsimp only
  split <;> rfl

include hW

/-- A register that folds words in the lane domain ends with their fold, once out of that domain (R177, R188). -/
theorem htree_laneDomain {op laneOp : BitVec 16 → BitVec 16 → BitVec 16} {seed laneSeed : BitVec 16}
    (h : LaneOp op seed Any) (hom : ∀ a b, laneOp (toLaneU16 W a) (toLaneU16 W b) = toLaneU16 W (op a b))
    (hseed : laneSeed = toLaneU16 W seed) (value : Nat → Nat → BitVec 16) (rows width : Nat) :
    ofLaneU16 W (htree laneOp 0 ((grid rows (chunksPerRow .u16 W width) fun r =>
      maskedChunk (fun c => toLaneU16 W (value r c)) laneSeed (laneCount .u16 W) width).foldl
        (List.zipWith laneOp) (List.replicate (laneCount .u16 W) laneSeed))) =
      (grid rows width value).foldl op seed := by
  obtain ⟨e, lanes, -⟩ := laneCount_eq_two_pow hW .u16
  have fold := (h.toLaneU16 hom).htree_maskedChunks (fun _ _ => trivial) lanes 0 rows width
    (value := fun r c => toLaneU16 W (value r c))
  rw [hseed]
  refine (congrArg (ofLaneU16 W) fold).trans ?_
  rw [← map_grid (toLaneU16 W), List.foldl_map, List.foldl_hom (toLaneU16 W) (g₁ := op) hom, ofLaneU16_toLaneU16]

theorem walkU16_hmin : ofLaneU16 W (htree (laneMinU16 W) 0 (walkU16 W P m x).vmin) =
    (grid x.height x.width (laneSample .u16 m x.src1 x.stride1)).foldl (fun a b => if b < a then b else a)
      (BitVec.allOnes _) := by
  have register : (walkU16 W P m x).vmin = _ := vecLoop_register (op := List.zipWith (laneMinU16 W)) VecAcc.vmin _
    fun r _ k hk acc => congrArg (List.zipWith (laneMinU16 W) acc.vmin)
      (sel_loadChunk_map hW hk (toLaneU16 W) _ m x.src1 x.stride1 r)
  rw [register]
  exact htree_laneDomain hW laneOp_umin (laneMinU16_toLane W) (nminU16_eq W) (laneSample .u16 m x.src1 x.stride1)
    x.height x.width

theorem walkU16_hmax : ofLaneU16 W (htree (laneMaxU16 W) 0 (walkU16 W P m x).vmax) =
    (grid x.height x.width (laneSample .u16 m x.src1 x.stride1)).foldl (fun a b => if a < b then b else a) 0 := by
  have register : (walkU16 W P m x).vmax = _ := vecLoop_register (op := List.zipWith (laneMaxU16 W)) VecAcc.vmax _
    fun r _ k hk acc => congrArg (List.zipWith (laneMaxU16 W) acc.vmax)
      (sel_loadChunk_map hW hk (toLaneU16 W) _ m x.src1 x.stride1 r)
  rw [register]
  exact htree_laneDomain hW laneOp_umax (laneMaxU16_toLane W) (nmaxU16_eq W) (laneSample .u16 m x.src1 x.stride1)
    x.height x.width

theorem walkU16_hsum : hsumU64 (walkU16 W P m x).vsum =
    (grid x.height x.width fun r c => (laneSample .u16 m x.src1 x.stride1 r c).setWidth 64).foldl
      (fun a b => a + b) 0 := by
  have register : (walkU16 W P m x).vsum = _ := vecLoop_register (op := addLanes) VecAcc.vsum _
    fun r _ k hk acc => congrArg (fun X => addLanes acc.vsum (splitSum (W / 64) X))
      (sel_loadChunk hW hk _ m x.src1 x.stride1 r)
  rw [register]
  exact hsumU64_splitSum hW (laneSample .u16 m x.src1 x.stride1) x.height x.width

theorem walkU16_hdiff : hsumU64 (walkU16 W .two m x).vdiff =
    (grid x.height x.width fun r c =>
      (absDiffU16 (laneSample .u16 m x.src1 x.stride1 r c) (laneSample .u16 m x.src2 x.stride2 r c)).setWidth 64).foldl
        (fun a b => a + b) 0 := by
  have register : (walkU16 W .two m x).vdiff = _ := vecLoop_register (op := addLanes) VecAcc.vdiff _
    fun r _ k hk acc => congrArg (fun X => addLanes acc.vdiff (splitSum (W / 64) X))
      (sel_zipWith_loadChunk hW hk absDiffU16 _ m x.src1 x.src2 x.stride1 x.stride2 r)
  rw [register]
  exact hsumU64_splitSum hW (fun r c => absDiffU16 (laneSample .u16 m x.src1 x.stride1 r c)
    (laneSample .u16 m x.src2 x.stride2 r c)) x.height x.width

/-- The U16 walk of a vector tier meets the contract, biased compare or not (R132, R190). -/
theorem contract_walkU16 (hw : 1 ≤ x.width) (hh : 1 ≤ x.height) :
    Contract P (x.samples1 .u16 m) (x.samples2 .u16 m) (finalU16 W (walkU16 W P m x)) := by
  refine contract_of_lane_folds hw hh
    ((finalU16_mn W _).trans (congrArg (BitVec.setWidth 32) (walkU16_hmin hW P m x)))
    ((finalU16_mx W _).trans (congrArg (BitVec.setWidth 32) (walkU16_hmax hW P m x))) (walkU16_hsum hW P m x)
    fun two => ?_
  subst two
  have difference : absDiffU16 = fun a b => if a < b then b - a else a - b := funext₂ absDiffU16_eq
  have sums := walkU16_hdiff hW m x
  rw [difference] at sums
  exact sums

end Walks

end Sys2Proof.Machine

/-! ### The obligations settled: O9, O10 -/

section

open Sys2Proof Sys2Proof.Machine

/-- Settles O9: the lanes of the U8 walk fold to the samples. -/
theorem vectorByteCommandsWriteTheContract : Obligations.VectorByteCommandsWriteTheContract := by
  intro i s g h hm tier fmt
  obtain ⟨W, hW⟩ := exists_tierWidth tier
  refine exec_contract h hm (by simp [fmt]) rfl ?_
  rw [kernelOf_result, hW, fmt]
  exact contract_walkU8 (tierWidth_eq_some hW) i.planes s.mem _ h.dimensions.1 h.dimensions.2

/-- Settles O10: so do those of the U16 walk, in the lane domain of its tier. -/
theorem vectorWordCommandsWriteTheContract : Obligations.VectorWordCommandsWriteTheContract := by
  intro i s g h hm tier fmt
  obtain ⟨W, hW⟩ := exists_tierWidth tier
  refine exec_contract h hm (by simp [fmt]) rfl ?_
  rw [kernelOf_result, hW, fmt]
  exact contract_walkU16 (tierWidth_eq_some hW) i.planes s.mem _ h.dimensions.1 h.dimensions.2

end


/-! Proofs about the extrema of the F32 commands: on encodings that are no NaN the order of R133 is that of one integer
key, and a NaN never counts, so every tier folds the samples. -/

namespace Sys2Proof.Machine

/-! ### The order of R133 as an order of keys -/

/-- The place of an encoding that is no NaN in the order of R133: its magnitude, the negative ones below all others. -/
def floatKey (x : F32) : Int :=
  if signOf 23 8 x.toNat then -(magEnc 23 8 x.toNat : Int) - 1 else magEnc 23 8 x.toNat

/-- A true comparison has no NaN operand, and is that of the keys (R133). -/
theorem flt_iff (x y : F32) :
    flt x y = true ↔ (isNaN32 x = false ∧ isNaN32 y = false) ∧ floatKey x < floatKey y := by
  have order (a b : Nat) : magValue 23 a < magValue 23 b ↔ a < b := (strictMono_magValue 23).lt_iff_lt
  have xy := order (magEnc 23 8 x.toNat) (magEnc 23 8 y.toNat)
  have yx := order (magEnc 23 8 y.toNat) (magEnc 23 8 x.toNat)
  have x0 := magValue_eq_zero (fw := 23) (m := magEnc 23 8 x.toNat)
  have y0 := magValue_eq_zero (fw := 23) (m := magEnc 23 8 y.toNat)
  simp only [flt, Bool.and_eq_true, Bool.or_eq_true, Bool.not_eq_true', decide_eq_true_eq]
  refine and_congr_right fun _ => ?_
  unfold valueOf floatKey
  cases signOf 23 8 x.toNat <;> cases signOf 23 8 y.toNat <;>
    simp only [if_true, if_false, Bool.false_eq_true, reduceCtorEq, and_false, and_true, or_false] <;> omega

/-- Different encodings have different keys. -/
theorem floatKey_injective {x y : F32} (h : floatKey x = floatKey y) : x = y := by
  apply BitVec.eq_of_toNat_eq
  rw [← withSign_signOf_magEnc (fw := 23) (ew := 8) x.isLt, ← withSign_signOf_magEnc (fw := 23) (ew := 8) y.isLt]
  unfold floatKey at h
  cases hx : signOf 23 8 x.toNat <;> cases hy : signOf 23 8 y.toNat <;>
    simp only [hx, hy, if_true, if_false, Bool.false_eq_true] at h
  · rw [Int.natCast_inj.1 h]
  · omega
  · omega
  · rw [show magEnc 23 8 x.toNat = magEnc 23 8 y.toNat by omega]

/-- The encodings that are no NaN. -/
abbrev NoNaN (x : F32) : Prop := isNaN32 x = false

theorem magEnc_le_of_noNaN {x : F32} (h : NoNaN x) : magEnc 23 8 x.toNat ≤ infEnc 23 8 := by
  simpa [NoNaN, isNaN32, isNaNEnc] using h

/-- No key lies above that of +inf, or below that of -inf (R133). -/
theorem floatKey_le_posInf {x : F32} (h : NoNaN x) : floatKey x ≤ floatKey posInf32 := by
  have bound := magEnc_le_of_noNaN h
  have top : floatKey posInf32 = infEnc 23 8 := by decide
  rw [top, floatKey]
  split <;> omega

theorem negInf_le_floatKey {x : F32} (h : NoNaN x) : floatKey negInf32 ≤ floatKey x := by
  have bound := magEnc_le_of_noNaN h
  have bottom : floatKey negInf32 = -(infEnc 23 8 : Int) - 1 := by decide
  rw [bottom, floatKey]
  split <;> omega

/-! ### fmin_upd and fmax_upd as lane operations (R133, R174) -/

theorem laneOp_fmin : LaneOp fminUpd posInf32 NoNaN := by
  refine .of_key floatKey (fun a b ha hb => ?_) (by decide) (fun _ => floatKey_le_posInf) fun _ _ _ _ =>
    floatKey_injective
  simp only [fminUpd, flt_iff, ha, hb, and_self, true_and]

theorem laneOp_fmax : LaneOp fmaxUpd negInf32 NoNaN := by
  refine .of_key (fun x => OrderDual.toDual (floatKey x)) (fun a b ha hb => ?_) (by decide)
    (fun _ => negInf_le_floatKey) fun _ _ _ _ => floatKey_injective
  simp only [fmaxUpd, fgt, flt_iff, ha, hb, and_self, true_and]
  rfl

/-- A NaN counts as the neutral value of the extremum (R133, R174). -/
def dropNaN (neutral x : F32) : F32 := if isNaN32 x then neutral else x

theorem noNaN_dropNaN {neutral : F32} (h : NoNaN neutral) (x : F32) : NoNaN (dropNaN neutral x) := by
  unfold dropNaN
  split
  · exact h
  · next hx => exact Bool.eq_false_iff.2 hx

theorem fminUpd_dropNaN (acc x : F32) : fminUpd acc (dropNaN posInf32 x) = fminUpd acc x := by
  unfold dropNaN
  split
  · next hx =>
    have kept (y : F32) (h : ¬ flt y acc = true) : fminUpd acc y = acc := if_neg h
    rw [kept, kept]
    · simp [flt_iff, hx]
    · rw [flt_iff]
      rintro ⟨⟨-, hacc⟩, below⟩
      exact absurd (floatKey_le_posInf hacc) (not_le.2 below)
  · rfl

theorem fmaxUpd_dropNaN (acc x : F32) : fmaxUpd acc (dropNaN negInf32 x) = fmaxUpd acc x := by
  unfold dropNaN
  split
  · next hx =>
    have kept (y : F32) (h : ¬ flt acc y = true) : fmaxUpd acc y = acc := if_neg h
    rw [kept, kept]
    · simp [flt_iff, hx]
    · rw [flt_iff]
      rintro ⟨⟨hacc, -⟩, above⟩
      exact absurd (negInf_le_floatKey hacc) (not_le.2 above)
  · rfl

/-! ### The F32 walks (R133, R179, R188) -/

/-- A lane operation that ignores NaNs gives, after the walk and the tree, its fold over all samples. -/
theorem htree_dropNaN {op : F32 → F32 → F32} {seed : F32} (h : LaneOp op seed NoNaN)
    (ignores : ∀ acc x, op acc (dropNaN seed x) = op acc x) {n k : Nat} (hn : n = 2 ^ k) (none : F32)
    (value : Nat → Nat → F32) (rows width : Nat) :
    htree op none ((grid rows (ceilDiv width n) fun r => maskedChunk (value r) seed n width).foldl (List.zipWith op)
      (List.replicate n seed)) = (grid rows width value).foldl op seed := by
  have neutral : dropNaN seed seed = seed := by simp [dropNaN]
  have lanewise (acc X : List F32) : List.zipWith op acc X = List.zipWith op acc (X.map (dropNaN seed)) := by
    simp only [List.zipWith_map_right, ignores]
  have chunks : (grid rows (ceilDiv width n) fun r => maskedChunk (value r) seed n width).foldl (List.zipWith op)
      (List.replicate n seed) =
        (grid rows (ceilDiv width n) fun r => maskedChunk (fun c => dropNaN seed (value r c)) seed n width).foldl
          (List.zipWith op) (List.replicate n seed) := by
    have mapped : (grid rows (ceilDiv width n) fun r =>
        maskedChunk (fun c => dropNaN seed (value r c)) seed n width) =
          (grid rows (ceilDiv width n) fun r => maskedChunk (value r) seed n width).map (List.map (dropNaN seed)) := by
      rw [map_grid]
      simp only [map_maskedChunk, neutral]
    rw [mapped, List.foldl_map]
    simp only [← lanewise]
  rw [chunks, h.htree_maskedChunks (fun r c => noNaN_dropNaN h.ok_seed _) hn none, ← map_grid, List.foldl_map]
  simp only [ignores]

section Walks

variable {W : Nat} (hW : W = 128 ∨ W = 256) (P : Planes) (m : Memory) (x : Args)
include hW

theorem walkF32_hmin : hminF32 (walkF32 W P m x).vmin = (x.samples1 .f32 m).foldl fminUpd posInf32 := by
  obtain ⟨e, lanes, -⟩ := laneCount_eq_two_pow hW .f32
  have register : (walkF32 W P m x).vmin = _ := vecLoop_register (op := List.zipWith fminUpd) VecAcc.vmin _
    fun r _ k hk acc => congrArg (List.zipWith fminUpd acc.vmin) (sel_loadChunk hW hk _ m x.src1 x.stride1 r)
  rw [register]
  exact htree_dropNaN laneOp_fmin fminUpd_dropNaN lanes 0 (laneSample .f32 m x.src1 x.stride1) x.height x.width

theorem walkF32_hmax : hmaxF32 (walkF32 W P m x).vmax = (x.samples1 .f32 m).foldl fmaxUpd negInf32 := by
  obtain ⟨e, lanes, -⟩ := laneCount_eq_two_pow hW .f32
  have register : (walkF32 W P m x).vmax = _ := vecLoop_register (op := List.zipWith fmaxUpd) VecAcc.vmax _
    fun r _ k hk acc => congrArg (List.zipWith fmaxUpd acc.vmax) (sel_loadChunk hW hk _ m x.src1 x.stride1 r)
  rw [register]
  exact htree_dropNaN laneOp_fmax fmaxUpd_dropNaN lanes 0 (laneSample .f32 m x.src1 x.stride1) x.height x.width

end Walks

/-- Every tier's F32 extrema are the folds of R133 over the samples (R133, R190). -/
theorem kernelOf_f32_extrema {i : Instr} (hf : i.format = .f32) (m : Memory) (x : Args) (d : Datapath) :
    (kernelOf i m x d).2.mn = (x.samples1 .f32 m).foldl fminUpd posInf32 ∧
      (kernelOf i m x d).2.mx = (x.samples1 .f32 m).foldl fmaxUpd negInf32 := by
  rw [kernelOf_result, hf]
  split
  · exact ⟨scWalk_smin .f32 m x i.planes, scWalk_smax .f32 m x i.planes⟩
  · next W hW =>
    exact ⟨walkF32_hmin (tierWidth_eq_some hW) i.planes m x, walkF32_hmax (tierWidth_eq_some hW) i.planes m x⟩

end Sys2Proof.Machine

/-! ### The obligation settled: O11 -/

section

open Sys2Proof Sys2Proof.Machine

/-- Settles O11: every tier's walk folds the samples with R133's operations, whatever NaNs are among them. -/
theorem floatCommandsWriteTheOrderedExtrema : Obligations.FloatCommandsWriteTheOrderedExtrema := by
  intro i s g h hm hf
  obtain ⟨t, ht, mn, mx, -, -, frame⟩ := exec_ready_record h hm rfl rfl
  obtain ⟨least, greatest⟩ := kernelOf_f32_extrema hf s.mem (commandArgs i.planes g.args) g.datapath
  exact ⟨t, ht, mn.trans (congrArg BitVec.toNat least), mx.trans (congrArg BitVec.toNat greatest), frame⟩

end

/-! Proofs about the command word: its five fields make it up, so a word decodes to a command exactly when its fields
are the command's, that is when it is the command's encoding; what a CMD write of any other word does; and what the
host's `goto` and `let` do. -/

namespace Sys2Proof.Machine

/-! ### The fields of a command word (R100 to R104) -/

/-- A word is its five fields side by side (R100). -/
theorem word_eq_fields (w : Word) : w = wordRsv w ++ wordOp w ++ wordTier w ++ wordP2 w ++ wordFmt w := by
  have upTo (start n m : Nat) : w.extractLsb' (start + n) m ++ w.extractLsb' start n = w.extractLsb' start (m + n) :=
    BitVec.extractLsb'_append_extractLsb'_eq_extractLsb' rfl
  rw [wordRsv, wordOp, wordTier, wordP2, wordFmt, upTo 5 3, upTo 3 2, upTo 2 1, upTo 0 2]
  exact (BitVec.extractLsb'_eq_self).symm

theorem formatOf_eq_some_iff (b : BitVec 2) (f : Format) : formatOf b = some f ↔ b = fmtField f := by
  revert b
  cases f <;> decide

theorem tierOf_eq_some_iff (b : BitVec 2) (t : Tier) : tierOf b = some t ↔ b = tierField t := by
  revert b
  cases t <;> decide

theorem planesOf_eq_iff (b : BitVec 1) (P : Planes) : planesOf b = P ↔ b = p2Field P := by
  revert b
  cases P <;> decide

/-- FMT 3 alone names no format (R102). -/
theorem exists_formatOf_iff (b : BitVec 2) : (∃ f, formatOf b = some f) ↔ b ≠ 3 := by
  rw [← Option.isSome_iff_exists]
  revert b
  decide

/-- TIER 3 alone names no tier (R104). -/
theorem exists_tierOf_iff (b : BitVec 2) : (∃ t, tierOf b = some t) ↔ b ≠ 3 := by
  rw [← Option.isSome_iff_exists]
  revert b
  decide

/-! ### A command and its three selectors (R3, R105) -/

@[simp] theorem format_instrOf (f : Format) (P : Planes) (t : Tier) : (instrOf f P t).format = f := by
  cases f <;> cases P <;> cases t <;> rfl

@[simp] theorem planes_instrOf (f : Format) (P : Planes) (t : Tier) : (instrOf f P t).planes = P := by
  cases f <;> cases P <;> cases t <;> rfl

@[simp] theorem tier_instrOf (f : Format) (P : Planes) (t : Tier) : (instrOf f P t).tier = t := by
  cases f <;> cases P <;> cases t <;> rfl

@[simp] theorem instrOf_selectors (i : Instr) : instrOf i.format i.planes i.tier = i := by
  cases i <;> rfl

theorem instrOf_eq_iff (f : Format) (P : Planes) (t : Tier) (i : Instr) :
    instrOf f P t = i ↔ f = i.format ∧ P = i.planes ∧ t = i.tier := by
  constructor
  · rintro rfl
    simp
  · rintro ⟨rfl, rfl, rfl⟩
    exact instrOf_selectors i

/-- The table lists every command (R105). -/
theorem mem_allInstrs (i : Instr) : i ∈ allInstrs := by
  have tiers : i.tier ∈ [Tier.sc, .v128, .v256] := by cases i.tier <;> decide
  have planes : i.planes ∈ [Planes.one, .two] := by cases i.planes <;> decide
  have formats : i.format ∈ [Format.u8, .u16, .f32] := by cases i.format <;> decide
  exact List.mem_flatMap.2 ⟨i.tier, tiers, List.mem_flatMap.2 ⟨i.planes, planes,
    List.mem_map.2 ⟨i.format, formats, instrOf_selectors i⟩⟩⟩

/-! ### Decoding (R101, R105, R107, R108) -/

/-- A word decodes to a command exactly when RSV and OP are 0 and the other fields select it (R101). -/
theorem decode_eq_ok_iff (w : Word) (i : Instr) : decode w = .ok i ↔
    wordRsv w = 0 ∧ wordOp w = 0 ∧ formatOf (wordFmt w) = some i.format ∧ planesOf (wordP2 w) = i.planes ∧
      tierOf (wordTier w) = some i.tier := by
  unfold decode
  split_ifs with rsv op
  · exact iff_of_false nofun fun h => rsv h.1
  · exact iff_of_false nofun fun h => op h.2.1
  · cases formatOf (wordFmt w) with
    | none => simp
    | some f =>
      cases tierOf (wordTier w) with
      | none => simp
      | some t => simp [instrOf_eq_iff, not_not.1 rsv, not_not.1 op]

/-- Decoding finds a command in its own encoding alone, all 32 bits matched (R105). -/
theorem decode_eq_ok_iff_eq_encode (w : Word) (i : Instr) : decode w = .ok i ↔ w = encode i := by
  refine ⟨fun h => ?_, fun h => h ▸ decode_encode i⟩
  obtain ⟨rsv, op, fmt, p2, tier⟩ := (decode_eq_ok_iff w i).1 h
  rw [word_eq_fields w, rsv, op, (tierOf_eq_some_iff _ _).1 tier, (planesOf_eq_iff _ _).1 p2,
    (formatOf_eq_some_iff _ _).1 fmt]
  rfl

/-- The valid words: RSV and OP 0, FMT and TIER not reserved (R101). -/
theorem exists_decode_eq_ok_iff (w : Word) : (∃ i, decode w = .ok i) ↔
    wordRsv w = 0 ∧ wordOp w = 0 ∧ wordFmt w ≠ 3 ∧ wordTier w ≠ 3 := by
  simp only [decode_eq_ok_iff, ← exists_formatOf_iff (wordFmt w), ← exists_tierOf_iff (wordTier w)]
  constructor
  · rintro ⟨i, rsv, op, fmt, -, tier⟩
    exact ⟨rsv, op, ⟨_, fmt⟩, _, tier⟩
  · rintro ⟨rsv, op, ⟨f, fmt⟩, t, tier⟩
    exact ⟨instrOf f (planesOf (wordP2 w)) t, by simp [rsv, op, fmt, tier]⟩

theorem length_bytesOfWord : ∀ n v : Nat, (bytesOfWord n v).length = n
  | 0, _ => rfl
  | n + 1, v => congrArg (· + 1) (length_bytesOfWord n (v / 256))

/-- The low bytes of a number give back the number modulo their range (R62). -/
theorem wordOfBytes_bytesOfWord : ∀ n v : Nat, wordOfBytes (bytesOfWord n v) = v % 256 ^ n
  | 0, v => by simp [bytesOfWord, wordOfBytes, Nat.mod_one]
  | n + 1, v => by
    rw [bytesOfWord, wordOfBytes, wordOfBytes_bytesOfWord n (v / 256), pow_succ', Nat.mod_mul]
    rfl

/-- A CMD write of a whole word decodes as the word (R108). -/
theorem decodeTableWord_toNat (w : Word) : decodeTableWord 32 w.toNat = (decode w).toOption := by
  have bytes : decodeBytes (bytesOfWord 4 (w.toNat % 2 ^ 32)) = decode w := by
    rw [decodeBytes, if_pos (length_bytesOfWord 4 _), wordOfBytes_bytesOfWord, Nat.mod_eq_of_lt w.isLt,
      show 256 ^ 4 = 2 ^ 32 by norm_num, Nat.mod_eq_of_lt w.isLt, BitVec.ofNat_toNat, BitVec.setWidth_eq]
  exact congrArg Except.toOption bytes

theorem decodeTableWord_encode (i : Instr) : decodeTableWord 32 (encode i).toNat = some i := by
  rw [decodeTableWord_toNat, decode_encode]
  rfl

theorem decodeTableWord_reserved {w : Word}
    (h : ¬ (wordRsv w = 0 ∧ wordOp w = 0 ∧ wordFmt w ≠ 3 ∧ wordTier w ≠ 3)) : decodeTableWord 32 w.toNat = none := by
  rw [decodeTableWord_toNat]
  cases hw : decode w with
  | error => rfl
  | ok i => exact absurd ((exists_decode_eq_ok_iff w).1 ⟨i, hw⟩) h

/-! ### CMD writes that fault (R101, R104, R312) -/

/-- A fault raised on an idle engine is a fault taken (R312). -/
theorem faultTaken_raiseFault {s : State} {e : Nat} {g : Engine} (hg : s.engine? e = some g) (hi : g.status = .idle)
    (t : Nat) (acc : Access) (f : CommandFault) : FaultTaken s (s.raiseFault e t acc f) e t acc f := by
  have at_e : s.engines[e]? = some g := hg
  have engines : (s.raiseFault e t acc f).engines = s.engines.modify e fun g => { g with status := .faulted f } := by
    simp only [raiseFault_engines, List.modify_eq_set_getElem?, at_e, Option.map_eq_map, Option.map_some, hi,
      EngineStatus.afterFault]
  exact ⟨rfl, rfl, engines, fun k hk => by simp [hk.symm], rfl, rfl, rfl, rfl⟩

/-- A word is its own four-byte transaction (R108, R113). -/
theorem ofNat_transactionValue_toNat (w : Word) : BitVec.ofNat 32 (transactionValue 4 (w.toNat : Int)) = w := by
  have := w.isLt
  apply BitVec.eq_of_toNat_eq
  simp only [transactionValue, BitVec.toNat_ofNat]
  omega

/-- A CMD write of a word that is no command is ILLEGAL_COMMAND on an idle engine, atomic or not (R101). -/
theorem writeCmd_invalid {s : State} {g : Engine} (hg : s.engine? s.port.engine = some g) (hi : g.status = .idle)
    (hw : ∀ i, decode s.port.word ≠ .ok i) (atomic : Bool) :
    writeCmd atomic s = .next
      (s.raiseFault s.port.engine s.port.thread (.command s.port.word) (.illegalCommand s.port.word)) := by
  unfold writeCmd
  split
  · exact onIdleEngine_idle hg hi _
  · next i hok => exact absurd hok (hw i)

theorem isBusy_of_idle {g : Engine} (h : g.status = .idle) : g.isBusy = false := by
  simp [Engine.isBusy, h]

/-- START faults with TIER_UNAVAILABLE where the tier's CAPS bit is 0, before any other check (R104, R320). -/
theorem startFault_tierUnavailable {p : Platform} {i : Instr} (h : (capsValue p).getLsbD (capsBit i.tier) = false)
    (g : Engine) (w : Word) : startFault p g i w = some (.tierUnavailable w) := by
  have first : checkTier p i w = some (.tierUnavailable w) := if_neg (by simp [tierPresent, h])
  simp only [startFault, first, Option.some_or]

/-! ### Host control (R113) -/

theorem runThread_ifGoto {s : State} {t target : Nat} {th : Thread} {c : Cond} (ht : s.threads[t]? = some th)
    (hr : th.status = .ready) (hop : th.program[th.pos]? = some (.ifGoto c target)) (atomic : Bool) :
    runThread atomic t s = .next (if evalCond th.vars c then s.modifyThread t fun th => { th with pos := target }
      else s.advance t) := by
  rw [runThread_ready ht hr hop, hostOp]
  split <;> rfl

theorem runThread_letVar {s : State} {t x : Nat} {th : Thread} {v : Expr} (ht : s.threads[t]? = some th)
    (hr : th.status = .ready) (hop : th.program[th.pos]? = some (.letVar x v)) (atomic : Bool) :
    runThread atomic t s = .next (s.assign t x (evalExpr th.vars v)) :=
  runThread_ready ht hr hop atomic

end Sys2Proof.Machine

/-! ### The obligations settled: O1, O2, O3, O18, O36, O59 -/

section

open Sys2Proof Sys2Proof.Machine

/-- Settles O1: a word that decodes has the fields of its command, so it is the command's encoding. -/
theorem commandWordsAreExactlyTheTable : Obligations.CommandWordsAreExactlyTheTable :=
  ⟨decode_eq_ok_iff_eq_encode, mem_allInstrs, by decide⟩

/-- Settles O2: the fields decide whether a word decodes, and one that does not raises its fault on the idle engine. -/
theorem invalidWordsFaultIllegalCommand : Obligations.InvalidWordsFaultIllegalCommand := by
  refine ⟨exists_decode_eq_ok_iff, fun s t e g w atomic hg hi hw => ?_⟩
  have written := writeRegister_cmd hg (isBusy_of_idle hi) t atomic (w.toNat : Int)
  rw [ofNat_transactionValue_toNat] at written
  exact ⟨_, written.trans (writeCmd_invalid (s := s.atPort t e w) hg hi hw atomic),
    faultTaken_raiseFault (s := s.atPort t e w) hg hi t _ _⟩

/-- Settles O18: a command's TIER field is its tier's, and an absent tier fails the first check of START. -/
theorem absentTierFaults : Obligations.AbsentTierFaults := by
  refine ⟨fun i => ?_, rfl, rfl, rfl, rfl, fun i m x d => ?_, fun i s g hidle absent => ?_⟩
  · obtain ⟨-, -, -, -, tier⟩ := (decode_eq_ok_iff _ i).1 (decode_encode i)
    exact tier
  · cases i <;> rfl
  · exact takesFault_of_startFault hidle (startFault_tierUnavailable absent g _)

/-- Settles O3: the first four words are the encodings of their commands, the last four have a reserved field. -/
theorem sampleTableWordsDecode : Obligations.SampleTableWordsDecode :=
  ⟨decodeTableWord_encode .pstat1U8Sc, decodeTableWord_encode .pstat2F32Sc, decodeTableWord_encode .pstat2U16V128,
    decodeTableWord_encode .pstat1F32V256, decodeTableWord_reserved (w := 0x00000003) (by decide),
    decodeTableWord_reserved (w := 0x00000018) (by decide), decodeTableWord_reserved (w := 0x00000020) (by decide),
    decodeTableWord_reserved (w := 0x80000010) (by decide)⟩

/-- Settles O36: both operations change their own thread alone. -/
theorem hostControlMovesThePosition : Obligations.HostControlMovesThePosition := by
  intro s t target var th c x ht hr
  obtain ⟨inRange, -⟩ := List.getElem?_eq_some_iff.1 ht
  refine ⟨fun hop => ⟨_, runThread_ifGoto ht hr hop true, ?_⟩, fun hop => ⟨_, runThread_letVar ht hr hop true,
    varHolds_assign inRange var _, ?_, rfl, rfl⟩⟩
  · split
    · exact ⟨by simp [ht], rfl, rfl⟩
    · exact ⟨by simp [ht, Thread.advance], rfl, rfl⟩
  · simp [assign_threads, ht, Thread.advance]

/-- Settles O59: the plane count of the command decides which registers are written. -/
theorem pstatExpandsInOrder : Obligations.PstatExpandsInOrder := by
  intro e fmt t x
  constructor <;>
    · rw [pstat, planes_instrOf]
      rfl

end

/-! Proofs about what the vector float sums add up, that no float sum is -0.0, that a result depends on the sample bytes
alone, and the faults of a bad geometry or stride. -/

namespace Sys2Proof.Machine

/-! ### START's faults of geometry and stride (R134, R320) -/

section Geometry

variable {p : Platform} {g : Engine} {i : Instr} (ht : LegalTier p i) (hw : LegalWritten g i) (w : Word)
include ht hw

theorem startFault_from_geometry :
    startFault p g i w = (checkGeometry (commandArgs i.planes g.args)).or
      ((checkStride i (commandArgs i.planes g.args)).or ((checkAligned i (commandArgs i.planes g.args)).or
        ((checkRange i (commandArgs i.planes g.args)).or
          ((checkOverlap (footprint i g.args)).or (checkAccess p (footprint i g.args)))))) := by
  simp only [startFault, (checkTier_eq_none w).2 ht, checkWritten_eq_none.2 hw, Option.none_or]

theorem startFault_of_checkGeometry {f : CommandFault}
    (hf : checkGeometry (commandArgs i.planes g.args) = some f) : startFault p g i w = some f := by
  rw [startFault_from_geometry ht hw, hf, Option.some_or]

theorem startFault_of_checkStride (hd : LegalDimensions g i) {f : CommandFault}
    (hf : checkStride i (commandArgs i.planes g.args) = some f) : startFault p g i w = some f := by
  rw [startFault_from_geometry ht hw, checkGeometry_eq_none.2 hd, Option.none_or, hf, Option.some_or]

end Geometry

/-! ### The numeric order of binary32 (R133) -/

/-- A true comparison follows the numeric order (R133). -/
theorem valueOf_le_of_flt {x y : F32} (h : flt x y = true) : valueOf 23 8 x.toNat ≤ valueOf 23 8 y.toNat := by
  simp only [flt, Bool.and_eq_true, Bool.or_eq_true, decide_eq_true_eq] at h
  obtain ⟨-, below | ⟨⟨⟨x0, y0⟩, -⟩, -⟩⟩ := h
  · exact below.le
  · exact (x0.trans y0.symm).le

theorem flt_asymm {x y : F32} (h : flt x y = true) : flt y x = false := by
  rw [Bool.eq_false_iff, Ne, flt_iff]
  rintro ⟨-, above⟩
  exact lt_asymm above ((flt_iff x y).1 h).2

theorem flt_trans {x y z : F32} (hxy : flt x y = true) (hyz : flt y z = true) : flt x z = true := by
  obtain ⟨⟨hx, -⟩, xy⟩ := (flt_iff x y).1 hxy
  obtain ⟨⟨-, hz⟩, yz⟩ := (flt_iff y z).1 hyz
  exact (flt_iff x z).2 ⟨⟨hx, hz⟩, xy.trans yz⟩

/-- Different encodings that are no NaN have different keys, so one is below the other (R133). -/
theorem flt_total {x y : F32} (hx : NoNaN x) (hy : NoNaN y) (hne : x ≠ y) : flt x y = true ∨ flt y x = true := by
  rw [flt_iff, flt_iff]
  exact (lt_or_gt_of_ne (mt floatKey_injective hne)).imp (fun h => ⟨⟨hx, hy⟩, h⟩) fun h => ⟨⟨hy, hx⟩, h⟩

/-! ### A sum that is -0.0 (R13, R138(e)) -/

section NegativeZero

variable {fw ew x y : Nat}

theorem infEnc_pos (hew : 1 ≤ ew) : 0 < infEnc fw ew :=
  Nat.mul_pos (Nat.sub_pos_of_lt (Nat.one_lt_two_pow (by omega))) (by positivity)

/-- Rounding a magnitude that is not 0 does not give 0: one unit would be nearer. -/
theorem roundEnc_ne_zero (hfw : 1 ≤ fw) (hew : 2 ≤ ew) {n : Nat} (hn : n ≠ 0) : roundEnc fw ew n ≠ 0 := by
  have inf : 0 < infEnc fw ew := infEnc_pos (by omega)
  have one : magValue fw 1 = 1 := by
    simpa using magValue_scaled (fw := fw) (k := 0) (a := 1) Nat.one_le_two_pow (.inl rfl)
  have raw : roundMag fw n ≠ 0 := by
    intro h
    have zero : magValue fw (roundMag fw n) = 0 := by rw [h, magValue_zero]
    have nearer := (roundMag_isNearestMag hfw n 1).1
    omega
  rw [roundEnc_eq_min hew]
  omega

theorem magEnc_quietNaN_ne_zero (hfw : 1 ≤ fw) : magEnc fw ew (quietNaN fw ew) ≠ 0 := by
  rw [magEnc_of_lt (quietNaN_lt_signBit hfw), quietNaN]
  positivity

theorem nan_or_inf_or_finite (z : Nat) : isNaNEnc fw ew z = true ∨ isInfEnc fw ew z = true ∨ IsFinite fw ew z := by
  unfold IsFinite
  cases isNaNEnc fw ew z <;> cases isInfEnc fw ew z <;> simp

/-- A NaN or an infinity among the operands leaves one in the sum, so a zero sum has finite operands (R13). -/
theorem isFinite_of_zero_sum (hfw : 1 ≤ fw) (hew : 1 ≤ ew) (h : magEnc fw ew (addEnc fw ew x y) = 0) :
    IsFinite fw ew x ∧ IsFinite fw ew y := by
  have notNaN := magEnc_quietNaN_ne_zero (ew := ew) hfw
  have notInf {z : Nat} (hz : isInfEnc fw ew z = true) : magEnc fw ew z ≠ 0 :=
    (of_decide_eq_true hz).trans_ne (infEnc_pos hew).ne'
  obtain nx | ix | fx := nan_or_inf_or_finite (fw := fw) (ew := ew) x
  · exact absurd (addEnc_of_nan (.inl nx) ▸ h) notNaN
  all_goals obtain ny | iy | fy := nan_or_inf_or_finite (fw := fw) (ew := ew) y
  · exact absurd (addEnc_of_nan (.inr ny) ▸ h) notNaN
  · rw [addEnc_of_inf_inf ix iy] at h
    split at h
    · exact absurd h (notInf ix)
    · exact absurd h notNaN
  · exact absurd (addEnc_of_inf_finite ix fy ▸ h) (notInf ix)
  · exact absurd (addEnc_of_nan (.inr ny) ▸ h) notNaN
  · exact absurd (addEnc_of_finite_inf fx iy ▸ h) (notInf iy)
  · exact ⟨fx, fy⟩

/-- A sum is -0.0 only of two -0.0 (R13). -/
theorem addEnc_eq_signBit (hfw : 1 ≤ fw) (hew : 2 ≤ ew) (hx : x < 2 * signBit fw ew) (hy : y < 2 * signBit fw ew)
    (h : addEnc fw ew x y = signBit fw ew) : x = signBit fw ew ∧ y = signBit fw ew := by
  have zero : magEnc fw ew (addEnc fw ew x y) = 0 := by rw [h, magEnc, Nat.mod_self]
  obtain ⟨fx, fy⟩ := isFinite_of_zero_sum hfw (by omega) zero
  by_cases exact0 : valueOf fw ew x + valueOf fw ew y = 0
  · have sum := (isSum_addEnc hfw hew hx hy).zero fx fy exact0
    rw [h] at sum
    split at sum
    · assumption
    · exact absurd sum (by unfold signBit; positivity)
  · have bound : roundEnc fw ew (valueOf fw ew x + valueOf fw ew y).natAbs < signBit fw ew :=
      (roundEnc_eq_min hew _).trans_lt ((min_le_right _ _).trans_lt infEnc_lt_signBit)
    rw [addEnc_of_ne_zero fx fy exact0, magEnc_withSign _ bound] at zero
    exact absurd zero (roundEnc_ne_zero hfw hew (by omega))

end NegativeZero

/-- -0.0 of binary64 (R13). -/
abbrev negZero64 : F64 := 0x8000000000000000

/-- What is not -0.0 does not become it by adding to it (R138(e)). -/
theorem addF64_ne_negZero {a : F64} (b : F64) (h : a ≠ negZero64) : addF64 a b ≠ negZero64 := by
  intro sum
  have sign : addEnc 52 11 a.toNat b.toNat = signBit 52 11 := by
    rw [← addF64_toNat, sum]
    rfl
  obtain ⟨ha, -⟩ := addEnc_eq_signBit (by norm_num) (by norm_num) a.isLt b.isLt sign
  exact h (BitVec.eq_of_toNat_eq ha)

/-! ### Invariants of walks and of the tree -/

section Invariants

variable {α : Type} {P : α → Prop}

/-- What the seed satisfies and each step keeps, a loop over rows and chunks ends with (R137, R180). -/
theorem vecLoop_keeps {step : Nat → α → Nat → α} {seed : α} (rows chunks : Nat) (start : P seed)
    (keeps : ∀ r acc k, P acc → P (step r acc k)) : P (vecLoop step rows chunks seed) :=
  List.foldlRecOn _ _ start fun _ h r _ => List.foldlRecOn _ _ h fun acc h k _ => keeps r acc k h

/-- Lane-wise operations keep a property of the left operand's lanes. -/
theorem forall_mem_zipWith {β : Type} {op : α → β → α} (keeps : ∀ a b, P a → P (op a b)) :
    ∀ {V : List α} (X : List β), (∀ a ∈ V, P a) → ∀ a ∈ List.zipWith op V X, P a
  | [], _, _ => nofun
  | _ :: _, [], _ => nofun
  | v :: V, x :: X, h => by
    obtain ⟨hv, hV⟩ := List.forall_mem_cons.1 h
    exact List.forall_mem_cons.2 ⟨keeps v x hv, forall_mem_zipWith keeps X hV⟩

theorem forall_mem_halveLanes {op : α → α → α} (keeps : ∀ a b, P a → P (op a b)) :
    ∀ (fuel : Nat) {V : List α}, (∀ a ∈ V, P a) → ∀ a ∈ halveLanes op fuel V, P a
  | 0, _, h => h
  | fuel + 1, V, h => by
    rw [halveLanes]
    split
    · exact h
    · exact forall_mem_halveLanes keeps fuel
        (forall_mem_zipWith keeps _ fun a ha => h a (List.mem_of_mem_take ha))

/-- The tree keeps a property of every lane (R280). -/
theorem htree_keeps {op : α → α → α} (keeps : ∀ a b, P a → P (op a b)) {none : α} (hnone : P none) {V : List α}
    (h : ∀ a ∈ V, P a) : P (htree op none V) := by
  have lanes := forall_mem_halveLanes keeps V.length h
  rw [htree]
  cases hV : halveLanes op V.length V with
  | nil => exact hnone
  | cons v rest => exact lanes v (by simp [hV])

end Invariants

/-- The tree of two and of four lanes (R280). -/
theorem htree_two {α : Type} (op : α → α → α) (none a b : α) : htree op none [a, b] = op a b := by
  simp [htree, halveLanes, foldHalf]

theorem htree_four {α : Type} (op : α → α → α) (none a b c d : α) :
    htree op none [a, b, c, d] = op (op a c) (op b d) := by
  simp [htree, halveLanes, foldHalf]

/-! ### No float sum is -0.0 (R138(e), R189) -/

/-- Neither scalar sum is -0.0, from the +0.0 of the seeds on (R136, R137). -/
theorem scWalk_ne_negZero (P : Planes) (m : Memory) (x : Args) :
    (scWalk .f32 P m x).ssum ≠ negZero64 ∧ (scWalk .f32 P m x).sdiff ≠ negZero64 := by
  refine vecLoop_keeps (P := fun acc : ScalarRegs => acc.ssum ≠ negZero64 ∧ acc.sdiff ≠ negZero64)
    x.height x.width ⟨by decide, by decide⟩ fun r acc c ⟨sum, diff⟩ => ⟨addF64_ne_negZero _ sum, ?_⟩
  cases P with
  | one => exact diff
  | two => exact addF64_ne_negZero _ diff

theorem widenAdd_ne_negZero {V : List F64} (X : List F32) (h : ∀ v ∈ V, v ≠ negZero64) :
    ∀ v ∈ widenAdd V X, v ≠ negZero64 := by
  have half {V : List F64} (X : List F32) (h : ∀ v ∈ V, v ≠ negZero64) : ∀ v ∈ widenAddHalf V X, v ≠ negZero64 :=
    forall_mem_zipWith (P := (· ≠ negZero64)) (fun _ x => addF64_ne_negZero (f32ToF64 x)) X h
  exact half _ (half _ h)

/-- No lane of a vector sum is -0.0 (R178, R186). -/
theorem walkF32_ne_negZero (W : Nat) (P : Planes) (m : Memory) (x : Args) :
    (∀ v ∈ (walkF32 W P m x).vsum, v ≠ negZero64) ∧ (∀ v ∈ (walkF32 W P m x).vdiff, v ≠ negZero64) := by
  have seed : ∀ v ∈ List.replicate (W / 64) (0 : F64), v ≠ negZero64 := by
    intro v hv
    rw [List.eq_of_mem_replicate hv]
    decide
  refine vecLoop_keeps (P := fun acc : VecAcc 32 =>
    (∀ v ∈ acc.vsum, v ≠ negZero64) ∧ (∀ v ∈ acc.vdiff, v ≠ negZero64))
    x.height (chunksPerRow .f32 W x.width) ⟨seed, seed⟩ fun r acc k ⟨sum, diff⟩ => ⟨widenAdd_ne_negZero _ sum, ?_⟩
  cases P with
  | one => exact diff
  | two => exact widenAdd_ne_negZero _ diff

theorem hsumF64_ne_negZero {V : List F64} (h : ∀ v ∈ V, v ≠ negZero64) : hsumF64 V ≠ negZero64 :=
  htree_keeps (P := (· ≠ negZero64)) (fun _ b => addF64_ne_negZero b) (by decide) h

/-! ### The lanes of a vector float sum (R186, R189) -/

/-- WIDEN_ADD gives each lane its low sample and then its high one (R186). -/
theorem widenAdd_lanes (D : Nat) (v : Nat → F64) (x : Nat → F32) :
    widenAdd ((List.range D).map v) ((List.range (D + D)).map x) =
      (List.range D).map fun i => addF64 (addF64 (v i) (f32ToF64 (x i))) (f32ToF64 (x (D + i))) := by
  have lanes : (List.range (D + D)).map x = (List.range D).map x ++ (List.range D).map fun i => x (D + i) := by
    rw [List.range_add, List.map_append, List.map_map]
    rfl
  have length : ((List.range D).map v).length = ((List.range D).map x).length := by simp
  rw [widenAdd, lanes, length, List.take_left, List.drop_left, widenAddHalf, widenAddHalf, List.zipWith_map,
    List.zipWith_self, List.zipWith_map, List.zipWith_self]

/-- Chunk after chunk, each lane adds its own samples from the left (R186, R189). -/
theorem foldl_widenAdd_lanes (D : Nat) : ∀ (chunks : List (Nat → F32)) (v : Nat → F64),
    (chunks.map fun x => (List.range (D + D)).map x).foldl widenAdd ((List.range D).map v) =
      (List.range D).map fun i =>
        (chunks.flatMap fun x => [x i, x (D + i)]).foldl (fun acc a => addF64 acc (f32ToF64 a)) (v i)
  | [], _ => rfl
  | x :: chunks, v => by
    rw [List.map_cons, List.foldl_cons, widenAdd_lanes, foldl_widenAdd_lanes D chunks]
    rfl

/-- The terms of a lane, as those of the walk's chunks in turn (R189). -/
theorem laneTerms_eq_flatMap_grid (value : Nat → Nat → F32) (n width height i : Nat) :
    laneTerms value n width height i =
      (grid height (ceilDiv width n) fun r k => maskedLane value n width r k).flatMap fun x =>
        [x i, x (n / 2 + i)] := by
  simp only [laneTerms, grid, List.flatMap_assoc, List.flatMap_map]

section VectorSum

variable {W : Nat} (hW : W = 128 ∨ W = 256)
include hW

/-- The register of a vector float sum ends with each lane's left-to-right sum of its own terms (R189). -/
theorem foldl_widenAdd_maskedChunks (value : Nat → Nat → F32) (height width : Nat) :
    (grid height (chunksPerRow .f32 W width) fun r k =>
      maskedChunk (value r) 0 (laneCount .f32 W) width k).foldl widenAdd (List.replicate (W / 64) 0) =
      (List.range (W / 64)).map fun i => leftSum (laneTerms value (laneCount .f32 W) width height i) := by
  have count : laneCount .f32 W = W / 64 + W / 64 ∧ laneCount .f32 W / 2 = W / 64 := by
    obtain rfl | rfl := hW <;> decide
  have chunks : (grid height (chunksPerRow .f32 W width) fun r k =>
      maskedChunk (value r) 0 (laneCount .f32 W) width k) =
        (grid height (chunksPerRow .f32 W width) fun r k => maskedLane value (laneCount .f32 W) width r k).map
          fun x => (List.range (W / 64 + W / 64)).map x := by
    rw [map_grid, ← count.1]
    rfl
  have seeds : List.replicate (W / 64) (0 : F64) = (List.range (W / 64)).map fun _ => 0 := by simp
  simp only [laneTerms_eq_flatMap_grid, leftSum, count.2]
  rw [chunks, seeds, foldl_widenAdd_lanes]
  rfl

/-- FINAL adds up the lanes as R189 says (R188, R290). -/
theorem hsumF64_lanes (value : Nat → Nat → F32) (width height : Nat) :
    hsumF64 ((List.range (W / 64)).map fun i => leftSum (laneTerms value (laneCount .f32 W) width height i)) =
      vectorSum value W width height := by
  unfold vectorSum
  obtain rfl | rfl := hW
  · rw [if_pos rfl]
    exact htree_two addF64 0 _ _
  · rw [if_neg (by norm_num)]
    exact htree_four addF64 0 _ _ _ _

variable (P : Planes) (m : Memory) (x : Args)

/-- The sum of an F32 command of a vector tier is R189's closed form. -/
theorem walkF32_hsum : hsumF64 (walkF32 W P m x).vsum = vectorSum (sampleAt1 m x) W x.width x.height := by
  have register : (walkF32 W P m x).vsum = _ := vecLoop_register (op := widenAdd) VecAcc.vsum _
    fun r _ k hk acc => congrArg (widenAdd acc.vsum) (sel_loadChunk hW hk _ m x.src1 x.stride1 r)
  rw [register]
  exact (congrArg hsumF64 (foldl_widenAdd_maskedChunks hW (sampleAt1 m x) x.height x.width)).trans
    (hsumF64_lanes hW _ _ _)

/-- So is the diffSum, over the absolute differences of corresponding samples (R187, R189). -/
theorem walkF32_hdiff : hsumF64 (walkF32 W .two m x).vdiff =
    vectorSum (fun r c => absF32 (subF32 (sampleAt1 m x r c) (sampleAt2 m x r c))) W x.width x.height := by
  have register : (walkF32 W .two m x).vdiff = _ := vecLoop_register (op := widenAdd) VecAcc.vdiff _
    fun r _ k hk acc => congrArg (widenAdd acc.vdiff)
      (sel_zipWith_loadChunk hW hk absDiffF32 _ m x.src1 x.src2 x.stride1 x.stride2 r)
  rw [register]
  exact (congrArg hsumF64 (foldl_widenAdd_maskedChunks hW
    (fun r c => absF32 (subF32 (sampleAt1 m x r c) (sampleAt2 m x r c))) x.height x.width)).trans
      (hsumF64_lanes hW _ _ _)

end VectorSum

/-! ### Results depend on the samples alone (R146, R176) -/

/-- The same samples are the same bytes that tier SC, which reads none past a row's end, reads (R66, R146). -/
theorem SameSamples.readsAgree {i : Instr} {x : Args} {m m' : Memory} (h : SameSamples i x m m') :
    ReadsAgree .sc i.format i.planes x m m' :=
  ⟨fun r hr j hj => (h r hr j hj).1, fun two r hr j hj => (h r hr j hj).2 two⟩

/-- Samples are numbers of the format's width, so the bytes of a row say what a lane holds (R63, R172). -/
theorem RowsAgree.laneSample {m m' : Memory} {base : Nat} {stride : Int} {fmt : Format} {rows width : Nat}
    (h : RowsAgree m m' base stride rows (width * sampleSize fmt)) {r c : Nat} (hr : r < rows) (hc : c < width) :
    laneSample fmt m base stride r c = laneSample fmt m' base stride r c :=
  BitVec.eq_of_toNat_eq (by rw [laneSample_toNat, laneSample_toNat, h.sample le_rfl hr hc])

/-- Masking leaves nothing of the values past the row's end (R175, R176). -/
theorem maskedChunk_congr {α : Type} {value value' : Nat → α} (neutral : α) {n width k : Nat}
    (h : ∀ c, c < width → value c = value' c) :
    maskedChunk value neutral n width k = maskedChunk value' neutral n width k := by
  refine List.map_congr_left fun j _ => ?_
  split
  · next hc => exact h _ hc
  · rfl

/-- The accumulators of two walks are the same; the chunks last loaded may differ in over-read bytes. -/
structure VecAcc.Same {w : Nat} (v v' : VecAcc w) : Prop where
  vmin : v.vmin = v'.vmin
  vmax : v.vmax = v'.vmax
  vsum : v.vsum = v'.vsum
  vdiff : v.vdiff = v'.vdiff

/-- Loops whose steps keep a relation in range end in related values (R180). -/
theorem vecLoop_rel {α β : Type} {R : α → β → Prop} {step : Nat → α → Nat → α} {step' : Nat → β → Nat → β}
    {rows chunks : Nat} {seed : α} {seed' : β} (start : R seed seed')
    (h : ∀ r, r < rows → ∀ k, k < chunks → ∀ acc acc', R acc acc' → R (step r acc k) (step' r acc' k)) :
    R (vecLoop step rows chunks seed) (vecLoop step' rows chunks seed') :=
  List.foldl_rel start fun r hr _ _ rel => List.foldl_rel rel fun k hk _ _ =>
    h r (List.mem_range.1 hr) k (List.mem_range.1 hk) _ _

section SameSamples

variable {W : Nat} (hW : W = 128 ∨ W = 256) {fmt : Format} {P : Planes} {x : Args} {m m' : Memory}
include hW

/-- The selected lanes of a chunk are the same when the samples are (R175, R176). -/
theorem sel_loadChunk_map_congr {base : Nat} {stride : Int} {rows width : Nat}
    (h : RowsAgree m m' base stride rows (width * sampleSize fmt)) {r k : Nat} (hr : r < rows)
    (hk : k < chunksPerRow fmt W width) {α : Type} (φ : BitVec (8 * sampleSize fmt) → α) (neutral : α) :
    sel (laneMask (8 * sampleSize fmt) (laneCount fmt W) width k)
        ((loadChunk W (8 * sampleSize fmt) (laneCount fmt W) m
          (rowAddr base stride r + k * laneCount fmt W * sampleSize fmt)).map φ) neutral =
      sel (laneMask (8 * sampleSize fmt) (laneCount fmt W) width k)
        ((loadChunk W (8 * sampleSize fmt) (laneCount fmt W) m'
          (rowAddr base stride r + k * laneCount fmt W * sampleSize fmt)).map φ) neutral := by
  rw [sel_loadChunk_map hW hk, sel_loadChunk_map hW hk]
  exact maskedChunk_congr neutral fun c hc => congrArg φ (h.laneSample hr hc)

theorem sel_loadChunk_congr {base : Nat} {stride : Int} {rows width : Nat}
    (h : RowsAgree m m' base stride rows (width * sampleSize fmt)) {r k : Nat} (hr : r < rows)
    (hk : k < chunksPerRow fmt W width) (neutral : BitVec (8 * sampleSize fmt)) :
    sel (laneMask (8 * sampleSize fmt) (laneCount fmt W) width k)
        (loadChunk W (8 * sampleSize fmt) (laneCount fmt W) m
          (rowAddr base stride r + k * laneCount fmt W * sampleSize fmt)) neutral =
      sel (laneMask (8 * sampleSize fmt) (laneCount fmt W) width k)
        (loadChunk W (8 * sampleSize fmt) (laneCount fmt W) m'
          (rowAddr base stride r + k * laneCount fmt W * sampleSize fmt)) neutral := by
  have := sel_loadChunk_map_congr hW h hr hk id neutral
  rwa [List.map_id, List.map_id] at this

/-- So are the selected differences of two planes (R185, R187). -/
theorem sel_zipWith_loadChunk_congr {base base' : Nat} {stride stride' : Int} {rows width : Nat}
    (h : RowsAgree m m' base stride rows (width * sampleSize fmt))
    (h' : RowsAgree m m' base' stride' rows (width * sampleSize fmt)) {r k : Nat} (hr : r < rows)
    (hk : k < chunksPerRow fmt W width) {α : Type}
    (φ : BitVec (8 * sampleSize fmt) → BitVec (8 * sampleSize fmt) → α) (neutral : α) :
    sel (laneMask (8 * sampleSize fmt) (laneCount fmt W) width k)
        (List.zipWith φ
          (loadChunk W (8 * sampleSize fmt) (laneCount fmt W) m
            (rowAddr base stride r + k * laneCount fmt W * sampleSize fmt))
          (loadChunk W (8 * sampleSize fmt) (laneCount fmt W) m
            (rowAddr base' stride' r + k * laneCount fmt W * sampleSize fmt))) neutral =
      sel (laneMask (8 * sampleSize fmt) (laneCount fmt W) width k)
        (List.zipWith φ
          (loadChunk W (8 * sampleSize fmt) (laneCount fmt W) m'
            (rowAddr base stride r + k * laneCount fmt W * sampleSize fmt))
          (loadChunk W (8 * sampleSize fmt) (laneCount fmt W) m'
            (rowAddr base' stride' r + k * laneCount fmt W * sampleSize fmt))) neutral := by
  rw [sel_zipWith_loadChunk hW hk, sel_zipWith_loadChunk hW hk]
  exact maskedChunk_congr neutral fun c hc => congrArg₂ φ (h.laneSample hr hc) (h'.laneSample hr hc)

theorem walkU8_same (h : ReadsAgree .sc .u8 P x m m') : (walkU8 W P m x).Same (walkU8 W P m' x) := by
  refine vecLoop_rel ⟨rfl, rfl, rfl, rfl⟩ fun r hr k hk acc acc' same => ?_
  have lanes (N) := sel_loadChunk_congr hW h.plane1 hr hk N
  refine ⟨congrArg₂ _ same.vmin (lanes _), congrArg₂ _ same.vmax (lanes _),
    congrArg₂ (fun V X => addLanes V (sad8w _ X)) same.vsum (lanes _), ?_⟩
  cases P with
  | one => exact same.vdiff
  | two =>
    exact congrArg₂ addLanes same.vdiff (congrArg₂ (sad8 _) (lanes _) (sel_loadChunk_congr hW (h.plane2 rfl) hr hk _))

theorem walkU16_same (h : ReadsAgree .sc .u16 P x m m') : (walkU16 W P m x).Same (walkU16 W P m' x) := by
  refine vecLoop_rel ⟨rfl, rfl, rfl, rfl⟩ fun r hr k hk acc acc' same => ?_
  have lanes (N) := sel_loadChunk_map_congr hW h.plane1 hr hk (toLaneU16 W) N
  refine ⟨congrArg₂ _ same.vmin (lanes _), congrArg₂ _ same.vmax (lanes _),
    congrArg₂ (fun V X => addLanes V (splitSum _ X)) same.vsum (sel_loadChunk_congr hW h.plane1 hr hk _), ?_⟩
  cases P with
  | one => exact same.vdiff
  | two =>
    exact congrArg₂ (fun V X => addLanes V (splitSum _ X)) same.vdiff
      (sel_zipWith_loadChunk_congr hW h.plane1 (h.plane2 rfl) hr hk absDiffU16 _)

theorem walkF32_same (h : ReadsAgree .sc .f32 P x m m') : (walkF32 W P m x).Same (walkF32 W P m' x) := by
  refine vecLoop_rel ⟨rfl, rfl, rfl, rfl⟩ fun r hr k hk acc acc' same => ?_
  have lanes (N) := sel_loadChunk_congr hW h.plane1 hr hk N
  refine ⟨congrArg₂ _ same.vmin (lanes _), congrArg₂ _ same.vmax (lanes _), congrArg₂ widenAdd same.vsum (lanes _), ?_⟩
  cases P with
  | one => exact same.vdiff
  | two =>
    exact congrArg₂ widenAdd same.vdiff (sel_zipWith_loadChunk_congr hW h.plane1 (h.plane2 rfl) hr hk absDiffF32 _)

/-- FINAL looks at the accumulators alone, so a vector result depends on the samples alone (R176, R188). -/
theorem vecResult_congr (h : ReadsAgree .sc fmt P x m m') : vecResult fmt W P m x = vecResult fmt W P m' x := by
  cases fmt with
  | u8 =>
    obtain ⟨mn, mx, sm, df⟩ := walkU8_same hW h
    simp only [vecResult, finalU8, mn, mx, sm, df]
  | u16 =>
    obtain ⟨mn, mx, sm, df⟩ := walkU16_same hW h
    simp only [vecResult, finalU16, mn, mx, sm, df]
  | f32 =>
    obtain ⟨mn, mx, sm, df⟩ := walkF32_same hW h
    simp only [vecResult, finalF32, mn, mx, sm, df]

end SameSamples

/-- The result of a command depends on the samples alone, whatever the datapath registers held (R146, R176). -/
theorem SameSamples.result_eq {i : Instr} {x : Args} {m m' : Memory} (h : SameSamples i x m m') (d d' : Datapath) :
    (kernelOf i m x d).2 = (kernelOf i m' x d').2 := by
  rw [kernelOf_result, kernelOf_result]
  split
  · rw [h.readsAgree.scWalk]
  · next W hW => exact vecResult_congr (tierWidth_eq_some hW) h.readsAgree

/-- So do the inputs that NAN_RESULT may depend on (R139, R146). -/
theorem SameSamples.inputs_eq {i : Instr} {x : Args} {m m' : Memory} (h : SameSamples i x m m') :
    commandInputs i m x = commandInputs i m' x := by
  have plane1 : x.samples1 i.format m = x.samples1 i.format m' := h.readsAgree.plane1.sampleSeq le_rfl
  unfold commandInputs
  rw [plane1]
  cases hP : i.planes with
  | one => rfl
  | two =>
    have plane2 : x.samples2 i.format m = x.samples2 i.format m' := (h.readsAgree.plane2 hP).sampleSeq le_rfl
    rw [plane2]

end Sys2Proof.Machine

/-! ### The obligations settled: O13, O16, O17, O20, O54, O57 -/

section

open Sys2Proof Sys2Proof.Machine

/-- Settles O13: each lane adds its own masked samples from the left, the tree adds the lanes, and WRITE_RESULT
replaces a NaN. -/
theorem vectorFloatCommandsWriteTheLaneSums : Obligations.VectorFloatCommandsWriteTheLaneSums := by
  intro i s g W h hm hW hf
  obtain ⟨t, ht, -, -, sm, df, -⟩ := exec_ready_record h hm rfl rfl
  have width := tierWidth_eq_some hW
  rw [kernelOf_result, hW, hf] at sm df
  refine ⟨t, ht, ?_, fun two => ?_⟩
  · rw [← walkF32_hsum width i.planes]
    exact sm
  · rw [← walkF32_hdiff width]
    rw [two] at df ⊢
    exact df rfl

/-- Settles O16: result and NAN_RESULT come from the samples, and the record is written over whatever was there. -/
theorem sameInputsWriteTheSameRecord : Obligations.SameInputsWriteTheSameRecord := by
  intro i s s' g g' h h' hm hm' hx same
  refine ⟨_, _, (exec_ready h).trans (congrArg _ (finishCommand_openCommand h.1)),
    (exec_ready h').trans (congrArg _ (finishCommand_openCommand h'.1)), fun k hk => ?_⟩
  dsimp only
  rw [← hx, ← same.result_eq g.datapath g'.datapath, ← same.inputs_eq]
  exact read_writeResult_agree _ _ _ _ hm hm' (.inr ⟨Nat.le_add_right _ k, by omega⟩)

/-- Settles O17: each check passes exactly under its own condition of R135. -/
theorem checksPassExactlyForLegalCommands : Obligations.ChecksPassExactlyForLegalCommands :=
  fun _ _ _ w => startFault_eq_none_iff w

/-- Settles O20: the geometry check decides, and when it passes the stride check, plane 1 first. -/
theorem badGeometryAndStrideFault : Obligations.BadGeometryAndStrideFault := by
  intro i s g idle ht hw
  refine ⟨fun zero => ?_, fun wide high short => ?_, fun wide high long two short => ?_⟩
  · exact takesFault_of_startFault idle (startFault_of_checkGeometry ht hw _ (if_pos zero))
  · exact takesFault_of_startFault idle (startFault_of_checkStride ht hw _ ⟨wide, high⟩ (if_pos short))
  · exact takesFault_of_startFault idle (startFault_of_checkStride ht hw _ ⟨wide, high⟩
      ((if_neg (not_lt.2 long)).trans (if_pos ⟨two, short⟩)))

/-- Settles O54: on encodings that are no NaN the order is that of their keys, which tell them apart. -/
theorem floatOrderIsStrictAndTotal : Obligations.FloatOrderIsStrictAndTotal := by
  refine ⟨fun x y h => ?_, fun x y z => flt_trans, fun x y => flt_total, by decide⟩
  obtain ⟨⟨hx, hy⟩, -⟩ := (flt_iff x y).1 h
  exact ⟨hx, hy, valueOf_le_of_flt h, flt_asymm h⟩

/-- Settles O57: every accumulator starts at +0.0, and a sum is -0.0 only of two -0.0. -/
theorem floatSumsAreNeverNegativeZero : Obligations.FloatSumsAreNeverNegativeZero := by
  intro m x P
  obtain ⟨ssum, sdiff⟩ := scWalk_ne_negZero P m x
  refine ⟨ssum, sdiff, fun W _ => ?_⟩
  obtain ⟨vsum, vdiff⟩ := walkF32_ne_negZero W P m x
  exact ⟨vsum, vdiff, hsumF64_ne_negZero vsum, hsumF64_ne_negZero vdiff⟩

end


/-! Proofs about the vector datapath's lane operations, each said lane by lane, and about the tiers among themselves:
an integer command's result is tier SC's at every tier. -/

namespace Sys2Proof.Machine

/-! ### The lane mask (R41, R173) -/

theorem getElem?_idxLanes (w : Nat) {n j : Nat} (hj : j < n) : (idxLanes w n)[j]? = some (BitVec.ofNat w j) := by
  simp [idxLanes, hj]

/-- Lane `j` is in the mask of a full chunk, and in that of the tail when it is below the remainder (R173). -/
theorem getElem?_laneMask {w n j : Nat} (width k : Nat) (hn : n ≤ 2 ^ w) (hj : j < n) :
    (laneMask w n width k)[j]? = some (decide (k < width / n ∨ j < width % n)) := by
  unfold laneMask
  split
  · next full => rw [List.getElem?_replicate, if_pos hj, decide_eq_true (.inl full)]
  · next tail =>
    have index : (BitVec.ofNat w j).toNat = j := (BitVec.toNat_ofNat _ _).trans (Nat.mod_eq_of_lt (hj.trans_le hn))
    rw [List.getElem?_map, getElem?_idxLanes w hj, Option.map_some, index]
    simp only [tail, false_or]

/-! ### The bias as an exclusive or (R177) -/

/-- Subtracting the midpoint flips bit 15 (R177). -/
theorem bias_eq_xor (v : BitVec 16) : bias v = v ^^^ 0x8000 := by
  have half : (0x8000 : BitVec 16).toNat = 2 ^ 15 := rfl
  have low : (v.toNat ^^^ 2 ^ 15) % 2 ^ 15 = v.toNat % 2 ^ 15 := by
    rw [Nat.xor_mod_two_pow, Nat.mod_self, Nat.xor_zero]
  have high : (v.toNat ^^^ 2 ^ 15) / 2 ^ 15 = v.toNat / 2 ^ 15 ^^^ 1 := by
    rw [Nat.xor_div_two_pow, Nat.div_self (by norm_num)]
  have fits := v.isLt
  apply BitVec.eq_of_toNat_eq
  rw [bias, BitVec.toNat_sub, BitVec.toNat_xor, half, ← Nat.div_add_mod (v.toNat ^^^ 2 ^ 15) (2 ^ 15), low, high]
  obtain h | h : v.toNat / 2 ^ 15 = 0 ∨ v.toNat / 2 ^ 15 = 1 := by omega
  · rw [h, Nat.zero_xor]
    omega
  · rw [h, Nat.xor_self]
    omega

/-! ### The lanes of SAD8W and SPLITSUM (R181, R184) -/

theorem sum_bytes_le (X : List (BitVec 8)) : (X.map BitVec.toNat).sum ≤ X.length * 255 := by
  have bytes : ∀ n ∈ X.map BitVec.toNat, n ≤ 255 := by
    intro n hn
    obtain ⟨b, -, rfl⟩ := List.mem_map.1 hn
    exact Nat.le_of_lt_succ b.isLt
  simpa using List.sum_le_card_nsmul _ 255 bytes

/-- Eight bytes add up to at most 2040, far from 2^64, so no lane wraps (R181). -/
theorem sad8w_lane {D g : Nat} (X : List (BitVec 8)) (hg : g < D) :
    ∃ y, (sad8w D X)[g]? = some y ∧ y.toNat = (((X.drop (8 * g)).take 8).map BitVec.toNat).sum ∧ y.toNat ≤ 2040 := by
  have bound : (((X.drop (8 * g)).take 8).map BitVec.toNat).sum ≤ 2040 :=
    (sum_bytes_le _).trans (Nat.mul_le_mul_right 255 (List.length_take_le 8 _))
  have total := foldl_add_ofNat (((X.drop (8 * g)).take 8).map BitVec.toNat)
  rw [Nat.mod_eq_of_lt (bound.trans_lt (by norm_num)), List.map_map, List.foldl_map] at total
  simp only [Function.comp_apply, BitVec.ofNat_toNat] at total
  exact ⟨_, by simp [sad8w, hg], total, total.trans_le bound⟩

/-- Dropping whole parts of one length from a flattened list is dropping the elements that they come from. -/
theorem drop_flatMap {α β : Type} {f : α → List β} {n : Nat} (hf : ∀ a, (f a).length = n) :
    ∀ (k : Nat) (l : List α), (l.flatMap f).drop (n * k) = (l.drop k).flatMap f
  | 0, _ => rfl
  | k + 1, [] => by simp
  | k + 1, a :: l => by
    rw [List.flatMap_cons, Nat.mul_succ, Nat.add_comm, ← hf a, List.drop_length_add_append, hf a, drop_flatMap hf k l,
      List.drop_succ_cons]

theorem take_flatMap {α β : Type} {f : α → List β} {n : Nat} (hf : ∀ a, (f a).length = n) :
    ∀ (k : Nat) (l : List α), (l.flatMap f).take (n * k) = (l.take k).flatMap f
  | 0, _ => rfl
  | k + 1, [] => by simp
  | k + 1, a :: l => by
    rw [List.flatMap_cons, Nat.mul_succ, Nat.add_comm, ← hf a, List.take_length_add_append, hf a, take_flatMap hf k l,
      List.take_succ_cons, List.flatMap_cons]

/-- The 8 bytes beneath a 64-bit lane are those of the 4 words beneath it (R181, R184). -/
theorem bytes_beneath (f : BitVec 16 → BitVec 16) (X : List (BitVec 16)) (g : Nat) :
    (((X.map f).flatMap bytesOfLane).drop (8 * g)).take 8 =
      ((X.drop (4 * g)).take 4).flatMap fun v => bytesOfLane (f v) := by
  have two (v : BitVec 16) : (bytesOfLane (f v)).length = 2 := rfl
  rw [List.flatMap_map, show 8 * g = 2 * (4 * g) by omega, drop_flatMap two]
  exact take_flatMap two 4 _

theorem sum_bytes_loLane (v : BitVec 16) : ((bytesOfLane (loLane v)).map BitVec.toNat).sum = v.toNat % 256 := by
  have low : (loLane v).toNat = v.toNat % 256 := by
    simpa [loLane] using Nat.and_two_pow_sub_one_eq_mod v.toNat 8
  simp only [bytesOfLane, List.map_cons, List.map_nil, List.sum_cons, List.sum_nil, BitVec.extractLsb'_toNat,
    Nat.shiftRight_eq_div_pow, low]
  omega

theorem sum_bytes_hiLane (v : BitVec 16) : ((bytesOfLane (hiLane v)).map BitVec.toNat).sum = v.toNat / 256 := by
  have high : (hiLane v).toNat = v.toNat / 256 := by
    simp [hiLane, Nat.shiftRight_eq_div_pow]
  have fits := v.isLt
  simp only [bytesOfLane, List.map_cons, List.map_nil, List.sum_cons, List.sum_nil, BitVec.extractLsb'_toNat,
    Nat.shiftRight_eq_div_pow, high]
  omega

/-- Words add up to their low bytes and 256 times their high bytes (R184). -/
theorem sum_split_bytes (X : List (BitVec 16)) :
    ((X.flatMap fun v => bytesOfLane (loLane v)).map BitVec.toNat).sum +
      ((X.flatMap fun v => bytesOfLane (hiLane v)).map BitVec.toNat).sum * 256 = (X.map BitVec.toNat).sum := by
  induction X with
  | nil => rfl
  | cons v X ih =>
    simp only [List.flatMap_cons, List.map_append, List.sum_append, List.map_cons, List.sum_cons, sum_bytes_loLane,
      sum_bytes_hiLane]
    omega

theorem splitSum_lane {D g : Nat} (X : List (BitVec 16)) (hg : g < D) :
    ∃ y, (splitSum D X)[g]? = some y ∧ y.toNat = (((X.drop (4 * g)).take 4).map BitVec.toNat).sum := by
  obtain ⟨lo, atLo, sumLo, leLo⟩ := sad8w_lane ((X.map loLane).flatMap bytesOfLane) hg
  obtain ⟨hi, atHi, sumHi, leHi⟩ := sad8w_lane ((X.map hiLane).flatMap bytesOfLane) hg
  refine ⟨_, List.getElem?_zipWith_eq_some.2 ⟨lo, hi, atLo, atHi, rfl⟩, ?_⟩
  rw [bytes_beneath] at sumLo sumHi
  rw [← sum_split_bytes, ← sumLo, ← sumHi, BitVec.toNat_add, BitVec.toNat_shiftLeft, Nat.shiftLeft_eq]
  omega

/-! ### Saturating subtraction (R185) -/

/-- Saturating at 0 is what subtraction of numbers does (R185). -/
theorem toNat_satsubU16 (a b : BitVec 16) : (satsubU16 a b).toNat = a.toNat - b.toNat := by
  unfold satsubU16
  split
  · next h => exact BitVec.toNat_sub_of_le h
  · next h => exact (Nat.sub_eq_zero_of_le (BitVec.lt_def.1 (BitVec.not_le.1 h)).le).symm

/-- One of the two saturating subtractions is 0 (R185). -/
theorem satsubU16_eq_zero_or (a b : BitVec 16) : satsubU16 a b = 0 ∨ satsubU16 b a = 0 := by
  have zero {x y : BitVec 16} (h : x.toNat ≤ y.toNat) : satsubU16 x y = 0 :=
    BitVec.eq_of_toNat_eq ((toNat_satsubU16 x y).trans (Nat.sub_eq_zero_of_le h))
  exact (le_total a.toNat b.toNat).imp zero zero

/-! ### Integer results are unsigned folds over lanes at every tier (R132, R190) -/

/-- The unsigned least, greatest and sums of a command's lanes, each from its seed (R132, R136). -/
def laneResult (fmt : Format) (P : Planes) (m : Memory) (x : Args) : KernelResult where
  mn := ((grid x.height x.width (laneSample fmt m x.src1 x.stride1)).foldl (fun a b => if b < a then b else a)
    (BitVec.allOnes _)).setWidth 32
  mx := ((grid x.height x.width (laneSample fmt m x.src1 x.stride1)).foldl (fun a b => if a < b then b else a)
    0).setWidth 32
  sm := (grid x.height x.width fun r c => (laneSample fmt m x.src1 x.stride1 r c).setWidth 64).foldl
    (fun a b => a + b) 0
  df :=
    match P with
    | .one => 0
    | .two => (grid x.height x.width fun r c =>
        (if laneSample fmt m x.src1 x.stride1 r c < laneSample fmt m x.src2 x.stride2 r c then
          laneSample fmt m x.src2 x.stride2 r c - laneSample fmt m x.src1 x.stride1 r c
        else laneSample fmt m x.src1 x.stride1 r c - laneSample fmt m x.src2 x.stride2 r c).setWidth 64).foldl
          (fun a b => a + b) 0

theorem laneWidth_le_word (fmt : Format) : 8 * sampleSize fmt ≤ 32 := by
  cases fmt <;> decide

/-- A sample is its lane, widened (R63). -/
theorem sample_eq_laneSample (fmt : Format) (m : Memory) (base : Nat) (stride : Int) (r c : Nat) :
    sample fmt m (rowAddr base stride r + c * sampleSize fmt) = (laneSample fmt m base stride r c).setWidth 32 :=
  BitVec.eq_of_toNat_eq (by rw [BitVec.toNat_setWidth_of_le (laneWidth_le_word fmt), laneSample_toNat])

section Widening

variable {w n : Nat} (h : w ≤ n) (a b : BitVec w)
include h

theorem setWidth_lt_iff : a.setWidth n < b.setWidth n ↔ a < b := by
  rw [BitVec.lt_def, BitVec.lt_def, BitVec.toNat_setWidth_of_le h, BitVec.toNat_setWidth_of_le h]

theorem setWidth_umin : (if b < a then b else a).setWidth n =
    if b.setWidth n < a.setWidth n then b.setWidth n else a.setWidth n := by
  simp only [apply_ite (BitVec.setWidth n), setWidth_lt_iff h]

theorem setWidth_umax : (if a < b then b else a).setWidth n =
    if a.setWidth n < b.setWidth n then b.setWidth n else a.setWidth n := by
  simp only [apply_ite (BitVec.setWidth n), setWidth_lt_iff h]

/-- Widening first or last gives the same absolute difference: it is that of the numbers (R132). -/
theorem setWidth_absDiff : (if a < b then b - a else a - b).setWidth n =
    if a.setWidth n < b.setWidth n then b.setWidth n - a.setWidth n else a.setWidth n - b.setWidth n :=
  BitVec.eq_of_toNat_eq (by
    rw [BitVec.toNat_setWidth_of_le h, toNat_absDiff, toNat_absDiff, BitVec.toNat_setWidth_of_le h,
      BitVec.toNat_setWidth_of_le h])

end Widening

/-- Tier SC folds the widened lanes, which is folding the lanes (R137, R140 to R144). -/
theorem scWalk_eq_laneResult {fmt : Format} (hf : fmt ≠ .f32) (P : Planes) (m : Memory) (x : Args) :
    (⟨(scWalk fmt P m x).smin, (scWalk fmt P m x).smax, (scWalk fmt P m x).ssum, (scWalk fmt P m x).sdiff⟩ :
      KernelResult) = laneResult fmt P m x := by
  have fits := laneWidth_le_word fmt
  have steps : scMin fmt = (fun a b => if b < a then b else a) ∧ scMax fmt = (fun a b => if a < b then b else a) ∧
      scSum fmt = (fun acc a => acc + a.setWidth 64) ∧
      (∀ acc a b, scDiff fmt acc a b = acc + (absDiff32 a b).setWidth 64) ∧
      minSeed fmt = (BitVec.allOnes (8 * sampleSize fmt)).setWidth 32 ∧
      maxSeed fmt = (0 : BitVec (8 * sampleSize fmt)).setWidth 32 := by
    cases fmt with
    | u8 | u16 => exact ⟨rfl, rfl, rfl, fun _ _ _ => rfl, rfl, rfl⟩
    | f32 => exact absurd rfl hf
  obtain ⟨hmin, hmax, hsum, hdiff, seed, zero⟩ := steps
  have samples (base : Nat) (stride : Int) : sampleSeq fmt m base stride x.width x.height =
      (grid x.height x.width (laneSample fmt m base stride)).map (BitVec.setWidth 32) := by
    rw [sampleSeq_eq_grid, map_grid]
    simp only [sample_eq_laneSample]
  have widen (v : BitVec (8 * sampleSize fmt)) : (v.setWidth 32).setWidth 64 = v.setWidth 64 :=
    BitVec.setWidth_setWidth (by omega)
  refine (KernelResult.mk.injEq ..).mpr ⟨?_, ?_, ?_, ?_⟩
  · rw [scWalk_smin, Args.samples1, samples, List.foldl_map, hmin, seed]
    exact List.foldl_hom (BitVec.setWidth 32) fun a b => (setWidth_umin fits a b).symm
  · rw [scWalk_smax, Args.samples1, samples, List.foldl_map, hmax, zero]
    exact List.foldl_hom (BitVec.setWidth 32) fun a b => (setWidth_umax fits a b).symm
  · rw [scWalk_ssum, Args.samples1, samples, hsum, List.foldl_map, ← map_grid, List.foldl_map]
    simp only [widen]
  · cases P with
    | one => exact vecLoop_keeps (P := fun acc : ScalarRegs => acc.sdiff = 0) _ _ rfl fun _ _ _ h => h
    | two =>
      rw [scWalk_sdiff fmt m x hdiff, Args.samples1, Args.samples2, samples, samples, map_grid, map_grid, zipWith_grid]
      simp only [absDiff32, ← setWidth_absDiff fits, widen]

section Walks

variable {W : Nat} (hW : W = 128 ∨ W = 256) (m : Memory) (x : Args)
include hW

/-- An accumulator of sums that no chunk touches ends at 0 (R178, R289). -/
theorem hsumU64_seed : hsumU64 (List.replicate (W / 64) 0) = 0 := by
  obtain ⟨e, lanes⟩ := accLanes_eq_two_pow hW
  exact laneOp_add.htree_chunks lanes 0 (chunks := []) nofun

theorem finalU8_eq_laneResult (P : Planes) : finalU8 (walkU8 W P m x) = laneResult .u8 P m x := by
  refine (KernelResult.mk.injEq ..).mpr ⟨congrArg (BitVec.setWidth 32) (walkU8_hmin hW P m x),
    congrArg (BitVec.setWidth 32) (walkU8_hmax hW P m x), walkU8_hsum hW P m x, ?_⟩
  cases P with
  | one =>
    have seed : (walkU8 W .one m x).vdiff = List.replicate (W / 64) 0 :=
      vecLoop_keeps (P := fun acc : VecAcc 8 => acc.vdiff = _) _ _ rfl fun _ _ _ h => h
    exact (congrArg hsumU64 seed).trans (hsumU64_seed hW)
  | two => exact walkU8_hdiff hW m x

theorem finalU16_eq_laneResult (P : Planes) : finalU16 W (walkU16 W P m x) = laneResult .u16 P m x := by
  refine (KernelResult.mk.injEq ..).mpr
    ⟨(finalU16_mn W _).trans (congrArg (BitVec.setWidth 32) (walkU16_hmin hW P m x)),
      (finalU16_mx W _).trans (congrArg (BitVec.setWidth 32) (walkU16_hmax hW P m x)), walkU16_hsum hW P m x, ?_⟩
  cases P with
  | one =>
    have seed : (walkU16 W .one m x).vdiff = List.replicate (W / 64) 0 :=
      vecLoop_keeps (P := fun acc : VecAcc 16 => acc.vdiff = _) _ _ rfl fun _ _ _ h => h
    exact (congrArg hsumU64 seed).trans (hsumU64_seed hW)
  | two =>
    have sums := walkU16_hdiff hW m x
    rw [funext₂ absDiffU16_eq] at sums
    exact sums

end Walks

/-- Every tier's integer result is the unsigned folds over the lanes, whatever the datapath registers held (R190). -/
theorem kernelOf_integer {i : Instr} (hf : i.format ≠ .f32) (m : Memory) (x : Args) (d : Datapath) :
    (kernelOf i m x d).2 = laneResult i.format i.planes m x := by
  rw [kernelOf_result]
  split
  · exact scWalk_eq_laneResult hf i.planes m x
  · next W hW =>
    have width := tierWidth_eq_some hW
    cases hfmt : i.format with
    | u8 => exact finalU8_eq_laneResult width m x i.planes
    | u16 => exact finalU16_eq_laneResult width m x i.planes
    | f32 => exact absurd hfmt hf

end Sys2Proof.Machine

/-! ### The obligations settled: O14, O15, O46, O47, O48, O49, O50 -/

section

open Sys2Proof Sys2Proof.Machine

/-- Settles O14: in every tier the F32 extrema are the folds of R133, and an integer result is the folds over the
lanes. -/
theorem tiersAgree : Obligations.TiersAgree := by
  intro i j m x d d' format planes
  by_cases hf : i.format = .f32
  · obtain ⟨least, greatest⟩ := kernelOf_f32_extrema hf m x d
    obtain ⟨least', greatest'⟩ := kernelOf_f32_extrema (format ▸ hf) m x d'
    exact ⟨least.trans least'.symm, greatest.trans greatest'.symm, fun integer => absurd hf integer⟩
  · have same : (kernelOf i m x d).2 = (kernelOf j m x d').2 := by
      rw [kernelOf_integer hf, kernelOf_integer (format ▸ hf), format, planes]
    rw [same]
    exact ⟨rfl, rfl, fun _ => ⟨rfl, rfl⟩⟩

/-- Settles O15: the result and the inputs of NAN_RESULT come from the samples. -/
theorem overReadBytesNeverMatter : Obligations.OverReadBytesNeverMatter :=
  fun _ _ _ _ d same => ⟨same.result_eq d d, same.inputs_eq⟩

/-- Settles O46: a full chunk's mask is all ones, and below 2^w an index lane holds its own number. -/
theorem tailMaskCoversTheRemainder : Obligations.TailMaskCoversTheRemainder :=
  fun w n width k _ hn hj => ⟨getElem?_laneMask width k hn hj, length_laneMask w n width k⟩

/-- Settles O47: the bias flips bit 15, which is subtracting 32768 from the number, so it keeps the order. -/
theorem biasedExtremaAreUnsignedExtrema : Obligations.BiasedExtremaAreUnsignedExtrema := by
  intro a b
  have unbias_bias (v : BitVec 16) : unbias (bias v) = v := ofLaneU16_toLaneU16 128 v
  have least : minI16 (bias a) (bias b) = bias (minU16 a b) := laneMinU16_toLane 128 a b
  have greatest : maxI16 (bias a) (bias b) = bias (maxU16 a b) := laneMaxU16_toLane 128 a b
  exact ⟨bias_eq_xor a, toInt_bias a, unbias_bias a, slt_bias a b, least ▸ unbias_bias _, greatest ▸ unbias_bias _⟩

/-- Settles O48: eight bytes cannot wrap a 64-bit lane. -/
theorem byteSumsAreExact : Obligations.ByteSumsAreExact :=
  fun _ X _ _ hg => sad8w_lane X hg

/-- Settles O49: low and high byte sums, neither wrapping, make up the word sum. -/
theorem splitSumsAreExact : Obligations.SplitSumsAreExact :=
  fun _ X _ _ hg => splitSum_lane X hg

/-- Settles O50: each saturating subtraction is that of the numbers, so one of the two is 0. -/
theorem saturatingDifferenceIsAbsolute : Obligations.SaturatingDifferenceIsAbsolute := by
  intro a b
  refine ⟨rfl, toNat_satsubU16 a b, satsubU16_eq_zero_or a b, ?_⟩
  rw [absDiffU16_eq, toNat_absDiff]
  omega

end

/-! Proofs about the reduction tree: each level folds the upper half of the lanes onto the lower half, so an operation
that keeps one of its operands leaves a lane, and the extremum of a power of two of them. -/

namespace Sys2Proof.Machine

/-! ### The levels of the tree (R280) -/

section Levels

variable {α : Type} (op : α → α → α)

theorem length_foldHalf (v : List α) : (foldHalf op v).length = v.length / 2 := by
  simp only [foldHalf, List.length_zipWith, List.length_take, List.length_drop]
  omega

/-- Fuel for one level fewer than there are lanes is enough: more changes nothing. -/
theorem halveLanes_succ : ∀ {fuel : Nat} {v : List α}, v.length ≤ fuel + 1 →
    halveLanes op (fuel + 1) v = halveLanes op fuel v
  | 0, v, hlen => if_pos hlen
  | fuel + 1, v, hlen => by
    rw [halveLanes, halveLanes]
    refine if_congr Iff.rfl rfl (halveLanes_succ ?_)
    rw [length_foldHalf]
    omega

theorem halveLanes_of_length_le {fuel : Nat} {v : List α} (h : v.length ≤ fuel) :
    halveLanes op fuel v = halveLanes op v.length v := by
  induction fuel, h using Nat.le_induction with
  | base => rfl
  | succ fuel h ih => rw [halveLanes_succ op (by omega), ih]

/-- The tree of two lanes or more is one level and then the tree of what it leaves. -/
theorem htree_foldHalf (none : α) {v : List α} (h : 2 ≤ v.length) :
    htree op none v = htree op none (foldHalf op v) := by
  obtain ⟨fuel, hfuel⟩ := Nat.exists_eq_add_of_le' h
  have enough : (foldHalf op v).length ≤ fuel + 1 := by rw [length_foldHalf]; omega
  rw [htree, hfuel, halveLanes, if_neg (by omega), halveLanes_of_length_le op enough, htree]

theorem htree_eight (none a b c d e f g h : α) : htree op none [a, b, c, d, e, f, g, h] =
    op (op (op a e) (op c g)) (op (op b f) (op d h)) := by
  have level : foldHalf op [a, b, c, d, e, f, g, h] = [op a e, op b f, op c g, op d h] := by simp [foldHalf]
  rw [htree_foldHalf op none (by simp), level, htree_four]

variable {op}

/-- A lane that a level leaves is the operation's result on two of the lanes before it. -/
theorem exists_of_mem_foldHalf {v : List α} {c : α} (h : c ∈ foldHalf op v) : ∃ a ∈ v, ∃ b ∈ v, c = op a b := by
  obtain ⟨i, hi, rfl⟩ := List.mem_iff_getElem.1 h
  simp only [foldHalf, List.getElem_zipWith]
  exact ⟨_, List.mem_of_mem_take (List.getElem_mem _), _, List.mem_of_mem_drop (List.getElem_mem _), rfl⟩

/-- A level of an even number of lanes uses every lane. -/
theorem exists_mem_foldHalf {v : List α} (even : Even v.length) {x : α} (hx : x ∈ v) :
    ∃ y ∈ v, op x y ∈ foldHalf op v ∨ op y x ∈ foldHalf op v := by
  obtain ⟨h, hlen⟩ := even
  have half : v.length / 2 = h := by omega
  have pair (j : Nat) (hj : j < h) : op v[j] v[h + j] ∈ foldHalf op v := by
    refine List.mem_iff_getElem.2 ⟨j, by rw [length_foldHalf]; omega, ?_⟩
    simp only [foldHalf, List.getElem_zipWith, List.getElem_take, List.getElem_drop, half]
  obtain ⟨i, hi, rfl⟩ := List.mem_iff_getElem.1 hx
  rcases Nat.lt_or_ge i h with lower | upper
  · exact ⟨_, List.getElem_mem _, .inl (pair i lower)⟩
  · obtain ⟨j, rfl⟩ := Nat.exists_eq_add_of_le upper
    exact ⟨_, List.getElem_mem _, .inr (pair j (by omega))⟩

end Levels

/-! ### The extremum of the lanes (R281 to R288, R292) -/

section Extrema

variable {α β : Type} [LinearOrder β] {key : α → β} {k : Nat} {v : List α}

/-- Keeping the operand of the lower key, the tree of a power of two of lanes gives one of lowest key. -/
theorem htree_least {op : α → α → α} (none : α) (hlen : v.length = 2 ^ k)
    (hop : ∀ a ∈ v, ∀ b ∈ v, op a b = if key b < key a then b else a) :
    htree op none v ∈ v ∧ ∀ x ∈ v, key (htree op none v) ≤ key x := by
  induction k generalizing v with
  | zero =>
    obtain ⟨a, rfl⟩ := List.length_eq_one_iff.1 hlen
    have one : htree op none [a] = a := rfl
    simp [one]
  | succ k ih =>
    have two : v.length = 2 * 2 ^ k := hlen.trans (pow_succ' 2 k)
    have kept : ∀ c ∈ foldHalf op v, c ∈ v := by
      intro c hc
      obtain ⟨a, ha, b, hb, rfl⟩ := exists_of_mem_foldHalf hc
      rw [hop a ha b hb]
      split <;> assumption
    have lower : ∀ a ∈ v, ∀ b ∈ v, key (op a b) = min (key a) (key b) := by
      intro a ha b hb
      rw [hop a ha b hb, apply_ite key, min_comm, min_def_lt]
    obtain ⟨lane, least⟩ := ih (v := foldHalf op v) (by rw [length_foldHalf]; omega) fun a ha b hb =>
      hop a (kept a ha) b (kept b hb)
    rw [htree_foldHalf op none (by have := Nat.two_pow_pos k; omega)]
    refine ⟨kept _ lane, fun x hx => ?_⟩
    obtain ⟨y, hy, left | right⟩ := exists_mem_foldHalf (op := op) (even_iff_two_dvd.2 ⟨_, two⟩) hx
    · exact (least _ left).trans (lower x hx y hy ▸ min_le_left _ _)
    · exact (least _ right).trans (lower y hy x hx ▸ min_le_right _ _)

/-- The reductions with the operations that keep the lower and the higher key give lanes of lowest and of highest
key. -/
theorem htree_extrema {lo hi : α → α → α} (none : α) (hlen : v.length = 2 ^ k)
    (hlo : ∀ a ∈ v, ∀ b ∈ v, lo a b = if key b < key a then b else a)
    (hhi : ∀ a ∈ v, ∀ b ∈ v, hi a b = if key a < key b then b else a) :
    htree lo none v ∈ v ∧ htree hi none v ∈ v ∧
      ∀ x ∈ v, key (htree lo none v) ≤ key x ∧ key x ≤ key (htree hi none v) := by
  obtain ⟨lane, least⟩ := htree_least none hlen hlo
  obtain ⟨lane', greatest⟩ := htree_least (key := fun a => OrderDual.toDual (key a)) none hlen hhi
  exact ⟨lane, lane', fun x hx => ⟨least x hx, greatest x hx⟩⟩

end Extrema

/-- Bytes and words, unsigned (R281, R282, R285, R286). -/
theorem htree_unsigned_extrema {w k : Nat} {v : List (BitVec w)} (hlen : v.length = 2 ^ k) :
    htree (fun a b => if b < a then b else a) 0 v ∈ v ∧ htree (fun a b => if a < b then b else a) 0 v ∈ v ∧
      ∀ x ∈ v, htree (fun a b => if b < a then b else a) 0 v ≤ x ∧ x ≤ htree (fun a b => if a < b then b else a) 0 v :=
  htree_extrema (key := BitVec.toNat) 0 hlen (fun _ _ _ _ => rfl) fun _ _ _ _ => rfl

/-- Signed words (R283, R284). -/
theorem htree_signed_extrema {k : Nat} {v : List (BitVec 16)} (hlen : v.length = 2 ^ k) :
    hminI16 v ∈ v ∧ hmaxI16 v ∈ v ∧ ∀ x ∈ v, (hminI16 v).toInt ≤ x.toInt ∧ x.toInt ≤ (hmaxI16 v).toInt :=
  htree_extrema 0 hlen (fun _ _ _ _ => by simp only [minI16, BitVec.slt_iff_toInt_lt])
    fun _ _ _ _ => by simp only [maxI16, BitVec.slt_iff_toInt_lt]

/-- On lanes of which none is a NaN the binary32 reductions go by the keys of the order of R133 (R287, R288). -/
theorem htree_float_extrema {k : Nat} {v : List F32} (hlen : v.length = 2 ^ k) (numbers : ∀ x ∈ v, NoNaN x) :
    hminF32 v ∈ v ∧ hmaxF32 v ∈ v ∧
      ∀ x ∈ v, floatKey (hminF32 v) ≤ floatKey x ∧ floatKey x ≤ floatKey (hmaxF32 v) := by
  have below : ∀ a ∈ v, ∀ b ∈ v, flt a b = true ↔ floatKey a < floatKey b := fun a ha b hb => by
    rw [flt_iff, and_iff_right ⟨numbers a ha, numbers b hb⟩]
  exact htree_extrema 0 hlen (fun a ha b hb => by simp only [fmin2, below b hb a ha])
    fun a ha b hb => by simp only [fmax2, fgt, below a ha b hb]

/-- The sum of a power of two of 64-bit lanes is the sum of the numbers modulo 2^64 (R289). -/
theorem hsumU64_toNat {k : Nat} {v : List DWord} (hlen : v.length = 2 ^ k) :
    (hsumU64 v).toNat = (v.map BitVec.toNat).sum % 2 ^ 64 := by
  have lanes : (v.map BitVec.toNat).map (BitVec.ofNat 64) = v := by simp [Function.comp_def]
  rw [hsumU64, laneOp_add.htree_eq 0 hlen fun _ _ => trivial, ← foldl_add_ofNat, lanes]

end Sys2Proof.Machine

/-! ### The obligations settled: O51, O52, O53 -/

section

open Sys2Proof Sys2Proof.Machine

/-- Settles O51: a level halves the lanes, however many they are, and the tree is its levels. -/
theorem treeFoldsUpperHalfOntoLowerHalf : Obligations.TreeFoldsUpperHalfOntoLowerHalf := by
  intro op d
  refine ⟨fun _ => rfl, fun v h pos hlen => ?_, htree_two op d, htree_four op d, htree_eight op d⟩
  have level : foldHalf op v = List.zipWith op (v.take h) (v.drop h) := by
    rw [foldHalf, hlen, Nat.mul_div_cancel_left h two_pos]
  rw [htree_foldHalf op d (by omega), level]

/-- Settles O52: a level leaves an extremal lane among those it leaves, and addition modulo 2^64 may be done in any
order. -/
theorem integerReductionsGiveTheExtremumAndTheSum : Obligations.IntegerReductionsGiveTheExtremumAndTheSum :=
  fun _ => ⟨fun _ => htree_unsigned_extrema, fun _ => htree_unsigned_extrema, fun _ => htree_signed_extrema,
    fun _ => hsumU64_toNat⟩

/-- Settles O53: without NaNs the order of R133 is that of the keys, and the tree gives lanes of extremal key. -/
theorem floatReductionsGiveTheOrderedExtrema : Obligations.FloatReductionsGiveTheOrderedExtrema := by
  intro k v hlen numbers
  obtain ⟨least, greatest, between⟩ := htree_float_extrema hlen numbers
  have not_below {a b : F32} (h : floatKey b ≤ floatKey a) : flt a b = false := by
    rw [Bool.eq_false_iff, Ne, flt_iff]
    exact fun below => absurd below.2 (not_lt.2 h)
  exact ⟨least, greatest, fun x hx => ⟨not_below (between x hx).1, not_below (between x hx).2⟩⟩

end

/-! ### The obligation settled: O41 -/

section

open Sys2Proof Sys2Proof.Machine

/-- Settles O41: the invariant of the reset state counts its engines, each of which is the reset engine, idle and with
no register written (R332, R350); the rest is what the reset state lists. -/
theorem resetStateIsIdleAndUnwritten : Obligations.ResetStateIsIdleAndUnwritten := by
  refine ⟨rfl, fun p => ⟨(inv_resetWith p).engineCount, fun g hg => ?_, rfl, rfl, rfl⟩⟩
  obtain ⟨_, found⟩ := List.mem_iff_getElem?.1 hg
  obtain rfl := engine?_resetWith found
  exact ⟨rfl, written_reset⟩

end

/-! ### Reset while an engine is busy (R351) -/

namespace Sys2Proof.Machine

/-- One busy engine is enough for the reset to be refused. -/
theorem resetEngines_busy {s : State} (h : ∃ g ∈ s.engines, g.isBusy = true) :
    s.resetEngines = .refused .resetWhileBusy := by
  rw [State.resetEngines, if_pos (List.any_eq_true.2 h)]

end Sys2Proof.Machine

/-! ### The obligation settled: O40 -/

section

open Sys2Proof Sys2Proof.Machine

/-- Settles O40: the scheduled event is the reset of the same engines, which is refused. -/
theorem resetWhileBusyIsRefused : Obligations.ResetWhileBusyIsRefused :=
  fun s rest busy =>
    (step_scheduled s .reset rest).trans (resetEngines_busy (s := { s with sched := rest }) busy)

end
